-- ==== Sys2Proof/Word.lean ====
section
/-! DEFINITION. The bit-vector types of the GTE: a byte of RAM or of a packet (spec 10_state.md R22, 00_scope.md R12)
and the packet's wider operands (30_encoding.md R83). -/

namespace Sys2Proof

/-- A byte of RAM, of the font ROM or of a packet (R12, R22). -/
abbrev Byte := BitVec 8

/-- A two-byte operand as the packet carries it (R83): a `u16` is its `toNat`, an `s16` its `toInt`. -/
abbrev Half := BitVec 16

/-- A three-byte operand, the `u24` source address of a blit (R83). -/
abbrev Addr24 := BitVec 24

end Sys2Proof
end

