-- ==== Sys2Proof/Syntax.lean ====
section
/-! DEFINITION. The commands of the GTE, one constructor for each row of the opcode map (spec 30_encoding.md R85).
Operands are the bits the packet carries (R82, R83); the meanings read them as signed or unsigned numbers (R84). -/

namespace Sys2Proof

/-- One command with its operands in packet order (R82, R85, R100). An operand that holds a reserved value is still
an operand of its command: the command's own rule refuses it, by `E_OPERAND` (R90). -/
inductive Instr where
  /-- `RESET` (R110). -/
  | reset
  /-- `SETTARGET t` (R111). -/
  | setTarget (t : Byte)
  /-- `DRAWDATA x, y, w, h, addr, flags` (R128). -/
  | drawData (x y w h : Half) (addr : Addr24) (flags : Byte)
  /-- `SAVEDATA x, y, w, h, addr` (R132). -/
  | saveData (x y w h : Half) (addr : Half)
  /-- `RENDER` (R134). -/
  | render
  /-- `DRAWPOINT x, y, sm` (R152). -/
  | drawPoint (x y : Half) (sm : Byte)
  /-- `DRAWLINE x0, y0, x1, y1, sm` (R154). -/
  | drawLine (x0 y0 x1 y1 : Half) (sm : Byte)
  /-- `DRAWRECT x0, y0, x1, y1, sm` (R156). -/
  | drawRect (x0 y0 x1 y1 : Half) (sm : Byte)
  /-- `DRAWOVAL cx, cy, rx, ry, sm` (R159). -/
  | drawOval (cx cy rx ry : Half) (sm : Byte)
  /-- `TESTPOINT x, y` (R160). -/
  | testPoint (x y : Half)
  /-- `SCROLL dir` (R180). -/
  | scroll (dir : Byte)
  /-- `MIRROR dir` (R181). -/
  | mirror (dir : Byte)
  /-- `MEMFILL addr, count, value` (R190). -/
  | memFill (addr count : Half) (value : Byte)
  /-- `MEMCOPY dest, src, count` (R191). -/
  | memCopy (dest src count : Half)
  /-- `TXTMODE m` (R213). -/
  | txtMode (m : Byte)
  /-- `TXTLOC row, col` (R214). -/
  | txtLoc (row col : Half)
  /-- `TXTBYTE b` (R215). -/
  | txtByte (b : Byte)
  /-- `TXTBYTES addr, count` (R216). -/
  | txtBytes (addr count : Half)
  /-- `TXTRENDER mask` (R224). -/
  | txtRender (mask : Half)
deriving DecidableEq, Repr

end Sys2Proof
end

