-- ==== Sys2Proof/Decode.lean ====
section
/-! DEFINITION. Command packets (spec 30_encoding.md): the formats (R82), the opcode map (R85), operand assembly (R84), the
decoder (R81, R89, R91), the encoder, and the cutting of a command list into packets (R93). -/

namespace Sys2Proof

/-- The eleven packet formats (R82). -/
inductive Format where
  | Z | B | H | P | A2 | PM | AF | A3 | QM | S | D
deriving DecidableEq, Repr

/-- The length of a packet of each format, in bytes (R82). -/
def Format.length : Format → Nat
  | .Z => 1
  | .B => 2
  | .H => 3
  | .P => 5
  | .A2 => 5
  | .PM => 6
  | .AF => 6
  | .A3 => 7
  | .QM => 10
  | .S => 11
  | .D => 13

/-- `u8(o)` (R84). -/
def u8 (p : List Byte) (o : Nat) : Byte := p.getD o 0

/-- `u16(o)`, and `s16(o)` when it is read as two's complement: little-endian (R84). -/
def u16 (p : List Byte) (o : Nat) : Half := u8 p (o + 1) ++ u8 p o

/-- `u24(o)`: little-endian (R84). -/
def u24 (p : List Byte) (o : Nat) : Addr24 := u8 p (o + 2) ++ u8 p (o + 1) ++ u8 p o

/-- The opcode map (R85): the format of each legal opcode and the command a packet of that format is. -/
def opcodeRow (op : Byte) : Option (Format × (List Byte → Instr)) :=
  match op.toNat with
  | 0x01 => some (.Z, fun _ => .reset)
  | 0x02 => some (.B, fun p => .setTarget (u8 p 1))
  | 0x10 => some (.D, fun p => .drawData (u16 p 1) (u16 p 3) (u16 p 5) (u16 p 7) (u24 p 9) (u8 p 12))
  | 0x11 => some (.S, fun p => .saveData (u16 p 1) (u16 p 3) (u16 p 5) (u16 p 7) (u16 p 9))
  | 0x12 => some (.Z, fun _ => .render)
  | 0x20 => some (.PM, fun p => .drawPoint (u16 p 1) (u16 p 3) (u8 p 5))
  | 0x21 => some (.QM, fun p => .drawLine (u16 p 1) (u16 p 3) (u16 p 5) (u16 p 7) (u8 p 9))
  | 0x22 => some (.QM, fun p => .drawRect (u16 p 1) (u16 p 3) (u16 p 5) (u16 p 7) (u8 p 9))
  | 0x23 => some (.QM, fun p => .drawOval (u16 p 1) (u16 p 3) (u16 p 5) (u16 p 7) (u8 p 9))
  | 0x24 => some (.P, fun p => .testPoint (u16 p 1) (u16 p 3))
  | 0x30 => some (.B, fun p => .scroll (u8 p 1))
  | 0x31 => some (.B, fun p => .mirror (u8 p 1))
  | 0x38 => some (.AF, fun p => .memFill (u16 p 1) (u16 p 3) (u8 p 5))
  | 0x39 => some (.A3, fun p => .memCopy (u16 p 1) (u16 p 3) (u16 p 5))
  | 0x40 => some (.B, fun p => .txtMode (u8 p 1))
  | 0x41 => some (.P, fun p => .txtLoc (u16 p 1) (u16 p 3))
  | 0x42 => some (.B, fun p => .txtByte (u8 p 1))
  | 0x43 => some (.A2, fun p => .txtBytes (u16 p 1) (u16 p 3))
  | 0x44 => some (.H, fun p => .txtRender (u16 p 1))
  | _ => none

/-- `L(op)`: the packet length of a legal opcode (R91). -/
def packetLength (op : Byte) : Option Nat := (opcodeRow op).map fun row => row.1.length

/-- Why a list of bytes is no command. Each but `empty`, which the port never delivers (R80), is `E_OPCODE` (R241). -/
inductive DecodeError where
  /-- No byte at all. -/
  | empty
  /-- The opcode is not in the map of R85 (R89). -/
  | illegalOpcode (op : Byte)
  /-- The opcode is legal and the packet's length is not `L(op)` (R91). -/
  | wrongLength (op : Byte) (len : Nat)
deriving DecidableEq, Repr

/-- The decoder: opcode, then length, and only then the operands (R81, R91). Reserved operand values are decoded as
they stand; the command's own rule refuses them (R90; log 18). -/
def decode (p : List Byte) : Except DecodeError Instr :=
  match p with
  | [] => .error .empty
  | op :: _ =>
    match opcodeRow op with
    | none => .error (.illegalOpcode op)
    | some row => if p.length = row.1.length then .ok (row.2 p) else .error (.wrongLength op p.length)

/-- The two bytes of a `u16` or `s16` operand, low byte first (R84). -/
def bytes16 (v : Half) : List Byte := [v.extractLsb' 0 8, v.extractLsb' 8 8]

/-- The three bytes of a `u24` operand, low byte first (R84). -/
def bytes24 (v : Addr24) : List Byte := [v.extractLsb' 0 8, v.extractLsb' 8 8, v.extractLsb' 16 8]

/-- The packet of a command: opcode (R85), then its operands in the order of its format (R82). -/
def encode : Instr → List Byte
  | .reset => [0x01]
  | .setTarget t => [0x02, t]
  | .drawData x y w h addr flags =>
    0x10 :: (bytes16 x ++ bytes16 y ++ bytes16 w ++ bytes16 h ++ bytes24 addr ++ [flags])
  | .saveData x y w h addr => 0x11 :: (bytes16 x ++ bytes16 y ++ bytes16 w ++ bytes16 h ++ bytes16 addr)
  | .render => [0x12]
  | .drawPoint x y sm => 0x20 :: (bytes16 x ++ bytes16 y ++ [sm])
  | .drawLine x0 y0 x1 y1 sm => 0x21 :: (bytes16 x0 ++ bytes16 y0 ++ bytes16 x1 ++ bytes16 y1 ++ [sm])
  | .drawRect x0 y0 x1 y1 sm => 0x22 :: (bytes16 x0 ++ bytes16 y0 ++ bytes16 x1 ++ bytes16 y1 ++ [sm])
  | .drawOval cx cy rx ry sm => 0x23 :: (bytes16 cx ++ bytes16 cy ++ bytes16 rx ++ bytes16 ry ++ [sm])
  | .testPoint x y => 0x24 :: (bytes16 x ++ bytes16 y)
  | .scroll dir => [0x30, dir]
  | .mirror dir => [0x31, dir]
  | .memFill addr count value => 0x38 :: (bytes16 addr ++ bytes16 count ++ [value])
  | .memCopy dest src count => 0x39 :: (bytes16 dest ++ bytes16 src ++ bytes16 count)
  | .txtMode m => [0x40, m]
  | .txtLoc row col => 0x41 :: (bytes16 row ++ bytes16 col)
  | .txtByte b => [0x42, b]
  | .txtBytes addr count => 0x43 :: (bytes16 addr ++ bytes16 count)
  | .txtRender mask => 0x44 :: bytes16 mask

/-- How many bytes of a command list the packet takes that starts with `op`: `L(op)`, and 1 for an illegal opcode
(R93). -/
def cutLength (op : Byte) : Nat := (packetLength op).getD 1

/-- The packets of a command list, by the number of bytes still to cut (R93). -/
def cutFuel : Nat → List Byte → List (List Byte)
  | 0, _ => []
  | _ + 1, [] => []
  | n + 1, op :: rest => (op :: rest).take (cutLength op) :: cutFuel n ((op :: rest).drop (cutLength op))

/-- A command list cut into packets from its bytes alone; a list that ends inside a packet delivers the short rest as
one packet (R93). -/
def cutPackets (bytes : List Byte) : List (List Byte) := cutFuel bytes.length bytes

/-- The `n` low bytes of a number, the lowest first. -/
def numberBytes (w n : Nat) : List Byte := (List.range n).map fun i => BitVec.ofNat 8 (w / 256 ^ i)

/-- The packet that the low `nbits` bits of `w` are, every bit above them 0, cut by its own opcode (R93). -/
def tablePacket (nbits w : Nat) : List Byte :=
  numberBytes (w % 2 ^ nbits) (cutLength (BitVec.ofNat 8 (w % 2 ^ nbits)))

/-- The instruction the decoder reads from a row's bits, bit 0 the lowest bit of the packet's first byte. -/
def decodeTableWord (nbits w : Nat) : Option Instr := (decode (tablePacket nbits w)).toOption

end Sys2Proof
end

