-- ==== Sys2Proof/Config.lean ====
section
/-! DEFINITION. What an implementation fixes (the open parameters of spec 00_scope.md R10) and the values the spec leaves
open (opaque constants: nothing in Lean can evaluate them). -/

namespace Sys2Proof

/-- The configuration record of R10, with the defaults of R10. `RAM_INIT` is not here: it is the argument of
`State.powerOn`. -/
structure Params where
  /-- `GRAPH_BASE`, first byte of the graphics bitmap (R24). -/
  graphBase : Nat := 0x0000
  /-- `BUF_BASE`, first byte of the buffer bitmap (R24). -/
  bufBase : Nat := 0x0640
  /-- `TEXT_BASE`, first byte of the text grid segment (R25). -/
  textBase : Nat := 0x0C80
  /-- `TEXT_LEN`, length of the text grid segment (R25). -/
  textLen : Nat := 156
  /-- `BLANK`, the code of an empty cell (R204). -/
  blank : Byte := 0x20
  /-- `FONT`, as far as it is given: the listed bytes of the font ROM (R28). A byte not listed is the free value
  `Config.fontRom` (log 4: R10 gives `FONT` no default). -/
  font : List Host.Cell := []
  /-- `N_A`, glyphs in each ASCII blob (R201). -/
  nA : Nat := 128
  /-- `N_G`, glyphs in each GB2312 blob (R201). -/
  nG : Nat := 8836
  /-- `HMIRROR_LIVE` (R129). -/
  hmirrorLive : Bool := false
  /-- `SAVE_TRUNC_HEIGHT` (R133). -/
  saveTruncHeight : Bool := true
  /-- `ROWMASK_TOP` (R222). -/
  rowmaskTop : Nat := 8
  /-- `RESET_CLEARS_RAM` (R272). -/
  resetClearsRam : Bool := false
deriving DecidableEq, Repr

/-- The defaults of R10 (log 14: `State.reset` has them). -/
def Params.default : Params := {}

/-- Two ranges `[a, a+n)` and `[b, b+k)` have no address in common. -/
abbrev apart (a n b k : Nat) : Prop := a + n ≤ b ∨ b + k ≤ a

/-- R10's constraint: the three segments lie inside RAM, are pairwise disjoint, and `TEXT_LEN >= 156`. -/
abbrev Params.Valid (c : Params) : Prop :=
  c.graphBase + 1600 ≤ 65536 ∧ c.bufBase + 1600 ≤ 65536 ∧ c.textBase + c.textLen ≤ 65536 ∧ 156 ≤ c.textLen ∧
  apart c.graphBase 1600 c.bufBase 1600 ∧ apart c.graphBase 1600 c.textBase c.textLen ∧
  apart c.bufBase 1600 c.textBase c.textLen

/-- FREE VALUE (DESIGN CHOICE, log 4): the byte of the font ROM at an address the configuration does not list. R28: the
contents are not in the source. Safe. -/
opaque Config.fontRom : Nat → Byte

/-- FREE VALUE (DESIGN CHOICE, log 5): the byte the `n`-th unspecified overlap of R275 leaves at an address. Safe. -/
opaque Config.freeByte : Nat → Nat → Byte

/-- FREE VALUE (DESIGN CHOICE, log 5 and 7): the cursor row the `n`-th unspecified overlap of R275 leaves, before it is
brought inside the grid. Safe. -/
opaque Config.freeRow : Nat → Nat

/-- FREE VALUE (DESIGN CHOICE, log 5 and 7): the cursor column the `n`-th unspecified overlap of R275 leaves, before it is
brought inside the grid. Safe. -/
opaque Config.freeCol : Nat → Nat

/-- FREE VALUE (DESIGN CHOICE, log 10): whether a text row that has no bit in the row mask, its number being above
`ROWMASK_TOP`, is skipped. Safe. -/
opaque Config.noMaskBit (rowmaskTop : Nat) (mask : Half) (row : Nat) : Bool

end Sys2Proof
end

