-- ==== Sys2Proof/Machine/Memory.lean ====
section
/-! DEFINITION. RAM as a list of cells in one canonical form, and the memory primitives of spec 20_memory.md: byte access,
`MemRead` and `MemWrite` (R52, R53), the typed accessors (R54), `Fill` (R57), `Copy` (R58) and segments (R59). -/

namespace Sys2Proof.Machine

/-- RAM (R22): the bytes that differ from 0x00, by address. -/
abbrev Memory := List Host.Cell

/-- What an unlisted address reads as. Where the spec gives no contents (RAM at power-on outside the segments, R271) this
is a DESIGN CHOICE, unsafe (log 3). -/
def Memory.unlisted : Byte := 0x00

/-- RAM with nothing listed. -/
def Memory.empty : Memory := []

/-- The cells are strictly rising from `lo`, lie inside RAM and none holds what an unlisted address reads as. -/
def Memory.wfFrom : Nat → Memory → Bool
  | _, [] => true
  | lo, (a, v) :: m => decide (lo ≤ a) && decide (a < 65536) && (v != Memory.unlisted) && Memory.wfFrom (a + 1) m

/-- The canonical form of RAM: equal memories are equal lists. -/
def Memory.wf (m : Memory) : Bool := Memory.wfFrom 0 m

/-- `Mem[a]` (R13). -/
def Memory.byteAt : Memory → Nat → Byte
  | [], _ => Memory.unlisted
  | (b, v) :: m, a => if a = b then v else if a < b then Memory.unlisted else Memory.byteAt m a

/-- The cells below the address `a`. -/
def Memory.below (a : Nat) : Memory → Memory
  | [] => []
  | (b, v) :: m => if b < a then (b, v) :: Memory.below a m else []

/-- The cells from the address `a` on. -/
def Memory.above (a : Nat) : Memory → Memory
  | [] => []
  | (b, v) :: m => if b < a then Memory.above a m else (b, v) :: m

/-- The cells of the bytes `vs` at `a`, `a + 1`, …: none for a byte that an unlisted address reads as, and none at 65536
or above, where there is no RAM. -/
def Memory.cellsAt (a : Nat) : List Byte → Memory
  | [] => []
  | v :: vs =>
    if 65536 ≤ a then [] else if v = Memory.unlisted then Memory.cellsAt (a + 1) vs else (a, v) :: Memory.cellsAt (a + 1) vs

/-- The bytes `vs` stored at `a`, `a + 1`, … (distinct addresses, so their order cannot be seen), canonical form kept. There
is no byte at 65536 or above: a store there stores nothing, and no primitive makes one (R52, R53; log 11). -/
def Memory.storeBytes (m : Memory) (a : Nat) (vs : List Byte) : Memory :=
  Memory.below a m ++ (Memory.cellsAt a vs ++ Memory.above (a + vs.length) m)

/-- `Mem[a] <- v` (R13). -/
def Memory.setByte (m : Memory) (a : Nat) (v : Byte) : Memory := m.storeBytes a [v]

/-- The `n` bytes at `a`, `a + 1`, …. -/
def Memory.loadBytes (m : Memory) (a n : Nat) : List Byte := (List.range n).map fun i => m.byteAt (a + i)

/-- An access outside its address space, with the address it reports (R52). It is `E_ADDR` (R240). -/
structure AddressFault where
  /-- The reported address. -/
  addr : Nat
deriving DecidableEq, Repr

/-- The widths of a host access, 1 to 4 bytes (R52). -/
inductive Width where
  | w8 | w16 | w24 | w32
deriving DecidableEq, Repr

/-- The number of bytes of a width. -/
def Width.bytes : Width → Nat
  | .w8 => 1
  | .w16 => 2
  | .w24 => 3
  | .w32 => 4

/-- The little-endian number of a list of bytes (R50). -/
def littleEndian : List Byte → Nat
  | [] => 0
  | b :: bs => b.toNat + 256 * littleEndian bs

/-- The `n` bytes of `v mod 256^n`, the least significant first (R53). -/
def littleEndianBytes : Nat → Int → List Byte
  | 0, _ => []
  | n + 1, v => BitVec.ofInt 8 v :: littleEndianBytes n (v / 256)

/-- `MemRead(addr, n)` (R52). -/
def Memory.memRead (m : Memory) (addr : Nat) (w : Width) : Except AddressFault Nat :=
  if addr + w.bytes > 65536 then .error { addr } else .ok (littleEndian (m.loadBytes addr w.bytes))

/-- `MemWrite(addr, n, v)` (R53): a value outside the range is reduced `mod 256^n`. -/
def Memory.memWrite (m : Memory) (addr : Nat) (w : Width) (v : Int) : Except AddressFault Memory :=
  if addr + w.bytes > 65536 then .error { addr } else .ok (m.storeBytes addr (littleEndianBytes w.bytes v))

/-- `sext_N(v)` (R12). -/
def signExtend (bits v : Nat) : Int := (BitVec.ofNat bits v).toInt

/-- `getUint8` (R54). -/
def Memory.getUint8 (m : Memory) (a : Nat) : Except AddressFault Nat := m.memRead a .w8
/-- `getUint16` (R54). -/
def Memory.getUint16 (m : Memory) (a : Nat) : Except AddressFault Nat := m.memRead a .w16
/-- `getInt16` (R54). -/
def Memory.getInt16 (m : Memory) (a : Nat) : Except AddressFault Int := (m.memRead a .w16).map (signExtend 16)
/-- `getUint24` (R54). -/
def Memory.getUint24 (m : Memory) (a : Nat) : Except AddressFault Nat := m.memRead a .w24
/-- `getInt32` (R54). -/
def Memory.getInt32 (m : Memory) (a : Nat) : Except AddressFault Int := (m.memRead a .w32).map (signExtend 32)
/-- `setUint8` (R54). -/
def Memory.setUint8 (m : Memory) (a : Nat) (v : Int) : Except AddressFault Memory := m.memWrite a .w8 v
/-- `setUint16` and `setInt16` (R54). -/
def Memory.setInt16 (m : Memory) (a : Nat) (v : Int) : Except AddressFault Memory := m.memWrite a .w16 v
/-- `setUint24` (R54). -/
def Memory.setUint24 (m : Memory) (a : Nat) (v : Int) : Except AddressFault Memory := m.memWrite a .w24 v
/-- `setInt32` (R54). -/
def Memory.setInt32 (m : Memory) (a : Nat) (v : Int) : Except AddressFault Memory := m.memWrite a .w32 v

/-- `Fill(addr, count, value)` (R57). -/
def Memory.fill (m : Memory) (addr count : Nat) (value : Byte) : Except AddressFault Memory :=
  if count = 0 then .ok m
  else if addr + count > 65536 then .error { addr }
  else .ok (m.storeBytes addr (List.replicate count value))

/-- `Copy(dest, src, count)` (R58): source range checked first; then every `Mem[dest+i]` takes the value `Mem[src+i]` had
before the copy, whether or not the ranges overlap. -/
def Memory.copy (m : Memory) (dest src count : Nat) : Except AddressFault Memory :=
  if count = 0 then .ok m
  else if src + count > 65536 then .error { addr := src }
  else if dest + count > 65536 then .error { addr := dest }
  else .ok (m.storeBytes dest (m.loadBytes src count))

/-- `Mem[dest+i] <- Mem[src+i]` for `i = 0, 1, …, n-1` in that order (R58). -/
def Memory.copyUp : Nat → Memory → Nat → Nat → Memory
  | 0, m, _, _ => m
  | n + 1, m, dest, src => Memory.copyUp n (m.setByte dest (m.byteAt src)) (dest + 1) (src + 1)

/-- `Mem[dest+i] <- Mem[src+i]` for `i = n-1, …, 1, 0` in that order (R58). -/
def Memory.copyDown : Nat → Memory → Nat → Nat → Memory
  | 0, m, _, _ => m
  | n + 1, m, dest, src => Memory.copyDown n (m.setByte (dest + n) (m.byteAt (src + n))) dest src

/-- The element-wise copy in the order R58 gives: forward when `dest <= src`, backward otherwise. `Memory.copy` leaves the
same bytes. -/
def Memory.copyByElements (m : Memory) (dest src count : Nat) : Memory :=
  if dest ≤ src then Memory.copyUp count m dest src else Memory.copyDown count m dest src

/-- A segment: a view of RAM that holds no bytes of its own (R23). -/
structure Segment where
  /-- The RAM address of the segment's byte 0. -/
  base : Nat
  /-- How many bytes the segment has. -/
  length : Nat
deriving DecidableEq, Repr

/-- A read at offset `i` of a segment, allowed only inside its length (R59). -/
def Segment.read (g : Segment) (m : Memory) (i : Nat) (w : Width) : Except AddressFault Nat :=
  if i + w.bytes > g.length then .error { addr := g.base + i } else m.memRead (g.base + i) w

/-- A write at offset `i` of a segment, allowed only inside its length (R59). -/
def Segment.write (g : Segment) (m : Memory) (i : Nat) (w : Width) (v : Int) : Except AddressFault Memory :=
  if i + w.bytes > g.length then .error { addr := g.base + i } else m.memWrite (g.base + i) w v

/-- `fill` inside a segment (R59). -/
def Segment.fill (g : Segment) (m : Memory) (i count : Nat) (value : Byte) : Except AddressFault Memory :=
  if count = 0 then .ok m
  else if i + count > g.length then .error { addr := g.base + i }
  else m.fill (g.base + i) count value

/-- `copy` inside a segment (R59), the source range checked first as in R58. -/
def Segment.copy (g : Segment) (m : Memory) (dest src count : Nat) : Except AddressFault Memory :=
  if count = 0 then .ok m
  else if src + count > g.length then .error { addr := g.base + src }
  else if dest + count > g.length then .error { addr := g.base + dest }
  else m.copy (g.base + dest) (g.base + src) count

/-- `zero()`: the whole segment filled with 0 (R59). -/
def Segment.zero (g : Segment) (m : Memory) : Except AddressFault Memory := m.fill g.base g.length 0x00

/-- The graphics bitmap as a segment (R24). -/
def graphicsSegment (c : Params) : Segment := { base := c.graphBase, length := 1600 }
/-- The buffer bitmap as a segment (R24). -/
def bufferSegment (c : Params) : Segment := { base := c.bufBase, length := 1600 }
/-- The text grid as a segment (R25). -/
def textSegment (c : Params) : Segment := { base := c.textBase, length := c.textLen }

/-- The text segment filled with `BLANK` (R37, R213). -/
def blankText (c : Params) (m : Memory) : Memory := m.storeBytes c.textBase (List.replicate c.textLen c.blank)

/-- What a reset does to the three segments: bitmaps clear, text grid blank (R37, R110). -/
def initSegments (c : Params) (m : Memory) : Memory :=
  blankText c ((m.storeBytes c.graphBase (List.replicate 1600 0x00)).storeBytes c.bufBase (List.replicate 1600 0x00))

end Sys2Proof.Machine
end

