-- ==== Sys2Proof/Machine/State.lean ====
section
/-! DEFINITION. The machine's state: the seven registers (spec 10_state.md R26), RAM (R22), the configuration record
(00_scope.md R10) and the model's own two fields; the reasons a step can stop; the state after reset (R37). -/

namespace Sys2Proof.Machine

/-- What the host can do to the machine between commands (20_memory.md R65, R68; 30_encoding.md R80). -/
inductive HostAction where
  /-- Deliver one packet: its first byte and the bytes after it. A packet has at least one byte (R80). -/
  | packet (opcode : Byte) (operands : List Byte)
  /-- Write RAM, by `MemWrite` (R53, R68). -/
  | write (addr : Nat) (width : Width) (value : Int)
  /-- Read RAM, by `MemRead` (R52, R68). What the host gets is `Memory.memRead` of the state; the step is there for the
  read that does not fit in RAM, which is a fault (R52, R240). -/
  | read (addr : Nat) (width : Width)
deriving DecidableEq, Repr

/-- The state of the GTE. -/
structure State where
  /-- Register 0, `STATUS` (R27): 0 running, else the code of the fault that stopped the engine. -/
  status : BitVec 8
  /-- Register 1, `FAULTINFO` (R29). -/
  faultInfo : BitVec 32
  /-- Register 2, `RESULT` (R30). -/
  result : BitVec 32
  /-- Register 3, `TARGET` (R31): 0 graphics, 1 buffer. -/
  target : BitVec 1
  /-- Register 4, `TXTMODE` (R32): 0 large font, 1 small font. -/
  txtMode : BitVec 1
  /-- Register 5, `CURROW` (R33). -/
  curRow : BitVec 3
  /-- Register 6, `CURCOL` (R33). -/
  curCol : BitVec 5
  /-- RAM (R22). -/
  ram : Memory
  /-- The configuration record and the font ROM (R10, R38): no step changes it (log 1). -/
  cfg : Params
  /-- The MODEL's own field: what the host does next, in order (log 2). -/
  inbox : List HostAction
  /-- The MODEL's own field: how many free values have been drawn (log 8). -/
  draws : Nat
deriving DecidableEq, Repr

/-- Why the machine stops. Nothing stops it: every fault of R240, the `AddressFault` of a host access among them, is a
next state (R243, R252; log 9), so that this type has no constructor. -/
inductive Fault where
deriving DecidableEq, Repr

/-- Why an instruction has no meaning. -/
inductive Refusal where
  /-- Raised by an arm of `exec` for an instruction that has no meaning yet. No arm does. Safe. -/
  | notModelled (mnemonic : String)
deriving DecidableEq, Repr

/-- What one step answers. -/
abbrev StepOutcome := Host.Outcome State Fault Refusal

/-- The state after power-on with the parameters `c` and the power-on contents `ramInit` of RAM (R37, R270, R271). -/
def State.powerOn (c : Params) (ramInit : Memory) : State where
  status := 0
  faultInfo := 0
  result := 0
  target := 0
  txtMode := 0
  curRow := 0
  curCol := 0
  ram := initSegments c ramInit
  cfg := c
  inbox := []
  draws := 0

/-- The state after reset: power-on with the default parameters (log 14) and RAM outside the segments reading 0x00
(DESIGN CHOICE, unsafe, log 3: `RAM_INIT` is unspecified, R271). Nothing is in the inbox (log 2). -/
def State.reset : State := State.powerOn Params.default Memory.empty

end Sys2Proof.Machine
end

