-- ==== Sys2Proof/Machine/Flags.lean ====
section
/-! DEFINITION. The GTE has no condition flags (spec 10_state.md R35): no command computes one. What this file holds are the
sub-fields of the operand bytes: the `flags` byte of `DRAWDATA` (30_encoding.md R86) with the combine function (41_blit.md
R124), and the shape-mode byte `sm` (R87) with the draw-mode function (42_shapes.md R150). -/

namespace Sys2Proof.Machine

/-- The five combine modes of a blit (R86, R124). -/
inductive BlitMode where
  | copy | not | or | and | xor
deriving DecidableEq, Repr

/-- `flags[2:0]` as a mode; 0, 6 and 7 are reserved (R86). -/
def BlitMode.ofFlags (flags : Byte) : Option BlitMode :=
  match flags.toNat % 8 with
  | 1 => some .copy
  | 2 => some .not
  | 3 => some .or
  | 4 => some .and
  | 5 => some .xor
  | _ => none

/-- `Combine(mode, d, s)` on one bit (R124). -/
def BlitMode.combine (mode : BlitMode) (d s : Bool) : Bool :=
  match mode with
  | .copy => s
  | .not => !s
  | .or => d || s
  | .and => d && s
  | .xor => d ^^ s

/-- The same table on a byte, bit by bit (R124, R126). -/
def BlitMode.combineByte (mode : BlitMode) (old s : Byte) : Byte :=
  match mode with
  | .copy => s
  | .not => s ^^^ 0xFF
  | .or => old ||| s
  | .and => old &&& s
  | .xor => old ^^^ s

/-- The address space a blit reads: RAM, the font ROM, or the engine-internal all-zero space `Z` (R123). -/
inductive Space where
  | ram | font | zero
deriving DecidableEq, Repr

/-- The `flags` byte of `DRAWDATA` taken apart (R86). -/
structure BlitFlags where
  /-- `flags[2:0]`. -/
  mode : BlitMode
  /-- `flags[3]`: invert the source bits first. -/
  inv : Bool
  /-- `flags[4]`: the space of the source block. -/
  space : Space
  /-- `flags[5]`: the horizontal-mirror flag. -/
  hm : Bool
deriving DecidableEq, Repr

/-- The `flags` byte read, or nothing where it holds a reserved mode or a reserved bit (R86, R90). -/
def readFlags (flags : Byte) : Option BlitFlags :=
  match BlitMode.ofFlags flags with
  | none => none
  | some mode =>
    if flags.getLsbD 6 || flags.getLsbD 7 then none
    else some { mode, inv := flags.getLsbD 3, space := if flags.getLsbD 4 then .font else .ram, hm := flags.getLsbD 5 }

/-- The three draw modes of a shape (R87, R150). -/
inductive DrawMode where
  | clear | normal | invert
deriving DecidableEq, Repr

/-- `sm[1:0]` as a draw mode; 3 is reserved (R87). -/
def DrawMode.ofByte (sm : Byte) : Option DrawMode :=
  match sm.toNat % 4 with
  | 0 => some .clear
  | 1 => some .normal
  | 2 => some .invert
  | _ => none

/-- `Apply(dm, d)` (R150). -/
def DrawMode.apply (dm : DrawMode) (d : Bool) : Bool :=
  match dm with
  | .clear => false
  | .normal => true
  | .invert => !d

/-- The `sm` byte of `DRAWPOINT` and `DRAWLINE`: bits 7 to 2 must be 0 (R87). -/
def readPlainMode (sm : Byte) : Option DrawMode := if sm.toNat / 4 = 0 then DrawMode.ofByte sm else none

/-- The `sm` byte of `DRAWRECT` and `DRAWOVAL`, with the fill bit: bits 7 to 3 must be 0 (R87). -/
def readFillMode (sm : Byte) : Option (DrawMode × Bool) :=
  if sm.toNat / 8 = 0 then (DrawMode.ofByte sm).map fun dm => (dm, sm.getLsbD 2) else none

/-- The three faults (R240). -/
inductive FaultCode where
  /-- `E_OPCODE` (R241). -/
  | eOpcode
  /-- `E_OPERAND` (R242). -/
  | eOperand
  /-- `E_ADDR` (R244). -/
  | eAddr
deriving DecidableEq, Repr

/-- The value of `STATUS` for each fault (R240). -/
def FaultCode.code : FaultCode → BitVec 8
  | .eOpcode => 1
  | .eOperand => 2
  | .eAddr => 3

end Sys2Proof.Machine
end

