-- ==== Sys2Proof/Machine/Operands.lean ====
section
/-! DEFINITION. Operands read as numbers (spec 30_encoding.md R83, R84, R88) and the grid geometry the text operands are held
against (45_text.md R205, R206). -/

namespace Sys2Proof.Machine

/-- An `s16` operand as a mathematical integer (R84). -/
def s16 (v : Half) : Int := v.toInt

/-- A one-byte selector: bit 0 where the value is 0 or 1, nothing where it is reserved (R88, R90). -/
def readSelector (v : Byte) : Option (BitVec 1) := if v.toNat ≤ 1 then some (v.setWidth 1) else none

/-- `COLS` of a text mode: 20 large, 26 small (R205). -/
def colsOf (mode : BitVec 1) : Nat := if mode = 0 then 20 else 26

/-- `ROWS` of a text mode: 5 large, 6 small (R205). -/
def rowsOf (mode : BitVec 1) : Nat := if mode = 0 then 5 else 6

/-- `COLS` of the current mode (R205). -/
def State.cols (s : State) : Nat := colsOf s.txtMode

/-- `ROWS` of the current mode (R205). -/
def State.rows (s : State) : Nat := rowsOf s.txtMode

/-- `Cell(r, c)` (R206). -/
def State.cell (s : State) (r c : Nat) : Nat := s.cfg.textBase + r * s.cols + c

/-- `min(max(v, 0), n - 1)` (R214), for `n >= 1`. -/
def clampBelow (v : Int) (n : Nat) : Nat := min v.toNat (n - 1)

end Sys2Proof.Machine
end

