-- ==== Sys2Proof/Machine/Ops.lean ====
section
/-! DEFINITION. The shared operations: fault entry (spec 60_exceptions.md R243) and the reset that leaves the FAULTED state (R247,
40_control.md R110); register updates; pixels (41_blit.md R120 to R122); the rewriting of a rectangle of pixels that blits
(R125) and shapes (42_shapes.md R151) have in common; the free values of an unspecified overlap (70_reset_and_hazards.md
R275). -/

namespace Sys2Proof.Machine

/-! ### Registers and RAM -/

/-- RAM replaced. -/
def State.setRam (s : State) (m : Memory) : State := { s with ram := m }

/-- `TARGET <- t` (R111). -/
def State.setTarget (s : State) (t : BitVec 1) : State := { s with target := t }

/-- `RESULT <- v` (R160). -/
def State.setResult (s : State) (v : BitVec 32) : State := { s with result := v }

/-- `CURROW <- r; CURCOL <- c` (R33). -/
def State.setCursor (s : State) (r c : Nat) : State := { s with curRow := BitVec.ofNat 3 r, curCol := BitVec.ofNat 5 c }

/-- `TXTMODE <- m` (R213). -/
def State.setTxtMode (s : State) (m : BitVec 1) : State := { s with txtMode := m }

/-- One more free value has been drawn (log 8). -/
def State.countDraw (s : State) : State := { s with draws := s.draws + 1 }

/-- The host's next action is taken from the inbox (log 2). -/
def State.setInbox (s : State) (rest : List HostAction) : State := { s with inbox := rest }

/-! ### Fault entry and the way out of it -/

/-- `raise <Fault>(info)` (R243): all checks of a command come before its first write (R245), so that nothing is to be undone;
`STATUS` and `FAULTINFO` record the fault and control returns to the host. -/
def State.raise (s : State) (f : FaultCode) (info : Nat) : State :=
  { s with status := f.code, faultInfo := BitVec.ofNat 32 info }

/-- A command that ends in a fault: a NEXT state (R243, R252). -/
def raiseFault (f : FaultCode) (info : Nat) (s : State) : StepOutcome := .next (s.raise f info)

/-- A command whose memory primitive may raise `AddressFault(a)`, which is `E_ADDR` with `FAULTINFO = a` (R240). -/
def withAddressFault (s : State) (r : Except AddressFault Memory) : StepOutcome :=
  match r with
  | .ok m => .next (s.setRam m)
  | .error f => raiseFault .eAddr f.addr s

/-- The effect of `RESET`, the only way out of the FAULTED state but for power-on (R110, R247). -/
def State.resetByCommand (s : State) : State where
  status := 0
  faultInfo := 0
  result := 0
  target := 0
  txtMode := 0
  curRow := 0
  curCol := 0
  ram := initSegments s.cfg (if s.cfg.resetClearsRam then Memory.empty else s.ram)
  cfg := s.cfg
  inbox := s.inbox
  draws := s.draws

/-! ### Pixels -/

/-- `PxAddr(B, px, py)` (R120). -/
def pxAddr (B px py : Nat) : Nat := B + 20 * py + px / 8

/-- `PxBit(px)` (R120): the leftmost of eight pixels is bit 7 (R51). -/
def pxBit (px : Nat) : Nat := 7 - px % 8

/-- `Px(B, px, py)` (R121). -/
def Memory.px (m : Memory) (B px py : Nat) : Bool := (m.byteAt (pxAddr B px py)).getLsbD (pxBit px)

/-- `SetPx(B, px, py, v)` (R121). -/
def Memory.setPx (m : Memory) (B px py : Nat) (v : Bool) : Memory :=
  let bit : Byte := 1 <<< pxBit px
  m.setByte (pxAddr B px py) ((m.byteAt (pxAddr B px py) &&& ~~~bit) ||| (if v then bit else 0))

/-- `TB`, the base of the current target (R122). -/
def State.targetBase (s : State) : Nat := if s.target = 0 then s.cfg.graphBase else s.cfg.bufBase

/-- The byte whose eight pixels, left to right, are `f 0`, …, `f 7` (R51). -/
def packPixels (f : Nat → Bool) : Byte := BitVec.ofFnLE fun i : Fin 8 => f (7 - i.val)

/-- A byte of a bitmap row whose leftmost pixel is column `px0`, each pixel `px` of old value `d` replaced by `f px d`. -/
def mapByte (f : Nat → Bool → Bool) (px0 : Nat) (b : Byte) : Byte :=
  packPixels fun j => f (px0 + j) (b.getLsbD (7 - j))

/-- A rectangle of pixels, the right column and the bottom row not in it. -/
structure Box where
  /-- First column. -/
  left : Int
  /-- First column to the right of it. -/
  right : Int
  /-- First row. -/
  top : Int
  /-- First row below it. -/
  bottom : Int
deriving DecidableEq, Repr

/-- The pixel lies in the rectangle. -/
def Box.has (b : Box) (px py : Int) : Bool :=
  decide (b.left ≤ px) && decide (px < b.right) && decide (b.top ≤ py) && decide (py < b.bottom)

/-- Byte `k` of bitmap row `py` with each pixel in columns `[x0, x1)` that lies in the rectangle replaced; a byte that
holds none of those columns is left as it is. -/
def Memory.boxByte (m : Memory) (B : Nat) (b : Box) (f : Nat → Nat → Bool → Bool) (x0 x1 py k : Nat) : Byte :=
  if x0 / 8 ≤ k ∧ k ≤ (x1 - 1) / 8 then
    mapByte (fun px d => if b.has px py then f px py d else d) (8 * k) (m.byteAt (B + 20 * py + k))
  else m.byteAt (B + 20 * py + k)

/-- Every pixel of the bitmap at `B` that lies in the rectangle replaced by `f px py` of its old value; pixels of the
rectangle outside the bitmap are dropped (R125, R130, R151). Only the visible rows are rewritten. -/
def Memory.mapBox (m : Memory) (B : Nat) (b : Box) (f : Nat → Nat → Bool → Bool) : Memory :=
  let x0 := (max 0 b.left).toNat
  let x1 := (min 160 b.right).toNat
  let y0 := (max 0 b.top).toNat
  let y1 := (min 80 b.bottom).toNat
  if x0 < x1 then
    m.storeBytes (B + 20 * y0)
      ((List.range (20 * (y1 - y0))).map fun i => m.boxByte B b f x0 x1 (y0 + i / 20) (i % 20))
  else m

/-- `PlotSet(B, S, dm)` for the set `S` of the points in `box` that satisfy `inS` (R151): each visible pixel of the set is
changed once. -/
def Memory.plotSet (m : Memory) (B : Nat) (box : Box) (inS : Int → Int → Bool) (dm : DrawMode) : Memory :=
  m.mapBox B box fun px py d => if inS px py then dm.apply d else d

/-- The rectangle of all pixels of a bitmap. -/
def Box.screen : Box := { left := 0, right := 160, top := 0, bottom := 80 }

/-! ### Unspecified overlaps -/

/-- The ranges `[a, a+n)` and `[b, b+k)` have an address in common (R275). -/
def rangesMeet (a n b k : Nat) : Bool := decide (max a b < min (a + n) (b + k))

/-- Each byte of `[a, a+n)` holds a value the spec leaves open: the `draw`-th free value (R275; log 5). -/
def Memory.freeRange (m : Memory) (draw a n : Nat) : Memory :=
  m.storeBytes a ((List.range n).map fun i => Config.freeByte draw (a + i))

end Sys2Proof.Machine
end

