-- ==== Sys2Proof/Machine/Font.lean ====
section
/-! DEFINITION. The font ROM (spec 10_state.md R28; 45_text.md R200 to R203) and the source spaces of a blit (00_scope.md R13,
41_blit.md R123). -/

namespace Sys2Proof.Machine

/-- `FONT_LEN` (R64, R201). -/
def fontLen (c : Params) : Nat := 28 * c.nA + 56 * c.nG

/-- `OFF_A16` (R201). -/
def offA16 (_ : Params) : Nat := 0
/-- `OFF_A12` (R201). -/
def offA12 (c : Params) : Nat := 16 * c.nA
/-- `OFF_G16` (R201). -/
def offG16 (c : Params) : Nat := 28 * c.nA
/-- `OFF_G12` (R201). -/
def offG12 (c : Params) : Nat := 28 * c.nA + 32 * c.nG

/-- The byte a font image lists for an address, if it lists one. -/
def listedByte : List Host.Cell → Nat → Option Byte
  | [], _ => none
  | (b, v) :: cells, a => if a = b then some v else listedByte cells a

/-- `Font[a]` (R13, R28): the configuration's byte; where it gives none, a free value (log 4). -/
def fontByte (c : Params) (a : Nat) : Byte := (listedByte c.font a).getD (Config.fontRom a)

/-- `Src(space, a)` (R13, R123). -/
def srcByte (c : Params) (m : Memory) (sp : Space) (a : Nat) : Byte :=
  match sp with
  | .ram => m.byteAt a
  | .font => fontByte c a
  | .zero => 0x00

/-- `GlyphOff1(m, b)` (R203). -/
def glyphOff1 (c : Params) (mode : BitVec 1) (b : Byte) : Option Nat :=
  if 0x80 ≤ b.toNat ∨ c.nA ≤ b.toNat then none
  else if mode = 0 then some (offA16 c + 16 * b.toNat)
  else some (offA12 c + 12 * b.toNat)

/-- The GB2312 index of a pair, row `b1 - 0xA1` and cell `b2 - 0xA1` of a 94 x 94 table (R203). -/
def gbIndex (b1 b2 : Byte) : Nat := (b1.toNat - 0xA1) * 94 + (b2.toNat - 0xA1)

/-- `GlyphOff2(m, b1, b2)` (R203). -/
def glyphOff2 (c : Params) (mode : BitVec 1) (b1 b2 : Byte) : Option Nat :=
  if b1.toNat < 0xA1 ∨ 0xFE < b1.toNat ∨ b2.toNat < 0xA1 ∨ 0xFE < b2.toNat then none
  else if c.nG ≤ gbIndex b1 b2 then none
  else if mode = 0 then some (offG16 c + 32 * gbIndex b1 b2)
  else some (offG12 c + 24 * gbIndex b1 b2)

end Sys2Proof.Machine
end

