-- ==== Sys2Proof/Machine/Blit.lean ====
section
/-! DEFINITION. Block transfer (spec 41_blit.md): the blit as a set of pixels (R123 to R125), the same blit as a byte datapath
(R126), and `DRAWDATA`, `SAVEDATA`, `RENDER` (R128, R132, R134). -/

namespace Sys2Proof.Machine

/-- `stride = (w + 7) div 8` (R123). -/
def strideOf (w : Nat) : Nat := (w + 7) / 8

/-- `SrcBit(sp, addr, w, r, c)` (R123), `rd` reading the source space. -/
def srcBit (rd : Nat → Byte) (addr w r c : Nat) : Bool :=
  (rd (addr + r * strideOf w + c / 8)).getLsbD (7 - c % 8)

/-- The operands of `Blit` that say what is drawn (R125). -/
structure BlitOp where
  /-- Destination column of the block's left column. -/
  x : Int
  /-- Destination row of the block's top row. -/
  y : Int
  /-- Width in pixels, at least 1. -/
  w : Nat
  /-- Height in pixels, at least 1. -/
  h : Nat
  /-- The space of the source block. -/
  space : Space
  /-- The address of the source block. -/
  addr : Nat
  /-- Combine mode. -/
  mode : BlitMode
  /-- Source bits inverted first. -/
  inv : Bool
  /-- The horizontal-mirror flag. -/
  hm : Bool
deriving DecidableEq, Repr

/-- The destination rectangle `[x, x+w) x [y, y+h)` (R125). -/
def BlitOp.box (b : BlitOp) : Box := { left := b.x, right := b.x + b.w, top := b.y, bottom := b.y + b.h }

/-- The source column of block column `c`: `c` itself, or its mirror image where the flag is live (R125, R129). -/
def BlitOp.column (b : BlitOp) (live : Bool) (c : Nat) : Nat := if b.hm && live then b.w - 1 - c else c

/-- The source bit, after the `inv` step, that lands on pixel `(px, py)` of the destination rectangle (R125). -/
def BlitOp.source (b : BlitOp) (c : Params) (m : Memory) (px py : Nat) : Bool :=
  srcBit (srcByte c m b.space) b.addr b.w (py - b.y).toNat (b.column c.hmirrorLive (px - b.x).toNat) ^^ b.inv

/-- `Blit(B, x, y, w, h, sp, addr, mode, inv, hm)` (R125): all source bits are the values before the command. -/
def Memory.blit (m : Memory) (c : Params) (B : Nat) (b : BlitOp) : Memory :=
  m.mapBox B b.box fun px py d => b.mode.combine d (b.source c m px py)

/-! ### The byte datapath (R126)

The same function as `Memory.blit` (R127), one destination byte at a time. -/

/-- `S[q]` of row `r`: the source row's bytes, 0 outside them; with the mirror flag live, the row with its `w` pixels
reversed (R126). -/
def BlitOp.rowByte (b : BlitOp) (c : Params) (m : Memory) (r : Nat) (q : Int) : Byte :=
  if 0 ≤ q ∧ q < strideOf b.w then
    if b.hm && c.hmirrorLive then
      packPixels fun j =>
        decide (8 * q.toNat + j < b.w) && srcBit (srcByte c m b.space) b.addr b.w r (b.w - 1 - (8 * q.toNat + j))
    else srcByte c m b.space (b.addr + r * strideOf b.w + q.toNat)
  else 0x00

/-- The mask `m` of destination byte `k` for the destination columns `[X0, X1)` (R126). -/
def edgeMask (X0 X1 k : Nat) : Byte :=
  (if k = X0 / 8 then 0xFF >>> (X0 % 8) else 0xFF) &&&
    (if k = (X1 - 1) / 8 then 0xFF <<< (7 - (X1 - 1) % 8) else 0xFF)

/-- The realigned source byte `s` of destination byte `k`, before the `inv` step (R126). -/
def BlitOp.shifted (b : BlitOp) (c : Params) (m : Memory) (r k : Nat) : Byte :=
  let sh := (b.x % 8).toNat
  let q := (k : Int) - b.x / 8
  (b.rowByte c m r (q - 1) <<< (8 - sh)) ||| (b.rowByte c m r q >>> sh)

/-- Destination byte `k` of the row that source row `r` lands on, from its old value (R126). -/
def BlitOp.newByte (b : BlitOp) (c : Params) (m : Memory) (X0 X1 r k : Nat) (old : Byte) : Byte :=
  let mask := edgeMask X0 X1 k
  let s := if b.inv then b.shifted c m r k ^^^ 0xFF else b.shifted c m r k
  (old &&& ~~~mask) ||| (b.mode.combineByte old s &&& mask)

/-- `rows` rows from source row `r` on, destination bytes `kF` to `kL` of each; every source byte is the value before
the command (R126). -/
def BlitOp.rowsFrom (b : BlitOp) (c : Params) (old : Memory) (B X0 X1 : Nat) : Nat → Nat → Memory → Memory
  | 0, _, m => m
  | rows + 1, r, m =>
    let A := B + 20 * (b.y + r).toNat + X0 / 8
    BlitOp.rowsFrom b c old B X0 X1 rows (r + 1)
      (m.storeBytes A ((List.range ((X1 - 1) / 8 + 1 - X0 / 8)).map fun j =>
        b.newByte c old X0 X1 r (X0 / 8 + j) (m.byteAt (A + j))))

/-- The shift-and-mask datapath (R126). -/
def Memory.blitBytes (m : Memory) (c : Params) (B : Nat) (b : BlitOp) : Memory :=
  let c0 := max 0 (-b.x)
  let c1 := min (b.w : Int) (160 - b.x)
  let r0 := max 0 (-b.y)
  let r1 := min (b.h : Int) (80 - b.y)
  if c0 < c1 ∧ r0 < r1 then b.rowsFrom c m B (b.x + c0).toNat (b.x + c1).toNat (r1 - r0).toNat r0.toNat m else m

/-! ### Commands -/

/-- The block a `DRAWDATA` packet names (R128); used where `w` and `h` are positive. -/
def blitOpOf (x y w h : Half) (addr : Addr24) (f : BlitFlags) : BlitOp :=
  { x := s16 x, y := s16 y, w := (s16 w).toNat, h := (s16 h).toNat, space := f.space, addr := addr.toNat,
    mode := f.mode, inv := f.inv, hm := f.hm }

/-- The number of bytes of a source block, `stride * h` (R123). -/
def BlitOp.size (b : BlitOp) : Nat := strideOf b.w * b.h

/-- The end of a source space (R131, R244). -/
def spaceLimit (c : Params) (sp : Space) : Nat :=
  match sp with
  | .font => fontLen c
  | _ => 65536

/-- The unspecified case of `DRAWDATA`: a RAM source that meets the target bitmap (R275). -/
def BlitOp.overlaps (b : BlitOp) (s : State) : Bool :=
  b.space == .ram && rangesMeet b.addr b.size s.targetBase 1600

/-- `DRAWDATA x, y, w, h, addr, flags` (R128). In the unspecified case of R275 every byte of the target bitmap is a free
value and the command ends without fault (log 5). -/
def execDrawData (x y w h : Half) (addr : Addr24) (flags : Byte) (s : State) : StepOutcome :=
  match readFlags flags with
  | none => raiseFault .eOperand flags.toNat s
  | some f =>
    let b := blitOpOf x y w h addr f
    if s16 w ≤ 0 ∨ s16 h ≤ 0 then .next s
    else if b.addr + b.size > spaceLimit s.cfg b.space then raiseFault .eAddr b.addr s
    else if b.overlaps s then .next ((s.setRam (s.ram.freeRange s.draws s.targetBase 1600)).countDraw)
    else .next (s.setRam (s.ram.blit s.cfg s.targetBase b))

/-- Bitmap byte `k` of row `py` as `SAVEDATA` reads it: 0x00 outside the bitmap (R132). -/
def savedByte (m : Memory) (B : Nat) (k py : Int) : Byte :=
  if 0 ≤ k ∧ k ≤ 19 ∧ 0 ≤ py ∧ py ≤ 79 then m.byteAt (B + 20 * py.toNat + k.toNat) else 0x00

/-- The bytes `out` of `SAVEDATA`: `ha` rows of `n` bytes from byte column `xa / 8` and row `y` (R132). -/
def savedBlock (m : Memory) (B : Nat) (x y : Int) (n ha : Nat) : List Byte :=
  (List.range (n * ha)).map fun (j : Nat) => savedByte m B (x / 8 + (j % n : Nat)) (y + (j / n : Nat))

/-- `wa div 8`, the bytes per output row of `SAVEDATA` (R132). -/
def savedWidth (w : Half) : Nat := (s16 w).toNat / 8

/-- `ha`, the rows `SAVEDATA` saves (R132, R133). -/
def savedHeight (c : Params) (h : Half) : Nat :=
  if c.saveTruncHeight then 8 * ((s16 h).toNat / 8) else (s16 h).toNat

/-- `SAVEDATA x, y, w, h, addr` (R132). In the unspecified case of R275 every byte of the destination range and of the
target bitmap is a free value and the command ends without fault (log 5). -/
def execSaveData (x y w h : Half) (addr : Half) (s : State) : StepOutcome :=
  let n := savedWidth w
  let ha := savedHeight s.cfg h
  if s16 w ≤ 0 ∨ s16 h ≤ 0 then .next s
  else if n = 0 ∨ ha = 0 then .next s
  else if addr.toNat + n * ha > 65536 then raiseFault .eAddr addr.toNat s
  else if rangesMeet addr.toNat (n * ha) s.targetBase 1600 then
    .next ((s.setRam ((s.ram.freeRange s.draws addr.toNat (n * ha)).freeRange s.draws s.targetBase 1600)).countDraw)
  else .next (s.setRam (s.ram.storeBytes addr.toNat (savedBlock s.ram s.targetBase (s16 x) (s16 y) n ha)))

/-- `RENDER` (R134). -/
def execRender (s : State) : StepOutcome :=
  .next (s.setRam (s.ram.storeBytes s.cfg.graphBase (s.ram.loadBytes s.cfg.bufBase 1600)))

end Sys2Proof.Machine
end

