-- ==== Sys2Proof/Machine/Control.lean ====
section
/-! DEFINITION. `RESET` and `SETTARGET` (spec 40_control.md R110, R111). -/

namespace Sys2Proof.Machine

/-- `RESET` (R110). -/
def execReset (s : State) : StepOutcome := .next s.resetByCommand

/-- `SETTARGET t` (R111). -/
def execSetTarget (t : Byte) (s : State) : StepOutcome :=
  match readSelector t with
  | none => raiseFault .eOperand t.toNat s
  | some v => .next (s.setTarget v)

end Sys2Proof.Machine
end

