-- ==== Sys2Proof/Machine/MemOps.lean ====
section
/-! DEFINITION. `MEMFILL` and `MEMCOPY` (spec 44_memops.md R190, R191), over `Fill` and `Copy` (20_memory.md R57, R58). -/

namespace Sys2Proof.Machine

/-- `MEMFILL addr, count, value` (R190). -/
def execMemFill (addr count : Half) (value : Byte) (s : State) : StepOutcome :=
  withAddressFault s (s.ram.fill addr.toNat count.toNat value)

/-- `MEMCOPY dest, src, count` (R191). -/
def execMemCopy (dest src count : Half) (s : State) : StepOutcome :=
  withAddressFault s (s.ram.copy dest.toNat src.toNat count.toNat)

end Sys2Proof.Machine
end

