-- ==== Sys2Proof/Machine/Shapes.lean ====
section
/-! DEFINITION. The shape rasteriser (spec 42_shapes.md): the pixel sets of points, lines, rectangles and ovals, and `DRAWPOINT`,
`DRAWLINE`, `DRAWRECT`, `DRAWOVAL`, `TESTPOINT`. All arithmetic is on unbounded integers (R161). -/

namespace Sys2Proof.Machine

/-- A shape whose mode byte has been read: its points are plotted on the target bitmap (R151). -/
def plotOnTarget (s : State) (box : Box) (inS : Int → Int → Bool) (dm : DrawMode) : StepOutcome :=
  .next (s.setRam (s.ram.plotSet s.targetBase box inS dm))

/-- The rectangle with the given opposite corners, both in it (R155). -/
def Box.corners (x0 y0 x1 y1 : Int) : Box :=
  { left := min x0 x1, right := max x0 x1 + 1, top := min y0 y1, bottom := max y0 y1 + 1 }

/-- `DRAWPOINT x, y, sm` (R152). -/
def execDrawPoint (x y : Half) (sm : Byte) (s : State) : StepOutcome :=
  match readPlainMode sm with
  | none => raiseFault .eOperand sm.toNat s
  | some dm =>
    plotOnTarget s (Box.corners (s16 x) (s16 y) (s16 x) (s16 y)) (fun px py => decide (px = s16 x ∧ py = s16 y)) dm

/-! ### Lines (R153) -/

/-- How far the minor coordinate has moved after `i` of `dmaj` steps of the major one: `(2*i*dmin + dmaj) div (2*dmaj)`
(R153). -/
def minorStep (dmaj dmin i : Int) : Int := (2 * i * dmin + dmaj) / (2 * dmaj)

/-- `LinePts(x0, y0, x1, y1)`, from the first end point to the second (R153). -/
def linePts (x0 y0 x1 y1 : Int) : List (Int × Int) :=
  let dx := (x1 - x0).natAbs
  let dy := (y1 - y0).natAbs
  let sx := (x1 - x0).sign
  let sy := (y1 - y0).sign
  if dx = 0 ∧ dy = 0 then [(x0, y0)]
  else if dy ≤ dx then (List.range (dx + 1)).map fun i => (x0 + sx * i, y0 + sy * minorStep dx dy i)
  else (List.range (dy + 1)).map fun i => (x0 + sx * minorStep dy dx i, y0 + sy * i)

/-- Whether a point is one of `LinePts`: the one step of the major coordinate that could reach it is tested (R153). -/
def onLine (x0 y0 x1 y1 px py : Int) : Bool :=
  let dx := (x1 - x0).natAbs
  let dy := (y1 - y0).natAbs
  let sx := (x1 - x0).sign
  let sy := (y1 - y0).sign
  if dx = 0 ∧ dy = 0 then decide (px = x0 ∧ py = y0)
  else if dy ≤ dx then
    let i := sx * (px - x0)
    decide (0 ≤ i ∧ i ≤ dx ∧ py = y0 + sy * minorStep dx dy i)
  else
    let i := sy * (py - y0)
    decide (0 ≤ i ∧ i ≤ dy ∧ px = x0 + sx * minorStep dy dx i)

/-- The incremental form of R153 for `n` points, the major coordinate being the first of each pair: error term `e`, major
step `sa`, minor step `sb`. -/
def bresenhamWalk (dmaj dmin sa sb : Int) : Nat → Int → Int → Int → List (Int × Int)
  | 0, _, _, _ => []
  | n + 1, e, a, b =>
    (a, b) ::
      if 0 ≤ e then bresenhamWalk dmaj dmin sa sb n (e - 2 * dmaj + 2 * dmin) (a + sa) (b + sb)
      else bresenhamWalk dmaj dmin sa sb n (e + 2 * dmin) (a + sa) b

/-- The points of the incremental form of R153, in the order it emits them. -/
def bresenhamPts (x0 y0 x1 y1 : Int) : List (Int × Int) :=
  let dx := (x1 - x0).natAbs
  let dy := (y1 - y0).natAbs
  let sx := (x1 - x0).sign
  let sy := (y1 - y0).sign
  if dy ≤ dx then bresenhamWalk dx dy sx sy (dx + 1) (2 * dy - dx) x0 y0
  else (bresenhamWalk dy dx sy sx (dy + 1) (2 * dx - dy) y0 x0).map fun p => (p.2, p.1)

/-- `DRAWLINE x0, y0, x1, y1, sm` (R154). -/
def execDrawLine (x0 y0 x1 y1 : Half) (sm : Byte) (s : State) : StepOutcome :=
  match readPlainMode sm with
  | none => raiseFault .eOperand sm.toNat s
  | some dm =>
    plotOnTarget s (Box.corners (s16 x0) (s16 y0) (s16 x1) (s16 y1)) (onLine (s16 x0) (s16 y0) (s16 x1) (s16 y1)) dm

/-! ### Rectangles (R155) -/

/-- `RectSet(x0, y0, x1, y1, fill)` (R155). -/
def inRect (x0 y0 x1 y1 : Int) (fill : Bool) (px py : Int) : Bool :=
  let xa := min x0 x1
  let xb := max x0 x1
  let ya := min y0 y1
  let yb := max y0 y1
  decide (xa ≤ px ∧ px ≤ xb ∧ ya ≤ py ∧ py ≤ yb) &&
    (fill || decide (px = xa ∨ px = xb ∨ py = ya ∨ py = yb))

/-- `DRAWRECT x0, y0, x1, y1, sm` (R156). -/
def execDrawRect (x0 y0 x1 y1 : Half) (sm : Byte) (s : State) : StepOutcome :=
  match readFillMode sm with
  | none => raiseFault .eOperand sm.toNat s
  | some (dm, fill) =>
    plotOnTarget s (Box.corners (s16 x0) (s16 y0) (s16 x1) (s16 y1))
      (inRect (s16 x0) (s16 y0) (s16 x1) (s16 y1) fill) dm

/-! ### Ovals (R157, R158) -/

/-- Pass 2 of `OvalQuad`, `y` the driving axis, from the point `(x, y)` down to `qy = 0` (R157). -/
def ovalPass2 (a2 b2 : Int) : Nat → Nat → Int → List (Nat × Nat)
  | 0, x, _ => [(x, 0)]
  | y + 1, x, d =>
    (x, y + 1) ::
      if 0 < d then ovalPass2 a2 b2 y x (d + 4 * a2 * (3 - 2 * (y + 1 : Int)))
      else ovalPass2 a2 b2 y (x + 1) (d + 8 * b2 * (x + 1 : Int) + 4 * a2 * (3 - 2 * (y + 1 : Int)))

/-- The decision variable pass 2 starts with at the point `(x, y)` (R157). -/
def ovalStart2 (a2 b2 x y : Int) : Int := b2 * (2 * x + 1) * (2 * x + 1) + 4 * a2 * (y - 1) * (y - 1) - 4 * a2 * b2

/-- Pass 1 of `OvalQuad`, `x` the driving axis, and pass 2 after it (R157). The pass ends by its own test; the first
argument only bounds the number of its steps, and `a * a + 1` is always enough (`b2*x < a2*y <= a2*b` gives `x < a*a`). -/
def ovalPass1 (a2 b2 : Int) : Nat → Nat → Nat → Int → List (Nat × Nat)
  | 0, x, y, _ => ovalPass2 a2 b2 y x (ovalStart2 a2 b2 x y)
  | n + 1, x, y, d =>
    if b2 * x < a2 * y then
      (x, y) ::
        if d < 0 then ovalPass1 a2 b2 n (x + 1) y (d + 4 * b2 * (2 * x + 3))
        else ovalPass1 a2 b2 n (x + 1) (y - 1) (d + 4 * b2 * (2 * x + 3) - 8 * a2 * (y - 1 : Int))
    else ovalPass2 a2 b2 y x (ovalStart2 a2 b2 x y)

/-- `OvalQuad(a, b)`: the first-quadrant points in order (R157). -/
def ovalQuad (a b : Nat) : List (Nat × Nat) :=
  if a = 0 then (List.range (b + 1)).map fun i => (0, b - i)
  else if b = 0 then (List.range (a + 1)).map fun i => (i, 0)
  else
    let a2 : Int := a * a
    let b2 : Int := b * b
    ovalPass1 a2 b2 (a * a + 1) 0 b (4 * b2 - 4 * a2 * b + a2)

/-- `OvalSet(cx, cy, a, b, fill)` for the quadrant points `Q` (R158). -/
def inOval (Q : List (Nat × Nat)) (cx cy : Int) (fill : Bool) (px py : Int) : Bool :=
  Q.any fun q =>
    decide (py = cy + q.2 ∨ py = cy - q.2) &&
      (if fill then decide (-(q.1 : Int) ≤ px - cx ∧ px - cx ≤ q.1) else decide (px = cx + q.1 ∨ px = cx - q.1))

/-- The rows an oval can reach, all columns. -/
def ovalRows (cy : Int) (b : Nat) : Box := { left := 0, right := 160, top := cy - b, bottom := cy + b + 1 }

/-- `DRAWOVAL cx, cy, rx, ry, sm` (R159). -/
def execDrawOval (cx cy rx ry : Half) (sm : Byte) (s : State) : StepOutcome :=
  match readFillMode sm with
  | none => raiseFault .eOperand sm.toNat s
  | some (dm, fill) =>
    if s16 rx < 0 then raiseFault .eOperand rx.toNat s
    else if s16 ry < 0 then raiseFault .eOperand ry.toNat s
    else
      plotOnTarget s (ovalRows (s16 cy) (s16 ry).toNat)
        (inOval (ovalQuad (s16 rx).toNat (s16 ry).toNat) (s16 cx) (s16 cy) fill) dm

/-! ### Pixel test -/

/-- The pixel `TESTPOINT` reads, always of the graphics bitmap, 0 outside it (R160). -/
def testedPixel (s : State) (x y : Int) : Bool :=
  decide (0 ≤ x ∧ x < 160 ∧ 0 ≤ y ∧ y < 80) && s.ram.px s.cfg.graphBase x.toNat y.toNat

/-- `TESTPOINT x, y` (R160). -/
def execTestPoint (x y : Half) (s : State) : StepOutcome :=
  .next (s.setResult (if testedPixel s (s16 x) (s16 y) then 1 else 0))

end Sys2Proof.Machine
end

