-- ==== Sys2Proof/Machine/Text.lean ====
section
/-! DEFINITION. The text grid and the glyph compositor (spec 45_text.md): `NewLine`, `PutCell`, `AddOne`, `AddPair`, `AddSeq` (R208
to R212), `TXTMODE`, `TXTLOC`, `TXTBYTE`, `TXTBYTES` (R213 to R216), `DrawTextRow` and `TXTRENDER` (R220 to R224). -/

namespace Sys2Proof.Machine

/-! ### The grid and the cursor -/

/-- The text grid moved up by one row, the last row blanked (R208). Ascending order over a source above the destination: every
byte moved is the byte as it was. -/
def State.scrollGrid (s : State) : Memory :=
  (s.ram.storeBytes s.cfg.textBase (s.ram.loadBytes (s.cfg.textBase + s.cols) ((s.rows - 1) * s.cols))).storeBytes
    (s.cell (s.rows - 1) 0) (List.replicate s.cols s.cfg.blank)

/-- `NewLine()` (R208). -/
def State.newLine (s : State) : State :=
  if s.curRow.toNat + 1 < s.rows then s.setCursor (s.curRow.toNat + 1) 0
  else (s.setRam s.scrollGrid).setCursor (s.rows - 1) 0

/-- `Mem[Cell(CURROW, CURCOL + i)] <- b` (R206). -/
def State.setCell (s : State) (i : Nat) (b : Byte) : State :=
  s.setRam (s.ram.setByte (s.cell s.curRow.toNat (s.curCol.toNat + i)) b)

/-- The cursor moved `n` columns to the right, or to the next line where the row ends: the wrap is eager (R207, R209). -/
def State.advance (s : State) (n : Nat) : State :=
  if s.curCol.toNat + n < s.cols then s.setCursor s.curRow.toNat (s.curCol.toNat + n) else s.newLine

/-- `PutCell(b)` (R209). -/
def State.putCell (s : State) (b : Byte) : State := (s.setCell 0 b).advance 1

/-- `AddOne(b)`: CR ignored, LF a new line, TAB one space, every other code stored as it is (R210). -/
def State.addOne (s : State) (b : Byte) : State :=
  if b = 0x0D then s
  else if b = 0x0A then s.newLine
  else if b = 0x09 then s.putCell 0x20
  else s.putCell b

/-- `AddPair(b1, b2)`: a padding space first where the cursor stands on the last column (R211). -/
def State.addPair (s : State) (b1 b2 : Byte) : State :=
  let p := if s.curCol.toNat = s.cols - 1 then s.putCell 0x20 else s
  ((p.setCell 0 b1).setCell 1 b2).advance 2

/-- A lead byte: the high bit is set (R211, R212). -/
def isLead (b : Byte) : Bool := decide (0x80 ≤ b.toNat)

/-- The scan of `AddSeq`: the lead byte that has no partner, if the sequence ends in one (R212). -/
def loneLead : List Byte → Option Byte
  | [] => none
  | [b] => if isLead b then some b else none
  | b :: b2 :: rest => if isLead b then loneLead rest else loneLead (b2 :: rest)

/-- The effect of `AddSeq` on a sequence the scan has passed, pairs taken greedily from the left (R212). -/
def State.addSeq (s : State) : List Byte → State
  | [] => s
  | [b] => s.addOne b
  | b :: b2 :: rest => if isLead b then (s.addPair b b2).addSeq rest else (s.addOne b).addSeq (b2 :: rest)

/-! ### Text commands -/

/-- `TXTMODE m` (R213). -/
def execTxtMode (m : Byte) (s : State) : StepOutcome :=
  match readSelector m with
  | none => raiseFault .eOperand m.toNat s
  | some v => .next (((s.setTxtMode v).setCursor 0 0).setRam (blankText s.cfg s.ram))

/-- `TXTLOC row, col` (R214). -/
def execTxtLoc (row col : Half) (s : State) : StepOutcome :=
  .next (s.setCursor (clampBelow (s16 row) s.rows) (clampBelow (s16 col) s.cols))

/-- `TXTBYTE b` (R215). -/
def execTxtByte (b : Byte) (s : State) : StepOutcome :=
  if isLead b then raiseFault .eOperand b.toNat s else .next (s.addOne b)

/-- The unspecified case of `TXTBYTES` (R275): every byte of the grid and the cursor are free values, the cursor inside the
grid (R207; log 5 and 7). -/
def State.freeText (s : State) : State :=
  ((s.setRam (s.ram.freeRange s.draws s.cfg.textBase (s.rows * s.cols))).setCursor
    (Config.freeRow s.draws % s.rows) (Config.freeCol s.draws % s.cols)).countDraw

/-- `TXTBYTES addr, count` (R216). The checks of R245 come first, the scan included; then the unspecified case of R275
(log 6). -/
def execTxtBytes (addr count : Half) (s : State) : StepOutcome :=
  if count.toNat = 0 then .next s
  else if addr.toNat + count.toNat > 65536 then raiseFault .eAddr addr.toNat s
  else
    match loneLead (s.ram.loadBytes addr.toNat count.toNat) with
    | some b => raiseFault .eOperand b.toNat s
    | none =>
      if rangesMeet addr.toNat count.toNat s.cfg.textBase (s.rows * s.cols) then .next s.freeText
      else .next (s.addSeq (s.ram.loadBytes addr.toNat count.toNat))

/-! ### The glyph compositor -/

/-- `cw`: the width of a cell (R220, R223). -/
def cellWidth (mode : BitVec 1) : Nat := if mode = 0 then 8 else 6
/-- `gh`: the height of a glyph (R220, R223). -/
def glyphHeight (mode : BitVec 1) : Nat := if mode = 0 then 16 else 12
/-- `pitch`: the rows of pixels from one text row to the next (R220, R223). -/
def rowPitch (mode : BitVec 1) : Nat := if mode = 0 then 16 else 13
/-- `ox` and `oy`: the top left pixel of cell (0, 0) (R220, R223). -/
def gridOrigin (mode : BitVec 1) : Nat := if mode = 0 then 0 else 1

/-- `BorderSet`: the small mode's border and gap lines (R221). -/
def inBorder (px py : Int) : Bool :=
  decide (px = 0 ∨ px = 159 ∨ py = 0 ∨ py = 79 ∨ py = 13 ∨ py = 26 ∨ py = 39 ∨ py = 52 ∨ py = 65 ∨ py = 78)

/-- The blit that draws a glyph, or a blank where there is none, into `cells` cells from cell `(r, c)` (R223). -/
def glyphBlit (mode : BitVec 1) (r c cells : Nat) (off : Option Nat) : BlitOp :=
  { x := (gridOrigin mode + cellWidth mode * c : Nat), y := (gridOrigin mode + rowPitch mode * r : Nat),
    w := cells * cellWidth mode, h := glyphHeight mode,
    space := if off.isSome then .font else .zero, addr := off.getD 0, mode := .copy, inv := false, hm := false }

/-- `DrawTextRow(r)` from column `c` on, in at most the given number of cells (R223). -/
def drawCells (c : Params) (mode : BitVec 1) (r : Nat) : Nat → Nat → Memory → Memory
  | 0, _, m => m
  | n + 1, col, m =>
    if col < colsOf mode then
      let cell := c.textBase + r * colsOf mode + col
      let b := m.byteAt cell
      if isLead b ∧ col + 1 < colsOf mode then
        drawCells c mode r n (col + 2)
          (m.blit c c.graphBase (glyphBlit mode r col 2 (glyphOff2 c mode b (m.byteAt (cell + 1)))))
      else
        drawCells c mode r n (col + 1) (m.blit c c.graphBase (glyphBlit mode r col 1 (glyphOff1 c mode b)))
    else m

/-- `DrawTextRow(r)` (R223). -/
def drawTextRow (c : Params) (mode : BitVec 1) (r : Nat) (m : Memory) : Memory :=
  drawCells c mode r (colsOf mode) 0 m

/-- Text row `r` is skipped: bit `ROWMASK_TOP - r` of the mask is 1 (R222). Whether a row whose bit index would be
negative is skipped is a free value (log 10). -/
def rowSkipped (c : Params) (mask : Half) (r : Nat) : Bool :=
  if r ≤ c.rowmaskTop then mask.getLsbD (c.rowmaskTop - r) else Config.noMaskBit c.rowmaskTop mask r

/-- The rows of the grid from `r` on that are not skipped, drawn in order (R224). -/
def drawRows (c : Params) (mode : BitVec 1) (mask : Half) : Nat → Nat → Memory → Memory
  | 0, _, m => m
  | n + 1, r, m => drawRows c mode mask n (r + 1) (if rowSkipped c mask r then m else drawTextRow c mode r m)

/-- The small mode's border and gap lines cleared; nothing in large mode (R221, R224). -/
def clearBorder (c : Params) (mode : BitVec 1) (m : Memory) : Memory :=
  if mode = 1 then m.plotSet c.graphBase Box.screen inBorder .clear else m

/-- `TXTRENDER mask` (R224). -/
def execTxtRender (mask : Half) (s : State) : StepOutcome :=
  .next (s.setRam (drawRows s.cfg s.txtMode mask s.rows 0 (clearBorder s.cfg s.txtMode s.ram)))

end Sys2Proof.Machine
end

