-- ==== Sys2Proof/Machine/Transform.lean ====
section
/-! DEFINITION. Whole-bitmap operations (spec 43_transform.md): `SCROLL` (R180), `MIRROR` (R181), `rev8` (R182). -/

namespace Sys2Proof.Machine

/-- `rev8(v)`: bit `i` of the result is bit `7 - i` of `v` (R182). -/
def rev8 (v : Byte) : Byte := BitVec.ofFnLE fun i : Fin 8 => v.getLsbD (7 - i.val)

/-- Every byte of the bitmap at `B` replaced: byte `k` of row `r` by `f r k`, `f` reading the bitmap as it was before. -/
def Memory.rewriteBitmap (m : Memory) (B : Nat) (f : Nat → Nat → Byte) : Memory :=
  m.storeBytes B ((List.range 1600).map fun i => f (i / 20) (i % 20))

/-- Byte `k` of row `r` of the bitmap at `B` scrolled left: pixel `px` takes old pixel `px + 1` (R180). -/
def scrolledLeft (m : Memory) (B r k : Nat) : Byte :=
  (m.byteAt (B + 20 * r + k) <<< 1) ||| (if k < 19 then m.byteAt (B + 20 * r + (k + 1)) >>> 7 else 0)

/-- Byte `k` of row `r` of the bitmap at `B` scrolled right: pixel `px` takes old pixel `px - 1` (R180). -/
def scrolledRight (m : Memory) (B r k : Nat) : Byte :=
  (m.byteAt (B + 20 * r + k) >>> 1) ||| (if 0 < k then (m.byteAt (B + 20 * r + (k - 1)) &&& 1) <<< 7 else 0)

/-- `SCROLL dir` (R180). -/
def execScroll (dir : Byte) (s : State) : StepOutcome :=
  match readSelector dir with
  | none => raiseFault .eOperand dir.toNat s
  | some d =>
    .next (s.setRam (s.ram.rewriteBitmap s.targetBase
      (if d = 0 then scrolledLeft s.ram s.targetBase else scrolledRight s.ram s.targetBase)))

/-- Byte `k` of row `r` of the bitmap at `B` mirrored left to right (R181). -/
def mirroredHoriz (m : Memory) (B r k : Nat) : Byte := rev8 (m.byteAt (B + 20 * r + (19 - k)))

/-- Byte `k` of row `r` of the bitmap at `B` mirrored top to bottom (R181). -/
def mirroredVert (m : Memory) (B r k : Nat) : Byte := m.byteAt (B + 20 * (79 - r) + k)

/-- `MIRROR dir` (R181). -/
def execMirror (dir : Byte) (s : State) : StepOutcome :=
  match readSelector dir with
  | none => raiseFault .eOperand dir.toNat s
  | some d =>
    .next (s.setRam (s.ram.rewriteBitmap s.targetBase
      (if d = 0 then mirroredHoriz s.ram s.targetBase else mirroredVert s.ram s.targetBase)))

end Sys2Proof.Machine
end

