-- ==== Sys2Proof/Machine/Dispatch.lean ====
section
/-! DEFINITION. What each command does: one arm per row of the opcode map (spec 30_encoding.md R85). -/

namespace Sys2Proof.Machine

def exec (i : Instr) (s : State) : Host.Outcome State Fault Refusal :=
  match i with
  -- control (40_control.md)
  | .reset => Sys2Proof.Machine.execReset s
  | .setTarget t => Sys2Proof.Machine.execSetTarget t s
  -- block transfer (41_blit.md)
  | .drawData x y w h addr flags => Sys2Proof.Machine.execDrawData x y w h addr flags s
  | .saveData x y w h addr => Sys2Proof.Machine.execSaveData x y w h addr s
  | .render => Sys2Proof.Machine.execRender s
  -- shapes (42_shapes.md)
  | .drawPoint x y sm => Sys2Proof.Machine.execDrawPoint x y sm s
  | .drawLine x0 y0 x1 y1 sm => Sys2Proof.Machine.execDrawLine x0 y0 x1 y1 sm s
  | .drawRect x0 y0 x1 y1 sm => Sys2Proof.Machine.execDrawRect x0 y0 x1 y1 sm s
  | .drawOval cx cy rx ry sm => Sys2Proof.Machine.execDrawOval cx cy rx ry sm s
  | .testPoint x y => Sys2Proof.Machine.execTestPoint x y s
  -- whole-bitmap operations (43_transform.md)
  | .scroll dir => Sys2Proof.Machine.execScroll dir s
  | .mirror dir => Sys2Proof.Machine.execMirror dir s
  -- memory (44_memops.md)
  | .memFill addr count value => Sys2Proof.Machine.execMemFill addr count value s
  | .memCopy dest src count => Sys2Proof.Machine.execMemCopy dest src count s
  -- text (45_text.md)
  | .txtMode m => Sys2Proof.Machine.execTxtMode m s
  | .txtLoc row col => Sys2Proof.Machine.execTxtLoc row col s
  | .txtByte b => Sys2Proof.Machine.execTxtByte b s
  | .txtBytes addr count => Sys2Proof.Machine.execTxtBytes addr count s
  | .txtRender mask => Sys2Proof.Machine.execTxtRender mask s

end Sys2Proof.Machine
end

