-- ==== Sys2Proof/Machine/Port.lean ====
section
/-! DEFINITION. The ports: the command port (spec 30_encoding.md R80) with the FAULTED state (60_exceptions.md R246), host writes
accesses to RAM (20_memory.md R68), the register read port (10_state.md R34) and the scan-out (20_memory.md R67). -/

namespace Sys2Proof.Machine

/-- One packet executed: decoded first, `E_OPCODE` where it is malformed (R81, R89, R91, R241). -/
def runPacket (op : Byte) (operands : List Byte) (s : State) : StepOutcome :=
  match decode (op :: operands) with
  | .ok i => exec i s
  | .error _ => raiseFault .eOpcode op.toNat s

/-- The packet is the well-formed `RESET`, exactly the one byte `01` (R246). -/
def isResetPacket (op : Byte) (operands : List Byte) : Bool := decide (op = 0x01 ∧ operands = [])

/-- One packet delivered on the command port: in the FAULTED state every packet but `RESET` is discarded without being
decoded (R246, R252). -/
def deliver (op : Byte) (operands : List Byte) (s : State) : StepOutcome :=
  if s.status = 0 ∨ isResetPacket op operands then runPacket op operands s else .next s

/-- `AddressFault(a)` of a host access: `E_ADDR` with `FAULTINFO = a` (R240). In the FAULTED state the first fault stays
the one reported (R246, R250; log 9). -/
def hostAddressFault (f : AddressFault) (s : State) : StepOutcome :=
  if s.status = 0 then raiseFault .eAddr f.addr s else .next s

/-- A host write of RAM (R68, R53), in the FAULTED state too (R246). One that passes 0xFFFF writes nothing. -/
def hostWrite (addr : Nat) (w : Width) (v : Int) (s : State) : StepOutcome :=
  match s.ram.memWrite addr w v with
  | .ok m => .next (s.setRam m)
  | .error f => hostAddressFault f s

/-- A host read of RAM (R68, R52), in the FAULTED state too (R246): no side effect (R62) but the fault of one that passes
0xFFFF. The value is `Memory.memRead` of the same state. -/
def hostRead (addr : Nat) (w : Width) (s : State) : StepOutcome :=
  match s.ram.memRead addr w with
  | .ok _ => .next s
  | .error f => hostAddressFault f s

/-- One action of the host (R65). -/
def perform (a : HostAction) (s : State) : StepOutcome :=
  match a with
  | .packet op operands => deliver op operands s
  | .write addr w v => hostWrite addr w v s
  | .read addr w => hostRead addr w s

/-- The host's next action performed; with nothing in the inbox the engine waits (R65, R66; log 2). -/
def nextAction (s : State) : StepOutcome :=
  match s.inbox with
  | [] => .next s
  | a :: rest => perform a (s.setInbox rest)

/-- The state with a packet placed before everything else the host will do. -/
def State.withPacket (s : State) (p : List Byte) : State :=
  match p with
  | [] => s
  | op :: operands => s.setInbox (.packet op operands :: s.inbox)

/-- The register read port: register `n` zero-extended to 32 bits, 0 for any other number (R34). Reading has no side
effect: it is a function of the state (log 17). -/
def readPort (s : State) (n : Nat) : BitVec 32 :=
  match n with
  | 0 => s.status.setWidth 32
  | 1 => s.faultInfo
  | 2 => s.result
  | 3 => s.target.setWidth 32
  | 4 => s.txtMode.setWidth 32
  | 5 => s.curRow.setWidth 32
  | 6 => s.curCol.setWidth 32
  | _ => 0

/-- What the scan-out may read at address `a` while the action takes the machine from `before` to `after`, by a free `pick`
(log 12). While a command runs each bit is, independently, the old or the new one (R67); while the host accesses RAM the
byte is the old or the new one, never a mixture (R68, R61). Between two actions the states are the same. -/
def scanByte (action : HostAction) (before after : State) (a : Nat) (pick : Byte) : Byte :=
  match action with
  | .packet _ _ => (before.ram.byteAt a &&& ~~~pick) ||| (after.ram.byteAt a &&& pick)
  | .write _ _ _ => if pick.getLsbD 0 then after.ram.byteAt a else before.ram.byteAt a
  | .read _ _ => before.ram.byteAt a

end Sys2Proof.Machine
end

