-- ==== Sys2Proof/Machine/Step.lean ====
section
/-! DEFINITION. One step of the machine: the host's next action (spec 20_memory.md R65, R66), and the placing of one packet in
front of it. -/

namespace Sys2Proof.Machine

/-- One step: next, fault or refusal. -/
def step (s : State) : Host.Outcome State Fault Refusal := nextAction s

/-- The state whose next step receives the packet that the low `nbits` bits of `w` are (log 2). -/
def State.withFetchWord (s : State) (nbits w : Nat) : State := s.withPacket (tablePacket nbits w)

end Sys2Proof.Machine
end

