-- ==== Sys2Proof/Machine/Pseudo.lean ====
section
/-! DEFINITION. The assembler (spec 30_encoding.md R100): a command written as text, the named operand values; and the
pseudo-commands (R101 to R105) as the commands and host writes they expand to. -/

namespace Sys2Proof.Machine

/-- The named values of the `flags` byte (R100). -/
def flagCOPY : Byte := 1
@[inherit_doc flagCOPY] def flagNOT : Byte := 2
@[inherit_doc flagCOPY] def flagOR : Byte := 3
@[inherit_doc flagCOPY] def flagAND : Byte := 4
@[inherit_doc flagCOPY] def flagXOR : Byte := 5
@[inherit_doc flagCOPY] def flagINV : Byte := 8
@[inherit_doc flagCOPY] def flagFONT : Byte := 16
@[inherit_doc flagCOPY] def flagHM : Byte := 32

/-- The named values of the `sm` byte (R100). -/
def modeCLEAR : Byte := 0
@[inherit_doc modeCLEAR] def modeNORMAL : Byte := 1
@[inherit_doc modeCLEAR] def modeINVERT : Byte := 2
@[inherit_doc modeCLEAR] def modeFILL : Byte := 4

/-- A command's text: its mnemonic and its operands in packet order, separated by commas, numbers in decimal (R100). -/
def asmText (mnemonic : String) (operands : List Int) : String :=
  if operands = [] then mnemonic else mnemonic ++ " " ++ String.intercalate ", " (operands.map toString)

/-- A command written as R100 writes it. -/
def asm : Instr → String
  | .reset => asmText "RESET" []
  | .setTarget t => asmText "SETTARGET" [t.toNat]
  | .drawData x y w h addr flags => asmText "DRAWDATA" [x.toInt, y.toInt, w.toInt, h.toInt, addr.toNat, flags.toNat]
  | .saveData x y w h addr => asmText "SAVEDATA" [x.toInt, y.toInt, w.toInt, h.toInt, addr.toNat]
  | .render => asmText "RENDER" []
  | .drawPoint x y sm => asmText "DRAWPOINT" [x.toInt, y.toInt, sm.toNat]
  | .drawLine x0 y0 x1 y1 sm => asmText "DRAWLINE" [x0.toInt, y0.toInt, x1.toInt, y1.toInt, sm.toNat]
  | .drawRect x0 y0 x1 y1 sm => asmText "DRAWRECT" [x0.toInt, y0.toInt, x1.toInt, y1.toInt, sm.toNat]
  | .drawOval cx cy rx ry sm => asmText "DRAWOVAL" [cx.toInt, cy.toInt, rx.toInt, ry.toInt, sm.toNat]
  | .testPoint x y => asmText "TESTPOINT" [x.toInt, y.toInt]
  | .scroll dir => asmText "SCROLL" [dir.toNat]
  | .mirror dir => asmText "MIRROR" [dir.toNat]
  | .memFill addr count value => asmText "MEMFILL" [addr.toNat, count.toNat, value.toNat]
  | .memCopy dest src count => asmText "MEMCOPY" [dest.toNat, src.toNat, count.toNat]
  | .txtMode m => asmText "TXTMODE" [m.toNat]
  | .txtLoc row col => asmText "TXTLOC" [row.toInt, col.toInt]
  | .txtByte b => asmText "TXTBYTE" [b.toNat]
  | .txtBytes addr count => asmText "TXTBYTES" [addr.toNat, count.toNat]
  | .txtRender mask => asmText "TXTRENDER" [mask.toNat]

/-- The three segments `ZEROSEG` names (R101). -/
inductive SegmentName where
  | graphics | buffer | text
deriving DecidableEq, Repr

/-- The segment of a name (R101). -/
def SegmentName.segment (c : Params) : SegmentName → Segment
  | .graphics => graphicsSegment c
  | .buffer => bufferSegment c
  | .text => textSegment c

/-- `ZEROSEG seg` (R101). -/
def zeroSeg (c : Params) (seg : SegmentName) : Instr :=
  .memFill (BitVec.ofNat 16 (seg.segment c).base) (BitVec.ofNat 16 (seg.segment c).length) 0

/-- `CLS` (R102). -/
def cls : Instr := .drawRect 0 0 159 79 (modeCLEAR ||| modeFILL)

/-- `DRAWCIRCLE cx, cy, r, sm` (R103). -/
def drawCircle (cx cy r : Half) (sm : Byte) : Instr := .drawOval cx cy r r sm

/-- The lines of a polygon from `p` on, closed back to `first` (R104). -/
def polyLines (first : Half × Half) (sm : Byte) : Half × Half → List (Half × Half) → List Instr
  | p, [] => [.drawLine p.1 p.2 first.1 first.2 sm]
  | p, q :: rest => .drawLine p.1 p.2 q.1 q.2 sm :: polyLines first sm q rest

/-- `DRAWPOLY (x0,y0), …, (xn-1,yn-1), sm`, `n >= 2` (R104). -/
def drawPoly (points : List (Half × Half)) (sm : Byte) : List Instr :=
  match points with
  | p :: q :: rest => polyLines p sm p (q :: rest)
  | _ => []

/-- A command as the host delivers it: its packet on the command port (R80). -/
def command (i : Instr) : HostAction := .packet ((encode i).getD 0 0) ((encode i).drop 1)

/-- `TXTSTR addr, "text"`: host writes of the text, then `TXTBYTES` (R105). -/
def txtStr (addr : Half) (text : List Byte) : List HostAction :=
  (List.range text.length).map (fun i => .write (addr.toNat + i) .w8 (text.getD i 0).toNat) ++
    [command (.txtBytes addr (BitVec.ofNat 16 text.length))]

end Sys2Proof.Machine
end

