-- ==== Sys2Proof/WellFormed.lean ====
section
/-! DEFINITION. Which commands hold no reserved or refused operand value that can be told from the packet alone
(spec 30_encoding.md R86 to R90; 60_exceptions.md R242). -/

namespace Sys2Proof

/-- A one-byte selector: 0 or 1, every other value reserved (R88). -/
def wfSelector (v : Byte) : Bool := decide (v.toNat ≤ 1)

/-- A one-byte character: 0 to 127, the rest refused by `TXTBYTE` (R88, R215). -/
def wfChar (b : Byte) : Bool := decide (b.toNat < 0x80)

/-- The `flags` byte of `DRAWDATA`: mode 1 to 5, bits 7 and 6 clear (R86). -/
def wfFlags (flags : Byte) : Bool :=
  decide (1 ≤ flags.toNat % 8 ∧ flags.toNat % 8 ≤ 5 ∧ flags.toNat < 64)

/-- The `sm` byte of `DRAWPOINT` and `DRAWLINE`: `dm` not 3, bits 7 to 2 clear (R87). -/
def wfPlainMode (sm : Byte) : Bool := decide (sm.toNat < 3)

/-- The `sm` byte of `DRAWRECT` and `DRAWOVAL`: `dm` not 3, bits 7 to 3 clear (R87). -/
def wfFillMode (sm : Byte) : Bool := decide (sm.toNat % 4 ≠ 3 ∧ sm.toNat < 8)

/-- A radius: not negative (R90, R159). -/
def wfRadius (r : Half) : Bool := decide (0 ≤ r.toInt)

/-- No operand of the command holds a reserved or refused value (R90, R242). The one `E_OPERAND` this cannot tell is
the lone lead byte of `TXTBYTES`, which stands in memory and not in the packet. -/
def Instr.wf : Instr → Bool
  | .reset => true
  | .setTarget t => wfSelector t
  | .drawData _ _ _ _ _ flags => wfFlags flags
  | .saveData _ _ _ _ _ => true
  | .render => true
  | .drawPoint _ _ sm => wfPlainMode sm
  | .drawLine _ _ _ _ sm => wfPlainMode sm
  | .drawRect _ _ _ _ sm => wfFillMode sm
  | .drawOval _ _ rx ry sm => wfFillMode sm && wfRadius rx && wfRadius ry
  | .testPoint _ _ => true
  | .scroll dir => wfSelector dir
  | .mirror dir => wfSelector dir
  | .memFill _ _ _ => true
  | .memCopy _ _ _ => true
  | .txtMode m => wfSelector m
  | .txtLoc _ _ => true
  | .txtByte b => wfChar b
  | .txtBytes _ _ => true
  | .txtRender _ => true

end Sys2Proof
end

