-- ==== Sys2Proof/Safety.lean ====
section
/-! DEFINITION. What claims about the machine are stated in: the invariants of spec 10_state.md R39, the states that can be a
GTE at all, what a command may store to, what it means that a command plots a set of pixels, and how a text row and a
character sequence fall into cells. -/

namespace Sys2Proof.Machine

/-- R39's invariants of the registers, with the cursor bounds of R33. -/
abbrev State.Inv (s : State) : Prop :=
  s.curRow.toNat < s.rows ∧ s.curCol.toNat < s.cols ∧ s.status.toNat ≤ 3 ∧ (s.status = 0 → s.faultInfo = 0) ∧
    s.result.toNat ≤ 1

/-- RAM is in its canonical form and the parameters meet R10's constraint. -/
abbrev State.Sound (s : State) : Prop := s.ram.wf = true ∧ s.cfg.Valid

/-- Every byte outside `[a, a+n)` reads as before. -/
def SameOutside (m m' : Memory) (a n : Nat) : Prop := ∀ x, x < a ∨ a + n ≤ x → m'.byteAt x = m.byteAt x

/-- The ranges (first address, length) a command may store to, all its paths together. -/
def footprint (s : State) : Instr → List (Nat × Nat)
  | .reset =>
    if s.cfg.resetClearsRam then [(0, 65536)]
    else [(s.cfg.graphBase, 1600), (s.cfg.bufBase, 1600), (s.cfg.textBase, s.cfg.textLen)]
  | .setTarget _ => []
  | .drawData _ _ _ _ _ _ => [(s.targetBase, 1600)]
  | .saveData _ _ w h addr =>
    (addr.toNat, savedWidth w * savedHeight s.cfg h) ::
      if rangesMeet addr.toNat (savedWidth w * savedHeight s.cfg h) s.targetBase 1600 then [(s.targetBase, 1600)] else []
  | .render => [(s.cfg.graphBase, 1600)]
  | .drawPoint _ _ _ => [(s.targetBase, 1600)]
  | .drawLine _ _ _ _ _ => [(s.targetBase, 1600)]
  | .drawRect _ _ _ _ _ => [(s.targetBase, 1600)]
  | .drawOval _ _ _ _ _ => [(s.targetBase, 1600)]
  | .testPoint _ _ => []
  | .scroll _ => [(s.targetBase, 1600)]
  | .mirror _ => [(s.targetBase, 1600)]
  | .memFill addr count _ => [(addr.toNat, count.toNat)]
  | .memCopy dest _ count => [(dest.toNat, count.toNat)]
  | .txtMode _ => [(s.cfg.textBase, s.cfg.textLen)]
  | .txtLoc _ _ => []
  | .txtByte _ => [(s.cfg.textBase, s.rows * s.cols)]
  | .txtBytes _ _ => [(s.cfg.textBase, s.rows * s.cols)]
  | .txtRender _ => [(s.cfg.graphBase, 1600)]

/-- The host's next action is a packet. -/
def State.hasPacket (s : State) (op : Byte) (operands : List Byte) (rest : List HostAction) : Prop :=
  s.inbox = .packet op operands :: rest

/-- A packet of a legal opcode `op` whose length is not `len` raises `E_OPCODE` and does nothing else (R91, R241). -/
def WrongLengthFaults (op : Byte) (len : Nat) : Prop :=
  ∀ (s : State) (operands : List Byte) (rest : List HostAction),
    s.status = 0 → s.hasPacket op operands rest → operands.length + 1 ≠ len →
    step s = .next { s with inbox := rest, status := 1, faultInfo := op.setWidth 32 }

/-- The command answers the next state in which each visible pixel of the set `S` on the target bitmap has the draw mode
applied once, and nothing else is changed (R151). -/
def PlotsOnTarget (i : Instr) (s : State) (dm : DrawMode) (S : Int → Int → Prop) : Prop :=
  ∃ m', exec i s = .next { s with ram := m' } ∧ SameOutside s.ram m' s.targetBase 1600 ∧
    ∀ px py : Nat, px < 160 → py < 80 →
      (S px py → m'.px s.targetBase px py = dm.apply (s.ram.px s.targetBase px py)) ∧
      (¬ S px py → m'.px s.targetBase px py = s.ram.px s.targetBase px py)

/-- `RectSet(x0, y0, x1, y1, fill)` (R155). -/
def RectSet (x0 y0 x1 y1 : Int) (fill : Bool) (px py : Int) : Prop :=
  (min x0 x1 ≤ px ∧ px ≤ max x0 x1 ∧ min y0 y1 ≤ py ∧ py ≤ max y0 y1) ∧
    (fill = true ∨ px = min x0 x1 ∨ px = max x0 x1 ∨ py = min y0 y1 ∨ py = max y0 y1)

/-- `OvalSet(cx, cy, a, b, fill)` (R158). -/
def OvalSet (cx cy : Int) (a b : Nat) (fill : Bool) (px py : Int) : Prop :=
  ∃ q ∈ ovalQuad a b, (py = cy + q.2 ∨ py = cy - q.2) ∧
    if fill then ∃ t : Int, -(q.1 : Int) ≤ t ∧ t ≤ q.1 ∧ px = cx + t else px = cx + q.1 ∨ px = cx - q.1

/-- A shape command in Invert mode whose operands hold no reserved value. -/
def invertShape : Instr → Bool
  | .drawPoint _ _ sm => decide (sm = 2)
  | .drawLine _ _ _ _ sm => decide (sm = 2)
  | .drawRect _ _ _ _ sm => decide (sm = 2 ∨ sm = 6)
  | .drawOval _ _ rx ry sm => decide (sm = 2 ∨ sm = 6) && wfRadius rx && wfRadius ry
  | _ => false

/-- Column `c` of a text row of `cols` cells is where the greedy scan of R223 starts a cell or a pair: it is not the
second half of a pair. -/
def startsCell (bytes : Nat → Byte) (cols : Nat) : Nat → Bool
  | 0 => true
  | c + 1 => !(startsCell bytes cols c && isLead (bytes c) && decide (c + 1 < cols))

/-- Cell `c` of a text row is drawn as a pair: a lead byte with a partner in the row (R223). -/
def pairAt (bytes : Nat → Byte) (cols c : Nat) : Bool := isLead (bytes c) && decide (c + 1 < cols)

/-- Pixel `(dx, dy)` of a glyph whose rows take `stride` bytes; clear where there is no glyph (R202, R223). -/
def glyphPixel (c : Params) (off : Option Nat) (stride dx dy : Nat) : Bool :=
  match off with
  | none => false
  | some a => (fontByte c (a + dy * stride + dx / 8)).getLsbD (7 - dx % 8)

/-- One unit of a character sequence: a one-byte character or a pair (R212). -/
inductive TextToken where
  | one (b : Byte)
  | pair (b1 b2 : Byte)
deriving DecidableEq, Repr

/-- The bytes of a unit. -/
def TextToken.bytes : TextToken → List Byte
  | .one b => [b]
  | .pair b1 b2 => [b1, b2]

/-- A one-byte character has its high bit clear, the first byte of a pair has it set (R210, R211). -/
def TextToken.ok : TextToken → Bool
  | .one b => !isLead b
  | .pair b1 _ => isLead b1

/-- The effect of a unit: `AddOne` or `AddPair` (R212). -/
def TextToken.add (s : State) : TextToken → State
  | .one b => s.addOne b
  | .pair b1 b2 => s.addPair b1 b2

end Sys2Proof.Machine
end

