-- ==== Sys2Proof/Certificates/Slice0/Obligations.lean ====
section
/-! DEFINITION. The statements about the GTE, each with the rule of spec/ it formalises. -/

open Sys2Proof Sys2Proof.Machine

/-! ### Packets and ports -/

/-- R82, R84, R85: every command, with every operand at every value, is decoded from its own packet. -/
def Obligations.DecodeOfEncodeIsTheCommand : Prop := ∀ i : Instr, decode (encode i) = .ok i

/-- R85, R91: a packet that decodes is the packet of the command it decodes to, so that each command has one packet. -/
def Obligations.EncodeOfDecodeIsThePacket : Prop := ∀ (p : List Byte) (i : Instr), decode p = .ok i → encode i = p

/-- R82, R84, R85, on written-out words: one packet of each family decodes to the command it stands for. -/
def Obligations.WrittenOutPacketsDecode : Prop :=
  decode [0x02, 0x01] = .ok (.setTarget 1) ∧
  decode [0x10, 0x03, 0x00, 0x0A, 0x00, 0x08, 0x00, 0x08, 0x00, 0x00, 0x20, 0x00, 0x01] =
    .ok (.drawData 3 10 8 8 0x2000 1) ∧
  decode [0x21, 0xFE, 0xFF, 0xFF, 0xFF, 0x02, 0x00, 0x01, 0x00, 0x01] = .ok (.drawLine 0xFFFE 0xFFFF 2 1 1) ∧
  decode [0x31, 0x01] = .ok (.mirror 1) ∧
  decode [0x39, 0x02, 0x30, 0x00, 0x30, 0x04, 0x00] = .ok (.memCopy 0x3002 0x3000 4) ∧
  decode [0x44, 0xF8, 0x01] = .ok (.txtRender 0x01F8)

/-- R80, R93: the packets of a command list of legal commands, written one after the other, are cut back from the bytes
alone. -/
def Obligations.CommandListIsCutBack : Prop :=
  ∀ is : List Instr, cutPackets (is.flatMap encode) = is.map encode

/-- R241: a packet whose opcode is not one of the nineteen of R85, or whose length is not the opcode's, raises `E_OPCODE`
with `FAULTINFO` the opcode byte, whatever its operands are, and changes nothing else. -/
def Obligations.MalformedPacketRaisesOpcodeFault : Prop :=
  (∀ op : Byte, packetLength op = none ↔
    op.toNat ∉ [0x01, 0x02, 0x10, 0x11, 0x12, 0x20, 0x21, 0x22, 0x23, 0x24, 0x30, 0x31, 0x38, 0x39, 0x40, 0x41, 0x42,
      0x43, 0x44]) ∧
  ∀ (op : Byte) (operands : List Byte) (rest : List HostAction) (s : State),
    s.status = 0 → s.hasPacket op operands rest → packetLength op ≠ some (operands.length + 1) →
    step s = .next { s with inbox := rest, status := 1, faultInfo := op.setWidth 32 }

/-- A running engine whose next packet decodes to a command runs that command, the packet being taken from the inbox
(R80, R81, R252). -/
def Obligations.StepRunsTheDecodedCommand : Prop :=
  ∀ (op : Byte) (operands : List Byte) (rest : List HostAction) (i : Instr) (s : State),
    s.status = 0 → s.hasPacket op operands rest → decode (op :: operands) = .ok i →
    step s = exec i { s with inbox := rest }

/-- The model's choice (log 2): with no packet and no host write to come, the engine waits unchanged. -/
def Obligations.IdleEngineWaits : Prop := ∀ s : State, s.inbox = [] → step s = .next s

/-- R246: in the FAULTED state every packet but exactly `01` is discarded without effect, well-formed or not; `01` resets;
the host still reads and writes RAM, and registers read as they are. That a host access past 0xFFFF has no effect in this
state is the model's reading of R246 and R250 (log 9). -/
def Obligations.FaultedEngineDiscardsPackets : Prop :=
  ∀ (s : State) (rest : List HostAction), s.status ≠ 0 →
    (∀ (op : Byte) (operands : List Byte), s.hasPacket op operands rest → op :: operands ≠ [0x01] →
      step s = .next { s with inbox := rest }) ∧
    (s.hasPacket 0x01 [] rest → step s = exec .reset { s with inbox := rest }) ∧
    (∀ (addr : Nat) (w : Width) (v : Int), s.inbox = .write addr w v :: rest →
      (addr + w.bytes ≤ 65536 →
        ∃ m', s.ram.memWrite addr w v = .ok m' ∧ step s = .next { s with inbox := rest, ram := m' }) ∧
      (65536 < addr + w.bytes → step s = .next { s with inbox := rest })) ∧
    (∀ (addr : Nat) (w : Width), s.inbox = .read addr w :: rest → step s = .next { s with inbox := rest })

/-- R247: only the `RESET` packet takes the engine out of the FAULTED state; no other packet or host access does. -/
def Obligations.OnlyResetLeavesFaulted : Prop :=
  ∀ (s t : State), s.status ≠ 0 → step s = .next t → t.status = 0 → ∃ rest, s.hasPacket 0x01 [] rest

/-- R34: what the register read port answers. There is no write port: a host access inside RAM changes no register, and
one past 0xFFFF none but `STATUS` and `FAULTINFO`, by the fault of R240 (log 9). -/
def Obligations.ReadPortGivesTheRegisters : Prop :=
  (∀ (s t : State) (a : HostAction) (addr : Nat) (w : Width) (rest : List HostAction), s.inbox = a :: rest →
    (a = .read addr w ∨ ∃ v, a = .write addr w v) → step s = .next t →
    (∀ n, 2 ≤ n → readPort t n = readPort s n) ∧
    (addr + w.bytes ≤ 65536 → ∀ n, readPort t n = readPort s n)) ∧
  ∀ s : State, (readPort s 0).toNat = s.status.toNat ∧ (readPort s 1).toNat = s.faultInfo.toNat ∧
    (readPort s 2).toNat = s.result.toNat ∧ (readPort s 3).toNat = s.target.toNat ∧
    (readPort s 4).toNat = s.txtMode.toNat ∧ (readPort s 5).toNat = s.curRow.toNat ∧
    (readPort s 6).toNat = s.curCol.toNat ∧ ∀ n, 6 < n → readPort s n = 0

/-- R68, R52, R53, R240, from the running state: a host write that fits stores its bytes, least significant first, and
nothing else; a host read that fits changes nothing; one of either that passes 0xFFFF raises `E_ADDR` with `FAULTINFO` its
address and changes nothing else. R240 speaks of `AddressFault` in the primitives; that a host access enters the FAULTED
state by it is read from there (log 9). -/
def Obligations.HostWriteStoresLittleEndian : Prop :=
  ∀ (s : State) (addr : Nat) (w : Width) (rest : List HostAction), s.ram.wf = true → s.status = 0 →
    (∀ v : Int, s.inbox = .write addr w v :: rest →
      (addr + w.bytes ≤ 65536 → ∃ m', step s = .next { s with inbox := rest, ram := m' } ∧
        (∀ i < w.bytes, m'.byteAt (addr + i) = BitVec.ofInt 8 (v / 256 ^ i)) ∧
        SameOutside s.ram m' addr w.bytes) ∧
      (65536 < addr + w.bytes →
        step s = .next { s with inbox := rest, status := 3, faultInfo := BitVec.ofNat 32 addr })) ∧
    (s.inbox = .read addr w :: rest →
      (addr + w.bytes ≤ 65536 → step s = .next { s with inbox := rest }) ∧
      (65536 < addr + w.bytes →
        step s = .next { s with inbox := rest, status := 3, faultInfo := BitVec.ofNat 32 addr }))

/-- R67, its first sentence and its last, and R68 with R61: between two actions the scan-out reads `Mem[A]`; while a command
runs it may read exactly the bytes each bit of which is the old or the new one; during a host write exactly the old byte and
the new one. -/
def Obligations.ScanOutSeesOldOrNewBits : Prop :=
  ∀ (s t : State) (a : Nat),
    (∀ action pick, scanByte action s s a pick = s.ram.byteAt a) ∧
    (∀ (op : Byte) (operands : List Byte) (v : Byte), (∃ pick, scanByte (.packet op operands) s t a pick = v) ↔
      ∀ i < 8, v.getLsbD i = (s.ram.byteAt a).getLsbD i ∨ v.getLsbD i = (t.ram.byteAt a).getLsbD i) ∧
    (∀ (addr : Nat) (w : Width) (x : Int) (v : Byte), (∃ pick, scanByte (.write addr w x) s t a pick = v) ↔
      v = s.ram.byteAt a ∨ v = t.ram.byteAt a)

/-! ### Memory primitives -/

/-- R52: `MemRead`. -/
def Obligations.MemReadIsLittleEndian : Prop :=
  ∀ (m : Memory) (addr : Nat) (w : Width),
    (65536 < addr + w.bytes → m.memRead addr w = .error { addr }) ∧
    (addr + w.bytes ≤ 65536 →
      m.memRead addr w = .ok ((List.range w.bytes).map fun i => (m.byteAt (addr + i)).toNat * 256 ^ i).sum)

/-- R55: what `MemWrite` stores, `MemRead` gives back, and the bytes outside the access are unchanged. -/
def Obligations.MemWriteReadsBack : Prop :=
  ∀ (m : Memory) (a : Nat) (w : Width) (v : Nat), m.wf = true → a + w.bytes ≤ 65536 → v < 256 ^ w.bytes →
    ∃ m', m.memWrite a w v = .ok m' ∧ m'.memRead a w = .ok v ∧ SameOutside m m' a w.bytes

/-- R58: `Copy` checks its ranges, source first; otherwise it leaves what the element-wise copy in the rule's order leaves,
which is every `Mem[src+i]` as it was before the copy, and no other byte changed. -/
def Obligations.CopyIsSafeForOverlap : Prop :=
  ∀ (m : Memory) (dest src count : Nat), m.wf = true →
    (count = 0 → m.copy dest src count = .ok m) ∧
    (count ≠ 0 → 65536 < src + count → m.copy dest src count = .error { addr := src }) ∧
    (count ≠ 0 → src + count ≤ 65536 → 65536 < dest + count → m.copy dest src count = .error { addr := dest }) ∧
    (count ≠ 0 → src + count ≤ 65536 → dest + count ≤ 65536 →
      m.copy dest src count = .ok (m.copyByElements dest src count) ∧
      (∀ i < count, (m.copyByElements dest src count).byteAt (dest + i) = m.byteAt (src + i)) ∧
      SameOutside m (m.copyByElements dest src count) dest count)

/-! ### Reset and invariants -/

/-- R37, power-on: the registers, the three segments and the rest of RAM. -/
def Obligations.PowerOnState : Prop :=
  ∀ (c : Params) (init : Memory), c.Valid → init.wf = true →
    let s := State.powerOn c init
    (∀ n, readPort s n = 0) ∧ s.cfg = c ∧
    (∀ i < 1600, s.ram.byteAt (c.graphBase + i) = 0x00 ∧ s.ram.byteAt (c.bufBase + i) = 0x00) ∧
    (∀ i < c.textLen, s.ram.byteAt (c.textBase + i) = c.blank) ∧
    ∀ a, (a < c.graphBase ∨ c.graphBase + 1600 ≤ a) → (a < c.bufBase ∨ c.bufBase + 1600 ≤ a) →
      (a < c.textBase ∨ c.textBase + c.textLen ≤ a) → s.ram.byteAt a = init.byteAt a

/-- R110: `RESET`, in any state, the FAULTED one included. -/
def Obligations.ResetCommandResets : Prop :=
  encode .reset = [0x01] ∧ WrongLengthFaults 0x01 1 ∧
  ∀ s : State, s.Sound → ∃ m', exec .reset s =
      .next { s with status := 0, faultInfo := 0, result := 0, target := 0, txtMode := 0, curRow := 0, curCol := 0,
                     ram := m' } ∧
    (∀ i < 1600, m'.byteAt (s.cfg.graphBase + i) = 0x00 ∧ m'.byteAt (s.cfg.bufBase + i) = 0x00) ∧
    (∀ i < s.cfg.textLen, m'.byteAt (s.cfg.textBase + i) = s.cfg.blank) ∧
    ∀ a, (a < s.cfg.graphBase ∨ s.cfg.graphBase + 1600 ≤ a) → (a < s.cfg.bufBase ∨ s.cfg.bufBase + 1600 ≤ a) →
      (a < s.cfg.textBase ∨ s.cfg.textBase + s.cfg.textLen ≤ a) →
      m'.byteAt a = if s.cfg.resetClearsRam then 0x00 else s.ram.byteAt a

/-- R39: the state invariants hold after power-on and are preserved by every step from every state that has them: every
command, every discarded packet, every host write. -/
def Obligations.RegisterInvariantsArePreserved : Prop :=
  (∀ (c : Params) (init : Memory), (State.powerOn c init).Inv) ∧
  (∀ s t : State, s.Inv → step s = .next t → t.Inv) ∧
  ∀ (i : Instr) (s t : State), s.Inv → exec i s = .next t → t.Inv

/-- The model's canonical form of RAM and R10's constraint are preserved by every step from every state that has them. -/
def Obligations.SoundStatesArePreserved : Prop := ∀ s t : State, s.Sound → step s = .next t → t.Sound

/-- The model's reset state (its parameters and the RAM outside the segments are the model's choice, log 3 and 14) has
R39's invariants, the canonical form of RAM and R10's constraint. -/
def Obligations.InvariantsHoldAtReset : Prop := State.reset.Inv ∧ State.reset.Sound

/-- R28, R38: no step changes the parameters or the font ROM. -/
def Obligations.ParametersNeverChange : Prop := ∀ s t : State, step s = .next t → t.cfg = s.cfg

/-- R26, its column "written by", with R30 to R33: which commands can change which register. -/
def Obligations.RegistersChangeOnlyByTheirCommands : Prop :=
  ∀ (i : Instr) (s t : State), exec i s = .next t → i ≠ .reset →
    (t.target ≠ s.target → ∃ v, i = .setTarget v) ∧
    (t.result ≠ s.result → ∃ x y, i = .testPoint x y) ∧
    (t.txtMode ≠ s.txtMode → ∃ m, i = .txtMode m) ∧
    (t.curRow ≠ s.curRow ∨ t.curCol ≠ s.curCol →
      (∃ m, i = .txtMode m) ∨ (∃ r c, i = .txtLoc r c) ∨ (∃ b, i = .txtByte b) ∨ ∃ a n, i = .txtBytes a n) ∧
    (t.status ≠ s.status ∨ t.faultInfo ≠ s.faultInfo → t.status ≠ 0)

/-- R249: a packet delivered to a running engine either ends with `STATUS = 0`, or leaves the state with only `STATUS` and
`FAULTINFO` replaced. -/
def Obligations.FaultsArePrecise : Prop :=
  ∀ (op : Byte) (operands : List Byte) (s : State), s.status = 0 → ∃ t, deliver op operands s = .next t ∧
    (t.status = 0 ∨ t = { s with status := t.status, faultInfo := t.faultInfo })

/-- R90, R242: a command with a reserved or refused operand value raises `E_OPERAND` and changes nothing else; but for the
lone lead byte of `TXTBYTES`, a command without one never does. -/
def Obligations.ReservedOperandsAreRefused : Prop :=
  ∀ (i : Instr) (s : State),
    (i.wf = false → ∃ info, exec i s = .next { s with status := 2, faultInfo := info }) ∧
    (i.wf = true → s.status = 0 → (∀ a n, i ≠ .txtBytes a n) → ∀ t, exec i s = .next t → t.status ≠ 2)

/-- What every command stores to, from the commands' own rules (R110, R125, R132, R134, R151, R180, R181, R190, R191, R208,
R209, R211, R213, R223, R224), their faults (R243) and the unspecified overlaps (R275): no byte of RAM outside the command's
ranges is changed, on any of its paths. -/
def Obligations.CommandsStoreOnlyInTheirRanges : Prop :=
  ∀ (i : Instr) (s t : State), s.Sound → s.Inv → exec i s = .next t →
    ∀ a, (∀ r ∈ footprint s i, a < r.1 ∨ r.1 + r.2 ≤ a) → t.ram.byteAt a = s.ram.byteAt a

/-! ### Control -/

/-- R111: `SETTARGET t`; the setting lasts until the next `SETTARGET` or reset. -/
def Obligations.SetTargetChoosesTheBitmap : Prop :=
  (∀ t, encode (.setTarget t) = [0x02, t]) ∧ WrongLengthFaults 0x02 2 ∧
  ∀ (t : Byte) (s : State),
    (t = 0 → exec (.setTarget t) s = .next { s with target := 0 }) ∧
    (t = 1 → exec (.setTarget t) s = .next { s with target := 1 }) ∧
    (2 ≤ t.toNat → exec (.setTarget t) s = .next { s with status := 2, faultInfo := t.setWidth 32 }) ∧
    ∀ (i : Instr) (u : State), exec i s = .next u → u.target ≠ s.target → i = .reset ∨ ∃ v, i = .setTarget v

/-! ### Block transfer -/

/-- R86: the sub-fields of the `flags` byte, and which values are reserved. -/
def Obligations.FlagsByteFields : Prop :=
  ∀ flags : Byte,
    (readFlags flags = none ↔ flags.toNat % 8 = 0 ∨ flags.toNat % 8 = 6 ∨ flags.toNat % 8 = 7 ∨ 64 ≤ flags.toNat) ∧
    ∀ f, readFlags flags = some f →
      f.mode = [.copy, .copy, .not, .or, .and, .xor].getD (flags.toNat % 8) .copy ∧
      f.inv = flags.getLsbD 3 ∧ f.space = (if flags.getLsbD 4 then .font else .ram) ∧ f.hm = flags.getLsbD 5

/-- R128 to R131, R245: the checks of `DRAWDATA`, in their order: length, flags, empty block, address range. -/
def Obligations.DrawDataChecksComeFirst : Prop :=
  (∀ x y w h addr flags, encode (.drawData x y w h addr flags) =
    [0x10, x.setWidth 8, (x >>> 8).setWidth 8, y.setWidth 8, (y >>> 8).setWidth 8, w.setWidth 8, (w >>> 8).setWidth 8,
      h.setWidth 8, (h >>> 8).setWidth 8, addr.setWidth 8, (addr >>> 8).setWidth 8, (addr >>> 16).setWidth 8, flags]) ∧
  WrongLengthFaults 0x10 13 ∧
  ∀ (x y w h : Half) (addr : Addr24) (flags : Byte) (s : State),
    (flags.toNat % 8 = 0 ∨ flags.toNat % 8 = 6 ∨ flags.toNat % 8 = 7 ∨ 64 ≤ flags.toNat →
      exec (.drawData x y w h addr flags) s = .next { s with status := 2, faultInfo := flags.setWidth 32 }) ∧
    (1 ≤ flags.toNat % 8 → flags.toNat % 8 ≤ 5 → flags.toNat < 64 →
      (w.toInt ≤ 0 ∨ h.toInt ≤ 0 → exec (.drawData x y w h addr flags) s = .next s) ∧
      (0 < w.toInt → 0 < h.toInt →
        (if flags.getLsbD 4 then fontLen s.cfg else 65536) < addr.toNat + (w.toNat + 7) / 8 * h.toNat →
        exec (.drawData x y w h addr flags) s = .next { s with status := 3, faultInfo := addr.setWidth 32 }))

/-- R125, R128: `DRAWDATA` with an address range inside its space, and outside the unspecified case of R275: every visible
pixel of the rectangle is combined with its source bit, every other pixel and byte is as before. -/
def Obligations.DrawDataBlitsTheBlock : Prop :=
  ∀ (x y w h : Half) (addr : Addr24) (flags : Byte) (f : BlitFlags) (s : State),
    s.Sound → readFlags flags = some f → 0 < w.toInt → 0 < h.toInt →
    addr.toNat + (w.toNat + 7) / 8 * h.toNat ≤ (if f.space = .font then fontLen s.cfg else 65536) →
    (f.space = .ram → apart addr.toNat ((w.toNat + 7) / 8 * h.toNat) s.targetBase 1600) →
    ∃ m', exec (.drawData x y w h addr flags) s = .next { s with ram := m' } ∧
      SameOutside s.ram m' s.targetBase 1600 ∧
      ∀ px py : Nat, px < 160 → py < 80 →
        m'.px s.targetBase px py =
          if x.toInt ≤ px ∧ px < x.toInt + w.toInt ∧ y.toInt ≤ py ∧ py < y.toInt + h.toInt then
            let c := (px - x.toInt).toNat
            f.mode.combine (s.ram.px s.targetBase px py)
              (srcBit (srcByte s.cfg s.ram f.space) addr.toNat w.toNat (py - y.toInt).toNat
                (if f.hm = true ∧ s.cfg.hmirrorLive = true then w.toNat - 1 - c else c) ^^ f.inv)
          else s.ram.px s.targetBase px py

/-- R127: the byte datapath of R126 and the pixel blit of R125 leave the same RAM. -/
def Obligations.ByteDatapathIsTheBlit : Prop :=
  ∀ (m : Memory) (c : Params) (B : Nat) (b : BlitOp), m.wf = true → B + 1600 ≤ 65536 → 1 ≤ b.w → 1 ≤ b.h →
    m.blitBytes c B b = m.blit c B b

/-- R132, R133, R245: the early ends and the address check of `SAVEDATA`. -/
def Obligations.SaveDataChecksComeFirst : Prop :=
  (∀ x y w h addr, encode (.saveData x y w h addr) =
    [0x11, x.setWidth 8, (x >>> 8).setWidth 8, y.setWidth 8, (y >>> 8).setWidth 8, w.setWidth 8, (w >>> 8).setWidth 8,
      h.setWidth 8, (h >>> 8).setWidth 8, addr.setWidth 8, (addr >>> 8).setWidth 8]) ∧
  WrongLengthFaults 0x11 11 ∧
  ∀ (x y w h addr : Half) (s : State),
    (w.toInt < 8 ∨ h.toInt ≤ 0 → exec (.saveData x y w h addr) s = .next s) ∧
    (s.cfg.saveTruncHeight = true → h.toInt < 8 → exec (.saveData x y w h addr) s = .next s) ∧
    (8 ≤ w.toInt → 0 < h.toInt → (s.cfg.saveTruncHeight = true → 8 ≤ h.toInt) →
      65536 < addr.toNat + w.toNat / 8 * (if s.cfg.saveTruncHeight then 8 * (h.toNat / 8) else h.toNat) →
      exec (.saveData x y w h addr) s = .next { s with status := 3, faultInfo := addr.setWidth 32 })

/-- R132: `SAVEDATA` with a range inside RAM, and outside the unspecified case of R275: byte `i` of output row `r` is the
bitmap's byte, 0x00 outside the bitmap, and no other byte is changed. -/
def Obligations.SaveDataCopiesTheRegion : Prop :=
  ∀ (x y w h addr : Half) (s : State) (n ha : Nat),
    s.Sound → n = w.toNat / 8 → ha = (if s.cfg.saveTruncHeight then 8 * (h.toNat / 8) else h.toNat) →
    0 < w.toInt → 0 < h.toInt → 1 ≤ n → 1 ≤ ha → addr.toNat + n * ha ≤ 65536 →
    apart addr.toNat (n * ha) s.targetBase 1600 →
    ∃ m', exec (.saveData x y w h addr) s = .next { s with ram := m' } ∧
      SameOutside s.ram m' addr.toNat (n * ha) ∧
      ∀ r i : Nat, r < ha → i < n →
        m'.byteAt (addr.toNat + r * n + i) =
          if 0 ≤ x.toInt / 8 + i ∧ x.toInt / 8 + i ≤ 19 ∧ 0 ≤ y.toInt + r ∧ y.toInt + r ≤ 79 then
            s.ram.byteAt (s.targetBase + 20 * (y.toInt + r).toNat + (x.toInt / 8 + i).toNat)
          else 0x00

/-- R132: the block `SAVEDATA` wrote, drawn by `DRAWDATA` in COPY mode at the aligned place, on any later state that still
holds it, puts the same pixels back. -/
def Obligations.SavedBlockDrawsBack : Prop :=
  ∀ (x y w h addr : Half) (s t u : State),
    s.Sound → 0 < w.toInt → 0 < h.toInt → 1 ≤ savedWidth w → 1 ≤ savedHeight s.cfg h →
    addr.toNat + savedWidth w * savedHeight s.cfg h ≤ 65536 →
    apart addr.toNat (savedWidth w * savedHeight s.cfg h) s.targetBase 1600 →
    exec (.saveData x y w h addr) s = .next t →
    u.Sound → u.cfg = s.cfg → u.target = s.target →
    (∀ j < savedWidth w * savedHeight s.cfg h, u.ram.byteAt (addr.toNat + j) = t.ram.byteAt (addr.toNat + j)) →
    ∃ m', exec (.drawData (BitVec.ofInt 16 (8 * (x.toInt / 8))) y (BitVec.ofNat 16 (8 * savedWidth w))
        (BitVec.ofNat 16 (savedHeight s.cfg h)) (addr.setWidth 24) 0x01) u = .next { u with ram := m' } ∧
      ∀ px py : Nat, px < 160 → py < 80 →
        8 * (x.toInt / 8) ≤ px → px < 8 * (x.toInt / 8) + 8 * savedWidth w →
        y.toInt ≤ py → py < y.toInt + savedHeight s.cfg h →
        m'.px s.targetBase px py = s.ram.px s.targetBase px py

/-- R134: `RENDER`, and that it has the effect of `MEMCOPY GRAPH_BASE, BUF_BASE, 1600`. -/
def Obligations.RenderCopiesBufferToGraphics : Prop :=
  encode .render = [0x12] ∧ WrongLengthFaults 0x12 1 ∧
  ∀ s : State, s.Sound →
    ∃ m', exec .render s = .next { s with ram := m' } ∧
      (∀ i < 1600, m'.byteAt (s.cfg.graphBase + i) = s.ram.byteAt (s.cfg.bufBase + i)) ∧
      SameOutside s.ram m' s.cfg.graphBase 1600 ∧
      exec (.memCopy (BitVec.ofNat 16 s.cfg.graphBase) (BitVec.ofNat 16 s.cfg.bufBase) 1600) s = exec .render s

/-- R275, with the model's free values (log 5, 6, 7): a command whose operands meet what it works on goes on without
fault; the bytes and the cursor the rule leaves open are free, everything else is as the rule says. -/
def Obligations.OverlapLeavesOnlyItsRangesOpen : Prop :=
  (∀ (x y w h : Half) (addr : Addr24) (flags : Byte) (f : BlitFlags) (s : State), s.Sound → readFlags flags = some f →
    f.space = .ram → 0 < w.toInt → 0 < h.toInt → addr.toNat + (w.toNat + 7) / 8 * h.toNat ≤ 65536 →
    ¬ apart addr.toNat ((w.toNat + 7) / 8 * h.toNat) s.targetBase 1600 →
    ∃ m', exec (.drawData x y w h addr flags) s = .next { s with ram := m', draws := s.draws + 1 } ∧
      SameOutside s.ram m' s.targetBase 1600) ∧
  (∀ (x y w h addr : Half) (s : State) (n : Nat), s.Sound → n = savedWidth w * savedHeight s.cfg h →
    0 < w.toInt → 0 < h.toInt → 1 ≤ n → addr.toNat + n ≤ 65536 → ¬ apart addr.toNat n s.targetBase 1600 →
    ∃ m', exec (.saveData x y w h addr) s = .next { s with ram := m', draws := s.draws + 1 } ∧
      ∀ a, (a < s.targetBase ∨ s.targetBase + 1600 ≤ a) → (a < addr.toNat ∨ addr.toNat + n ≤ a) →
        m'.byteAt a = s.ram.byteAt a) ∧
  (∀ (addr count : Half) (s : State), s.Sound → 0 < count.toNat → addr.toNat + count.toNat ≤ 65536 →
    loneLead (s.ram.loadBytes addr.toNat count.toNat) = none →
    ¬ apart addr.toNat count.toNat s.cfg.textBase (s.rows * s.cols) →
    ∃ m' row col, exec (.txtBytes addr count) s =
        .next { s with ram := m', curRow := row, curCol := col, draws := s.draws + 1 } ∧
      row.toNat < s.rows ∧ col.toNat < s.cols ∧ SameOutside s.ram m' s.cfg.textBase (s.rows * s.cols))

/-! ### Shapes -/

/-- R152: `DRAWPOINT`. -/
def Obligations.DrawPointPlotsOnePoint : Prop :=
  (∀ x y sm, encode (.drawPoint x y sm) =
    [0x20, x.setWidth 8, (x >>> 8).setWidth 8, y.setWidth 8, (y >>> 8).setWidth 8, sm]) ∧
  WrongLengthFaults 0x20 6 ∧
  ∀ (x y : Half) (sm : Byte) (s : State),
    (3 ≤ sm.toNat → exec (.drawPoint x y sm) s = .next { s with status := 2, faultInfo := sm.setWidth 32 }) ∧
    ∀ dm, s.Sound → sm.toNat < 3 → dm = [.clear, .normal, .invert].getD sm.toNat .clear →
      PlotsOnTarget (.drawPoint x y sm) s dm fun px py => px = x.toInt ∧ py = y.toInt

/-- R154: `DRAWLINE` plots `LinePts`. -/
def Obligations.DrawLinePlotsTheLine : Prop :=
  (∀ x0 y0 x1 y1 sm, encode (.drawLine x0 y0 x1 y1 sm) =
    [0x21, x0.setWidth 8, (x0 >>> 8).setWidth 8, y0.setWidth 8, (y0 >>> 8).setWidth 8, x1.setWidth 8,
      (x1 >>> 8).setWidth 8, y1.setWidth 8, (y1 >>> 8).setWidth 8, sm]) ∧
  WrongLengthFaults 0x21 10 ∧
  ∀ (x0 y0 x1 y1 : Half) (sm : Byte) (s : State),
    (3 ≤ sm.toNat → exec (.drawLine x0 y0 x1 y1 sm) s = .next { s with status := 2, faultInfo := sm.setWidth 32 }) ∧
    ∀ dm, s.Sound → sm.toNat < 3 → dm = [.clear, .normal, .invert].getD sm.toNat .clear →
      PlotsOnTarget (.drawLine x0 y0 x1 y1 sm) s dm fun px py =>
        (px, py) ∈ linePts x0.toInt y0.toInt x1.toInt y1.toInt

/-- R153: the closed form of `LinePts` and the incremental form emit the same points in the same order; there are
`max(dx, dy) + 1` of them, from the first end point to the second. -/
def Obligations.IncrementalLineIsTheClosedForm : Prop :=
  ∀ x0 y0 x1 y1 : Int,
    bresenhamPts x0 y0 x1 y1 = linePts x0 y0 x1 y1 ∧
    (linePts x0 y0 x1 y1).length = max (x1 - x0).natAbs (y1 - y0).natAbs + 1 ∧
    (linePts x0 y0 x1 y1).head? = some (x0, y0) ∧ (linePts x0 y0 x1 y1).getLast? = some (x1, y1)

/-- R156, R155: `DRAWRECT` plots `RectSet`. -/
def Obligations.DrawRectPlotsTheRectangle : Prop :=
  (∀ x0 y0 x1 y1 sm, encode (.drawRect x0 y0 x1 y1 sm) =
    [0x22, x0.setWidth 8, (x0 >>> 8).setWidth 8, y0.setWidth 8, (y0 >>> 8).setWidth 8, x1.setWidth 8,
      (x1 >>> 8).setWidth 8, y1.setWidth 8, (y1 >>> 8).setWidth 8, sm]) ∧
  WrongLengthFaults 0x22 10 ∧
  ∀ (x0 y0 x1 y1 : Half) (sm : Byte) (s : State),
    (sm.toNat % 4 = 3 ∨ 8 ≤ sm.toNat →
      exec (.drawRect x0 y0 x1 y1 sm) s = .next { s with status := 2, faultInfo := sm.setWidth 32 }) ∧
    ∀ dm, s.Sound → sm.toNat % 4 < 3 → sm.toNat < 8 → dm = [.clear, .normal, .invert].getD (sm.toNat % 4) .clear →
      PlotsOnTarget (.drawRect x0 y0 x1 y1 sm) s dm
        (RectSet x0.toInt y0.toInt x1.toInt y1.toInt (sm.getLsbD 2))

/-- R159, R158: `DRAWOVAL` plots `OvalSet`; the mode byte is checked before the radii, `rx` before `ry`. -/
def Obligations.DrawOvalPlotsTheOval : Prop :=
  (∀ cx cy rx ry sm, encode (.drawOval cx cy rx ry sm) =
    [0x23, cx.setWidth 8, (cx >>> 8).setWidth 8, cy.setWidth 8, (cy >>> 8).setWidth 8, rx.setWidth 8,
      (rx >>> 8).setWidth 8, ry.setWidth 8, (ry >>> 8).setWidth 8, sm]) ∧
  WrongLengthFaults 0x23 10 ∧
  ∀ (cx cy rx ry : Half) (sm : Byte) (s : State),
    (sm.toNat % 4 = 3 ∨ 8 ≤ sm.toNat →
      exec (.drawOval cx cy rx ry sm) s = .next { s with status := 2, faultInfo := sm.setWidth 32 }) ∧
    (sm.toNat % 4 < 3 → sm.toNat < 8 →
      (rx.toInt < 0 → exec (.drawOval cx cy rx ry sm) s = .next { s with status := 2, faultInfo := rx.setWidth 32 }) ∧
      (0 ≤ rx.toInt → ry.toInt < 0 →
        exec (.drawOval cx cy rx ry sm) s = .next { s with status := 2, faultInfo := ry.setWidth 32 }) ∧
      ∀ dm, s.Sound → 0 ≤ rx.toInt → 0 ≤ ry.toInt → dm = [.clear, .normal, .invert].getD (sm.toNat % 4) .clear →
        PlotsOnTarget (.drawOval cx cy rx ry sm) s dm
          (OvalSet cx.toInt cy.toInt rx.toNat ry.toNat (sm.getLsbD 2)))

/-- R157: the first quadrant point is `(0, b)`, the last has `qy = 0`, `qy` falls by at most 1 from point to point, and more
steps than the model allows pass 1 would change nothing. -/
def Obligations.OvalQuadrantPointsDescend : Prop :=
  ∀ a b : Nat,
    (ovalQuad a b).head? = some (0, b) ∧ (∃ x, (ovalQuad a b).getLast? = some (x, 0)) ∧
    (ovalQuad a b).IsChain (fun p q => p.1 ≤ q.1 ∧ q.1 ≤ p.1 + 1 ∧ q.2 ≤ p.2 ∧ p.2 ≤ q.2 + 1) ∧
    (1 ≤ a → 1 ≤ b → ∀ n, a * a + 1 ≤ n →
      ovalPass1 (a * a) (b * b) n 0 b (4 * (b * b) - 4 * (a * a) * b + a * a) = ovalQuad a b)

/-- R151: drawing the same Invert shape twice restores the whole state. -/
def Obligations.InvertShapeTwiceRestores : Prop :=
  ∀ (i : Instr) (s t : State), s.Sound → invertShape i = true → exec i s = .next t → exec i t = .next s

/-- R160: `TESTPOINT` reads the graphics bitmap, whatever `TARGET` is. -/
def Obligations.TestPointReadsGraphics : Prop :=
  (∀ x y, encode (.testPoint x y) = [0x24, x.setWidth 8, (x >>> 8).setWidth 8, y.setWidth 8, (y >>> 8).setWidth 8]) ∧
  WrongLengthFaults 0x24 5 ∧
  ∀ (x y : Half) (s : State), exec (.testPoint x y) s =
    .next { s with result :=
      if 0 ≤ x.toInt ∧ x.toInt < 160 ∧ 0 ≤ y.toInt ∧ y.toInt < 80 then
        (if s.ram.px s.cfg.graphBase x.toInt.toNat y.toInt.toNat then 1 else 0)
      else 0 }

/-! ### Whole-bitmap operations -/

/-- R180: `SCROLL`, in pixels. -/
def Obligations.ScrollMovesOnePixel : Prop :=
  (∀ dir, encode (.scroll dir) = [0x30, dir]) ∧ WrongLengthFaults 0x30 2 ∧
  ∀ (dir : Byte) (s : State),
    (2 ≤ dir.toNat → exec (.scroll dir) s = .next { s with status := 2, faultInfo := dir.setWidth 32 }) ∧
    (s.Sound → dir.toNat < 2 → ∃ m', exec (.scroll dir) s = .next { s with ram := m' } ∧
      SameOutside s.ram m' s.targetBase 1600 ∧
      ∀ px py : Nat, px < 160 → py < 80 →
        m'.px s.targetBase px py =
          if dir = 0 then decide (px < 159) && s.ram.px s.targetBase (px + 1) py
          else decide (0 < px) && s.ram.px s.targetBase (px - 1) py)

/-- R181: `MIRROR`, in pixels; either mirror applied twice restores the bitmap, and with it the state. -/
def Obligations.MirrorReversesTheBitmap : Prop :=
  (∀ dir, encode (.mirror dir) = [0x31, dir]) ∧ WrongLengthFaults 0x31 2 ∧
  ∀ (dir : Byte) (s : State),
    (2 ≤ dir.toNat → exec (.mirror dir) s = .next { s with status := 2, faultInfo := dir.setWidth 32 }) ∧
    (s.Sound → dir.toNat < 2 → ∃ m', exec (.mirror dir) s = .next { s with ram := m' } ∧
      SameOutside s.ram m' s.targetBase 1600 ∧
      ∀ px py : Nat, px < 160 → py < 80 →
        m'.px s.targetBase px py =
          if dir = 0 then s.ram.px s.targetBase (159 - px) py else s.ram.px s.targetBase px (79 - py)) ∧
    (s.Sound → dir.toNat < 2 → ∀ t, exec (.mirror dir) s = .next t → exec (.mirror dir) t = .next s)

/-- R182: bit `i` of `rev8(v)` is bit `7 - i` of `v`; as a number; and twice is nothing. -/
def Obligations.Rev8ReversesBits : Prop :=
  ∀ v : Byte, (∀ i < 8, (rev8 v).getLsbD i = v.getLsbD (7 - i)) ∧
    (rev8 v).toNat = ((List.range 8).map fun i => (v.getLsbD i).toNat * 2 ^ (7 - i)).sum ∧ rev8 (rev8 v) = v

/-! ### Memory commands -/

/-- R190: `MEMFILL`. -/
def Obligations.MemFillFillsTheRange : Prop :=
  (∀ addr count value, encode (.memFill addr count value) =
    [0x38, addr.setWidth 8, (addr >>> 8).setWidth 8, count.setWidth 8, (count >>> 8).setWidth 8, value]) ∧
  WrongLengthFaults 0x38 6 ∧
  ∀ (addr count : Half) (value : Byte) (s : State),
    (count = 0 → exec (.memFill addr count value) s = .next s) ∧
    (count ≠ 0 → 65536 < addr.toNat + count.toNat →
      exec (.memFill addr count value) s = .next { s with status := 3, faultInfo := addr.setWidth 32 }) ∧
    (s.ram.wf = true → count ≠ 0 → addr.toNat + count.toNat ≤ 65536 →
      ∃ m', exec (.memFill addr count value) s = .next { s with ram := m' } ∧
        (∀ i < count.toNat, m'.byteAt (addr.toNat + i) = value) ∧ SameOutside s.ram m' addr.toNat count.toNat)

/-- R191: `MEMCOPY`. -/
def Obligations.MemCopyMovesTheRange : Prop :=
  (∀ dest src count, encode (.memCopy dest src count) =
    [0x39, dest.setWidth 8, (dest >>> 8).setWidth 8, src.setWidth 8, (src >>> 8).setWidth 8, count.setWidth 8,
      (count >>> 8).setWidth 8]) ∧
  WrongLengthFaults 0x39 7 ∧
  ∀ (dest src count : Half) (s : State),
    (count = 0 → exec (.memCopy dest src count) s = .next s) ∧
    (count ≠ 0 → 65536 < src.toNat + count.toNat →
      exec (.memCopy dest src count) s = .next { s with status := 3, faultInfo := src.setWidth 32 }) ∧
    (count ≠ 0 → src.toNat + count.toNat ≤ 65536 → 65536 < dest.toNat + count.toNat →
      exec (.memCopy dest src count) s = .next { s with status := 3, faultInfo := dest.setWidth 32 }) ∧
    (s.ram.wf = true → count ≠ 0 → src.toNat + count.toNat ≤ 65536 → dest.toNat + count.toNat ≤ 65536 →
      ∃ m', exec (.memCopy dest src count) s = .next { s with ram := m' } ∧
        m' = s.ram.copyByElements dest.toNat src.toNat count.toNat ∧
        (∀ i < count.toNat, m'.byteAt (dest.toNat + i) = s.ram.byteAt (src.toNat + i)) ∧
        SameOutside s.ram m' dest.toNat count.toNat)

/-- R101: `ZEROSEG` clears its segment and nothing else. -/
def Obligations.ZeroSegClearsItsSegment : Prop :=
  ∀ (seg : SegmentName) (s : State), s.Sound →
    ∃ m', exec (zeroSeg s.cfg seg) s = .next { s with ram := m' } ∧
      (∀ i < (seg.segment s.cfg).length, m'.byteAt ((seg.segment s.cfg).base + i) = 0x00) ∧
      SameOutside s.ram m' (seg.segment s.cfg).base (seg.segment s.cfg).length

/-- R102: `CLS` clears the target bitmap and nothing else. -/
def Obligations.ClsClearsTheTarget : Prop :=
  ∀ s : State, s.Sound →
    ∃ m', exec cls s = .next { s with ram := m' } ∧
      (∀ i < 1600, m'.byteAt (s.targetBase + i) = 0x00) ∧ SameOutside s.ram m' s.targetBase 1600

/-! ### Text -/

/-- R208: `NewLine()`. -/
def Obligations.NewLineAdvancesOrScrolls : Prop :=
  ∀ s : State, s.Sound → s.Inv →
    (s.curRow.toNat + 1 < s.rows →
      s.newLine = { s with curCol := 0, curRow := BitVec.ofNat 3 (s.curRow.toNat + 1) }) ∧
    (s.curRow.toNat + 1 = s.rows → ∃ m', s.newLine = { s with ram := m', curCol := 0 } ∧
      (∀ r c, r + 1 < s.rows → c < s.cols → m'.byteAt (s.cell r c) = s.ram.byteAt (s.cell (r + 1) c)) ∧
      (∀ c < s.cols, m'.byteAt (s.cell (s.rows - 1) c) = s.cfg.blank) ∧
      SameOutside s.ram m' s.cfg.textBase (s.rows * s.cols))

/-- R209: `PutCell(b)`. -/
def Obligations.PutCellStoresAndAdvances : Prop :=
  ∀ (s : State) (b : Byte), s.Sound → s.Inv →
    ∃ m', m'.byteAt (s.cell s.curRow.toNat s.curCol.toNat) = b ∧
      SameOutside s.ram m' (s.cell s.curRow.toNat s.curCol.toNat) 1 ∧
      (s.curCol.toNat + 1 < s.cols →
        s.putCell b = { s with ram := m', curCol := BitVec.ofNat 5 (s.curCol.toNat + 1) }) ∧
      (s.curCol.toNat + 1 = s.cols → s.putCell b = ({ s with ram := m' } : State).newLine)

/-- R211: `AddPair(b1, b2)`. -/
def Obligations.AddPairKeepsPairsTogether : Prop :=
  ∀ (s : State) (b1 b2 : Byte), s.Sound → s.Inv →
    (s.curCol.toNat = s.cols - 1 →
      s.addPair b1 b2 = (s.putCell 0x20).addPair b1 b2 ∧ (s.putCell 0x20).curCol = 0) ∧
    (s.curCol.toNat ≠ s.cols - 1 →
      ∃ m', m'.byteAt (s.cell s.curRow.toNat s.curCol.toNat) = b1 ∧
        m'.byteAt (s.cell s.curRow.toNat (s.curCol.toNat + 1)) = b2 ∧
        SameOutside s.ram m' (s.cell s.curRow.toNat s.curCol.toNat) 2 ∧
        (s.curCol.toNat + 2 < s.cols →
          s.addPair b1 b2 = { s with ram := m', curCol := BitVec.ofNat 5 (s.curCol.toNat + 2) }) ∧
        (s.curCol.toNat + 2 = s.cols → s.addPair b1 b2 = ({ s with ram := m' } : State).newLine))

/-- R213: `TXTMODE m`. -/
def Obligations.TxtModeBlanksTheGrid : Prop :=
  (∀ m, encode (.txtMode m) = [0x40, m]) ∧ WrongLengthFaults 0x40 2 ∧
  ∀ (m : Byte) (s : State),
    (2 ≤ m.toNat → exec (.txtMode m) s = .next { s with status := 2, faultInfo := m.setWidth 32 }) ∧
    (s.Sound → m.toNat < 2 → ∃ ram', exec (.txtMode m) s =
        .next { s with txtMode := BitVec.ofNat 1 m.toNat, curRow := 0, curCol := 0, ram := ram' } ∧
      (∀ i < s.cfg.textLen, ram'.byteAt (s.cfg.textBase + i) = s.cfg.blank) ∧
      SameOutside s.ram ram' s.cfg.textBase s.cfg.textLen)

/-- R214: `TXTLOC row, col`. -/
def Obligations.TxtLocClampsTheCursor : Prop :=
  (∀ row col, encode (.txtLoc row col) =
    [0x41, row.setWidth 8, (row >>> 8).setWidth 8, col.setWidth 8, (col >>> 8).setWidth 8]) ∧
  WrongLengthFaults 0x41 5 ∧
  ∀ (row col : Half) (s : State), ∃ r c, exec (.txtLoc row col) s = .next { s with curRow := r, curCol := c } ∧
    (r.toNat : Int) = min (max row.toInt 0) (s.rows - 1) ∧ (c.toNat : Int) = min (max col.toInt 0) (s.cols - 1)

/-- R215, R210: `TXTBYTE b`. -/
def Obligations.TxtByteAppendsOneCharacter : Prop :=
  (∀ b, encode (.txtByte b) = [0x42, b]) ∧ WrongLengthFaults 0x42 2 ∧
  ∀ (b : Byte) (s : State),
    (0x80 ≤ b.toNat → exec (.txtByte b) s = .next { s with status := 2, faultInfo := b.setWidth 32 }) ∧
    (b = 0x0D → exec (.txtByte b) s = .next s) ∧
    (b = 0x0A → exec (.txtByte b) s = .next s.newLine) ∧
    (b = 0x09 → exec (.txtByte b) s = .next (s.putCell 0x20)) ∧
    (b.toNat < 0x80 → b ≠ 0x0D → b ≠ 0x0A → b ≠ 0x09 → exec (.txtByte b) s = .next (s.putCell b))

/-- R216, R212, outside the unspecified case of R275: a sequence of one-byte characters and pairs is added unit by unit; one
that ends in a lone lead byte is refused as a whole. That this check comes before the unspecified
case is the model's reading (log 6). -/
def Obligations.TxtBytesAppendsTheSequence : Prop :=
  (∀ addr count, encode (.txtBytes addr count) =
    [0x43, addr.setWidth 8, (addr >>> 8).setWidth 8, count.setWidth 8, (count >>> 8).setWidth 8]) ∧
  WrongLengthFaults 0x43 5 ∧
  ∀ (addr count : Half) (s : State),
    (count = 0 → exec (.txtBytes addr count) s = .next s) ∧
    (count ≠ 0 → 65536 < addr.toNat + count.toNat →
      exec (.txtBytes addr count) s = .next { s with status := 3, faultInfo := addr.setWidth 32 }) ∧
    (count ≠ 0 → addr.toNat + count.toNat ≤ 65536 → ∀ units : List TextToken, (∀ u ∈ units, u.ok = true) →
      (s.ram.loadBytes addr.toNat count.toNat = units.flatMap TextToken.bytes →
        apart addr.toNat count.toNat s.cfg.textBase (s.rows * s.cols) →
        exec (.txtBytes addr count) s = .next (units.foldl TextToken.add s)) ∧
      (∀ b : Byte, 0x80 ≤ b.toNat → s.ram.loadBytes addr.toNat count.toNat = units.flatMap TextToken.bytes ++ [b] →
        exec (.txtBytes addr count) s = .next { s with status := 2, faultInfo := b.setWidth 32 }))

/-- R203, R224: every glyph offset lies, with its whole glyph, inside the font ROM. -/
def Obligations.GlyphsLieInsideTheFont : Prop :=
  ∀ (c : Params) (mode : BitVec 1) (b b1 b2 : Byte) (off : Nat),
    (glyphOff1 c mode b = some off → b.toNat < 0x80 ∧ off + (if mode = 0 then 16 else 12) ≤ fontLen c) ∧
    (glyphOff2 c mode b1 b2 = some off →
      (0xA1 ≤ b1.toNat ∧ b1.toNat ≤ 0xFE ∧ 0xA1 ≤ b2.toNat ∧ b2.toNat ≤ 0xFE) ∧
      off + (if mode = 0 then 32 else 24) ≤ fontLen c)

/-- R223, R224: after `TXTRENDER` every cell and every pair of a row that is not skipped shows its glyph, and is blank
where there is none. Whether a row without a mask bit is skipped is a
free value (log 10). -/
def Obligations.TxtRenderDrawsEveryGlyph : Prop :=
  (∀ mask, encode (.txtRender mask) = [0x44, mask.setWidth 8, (mask >>> 8).setWidth 8]) ∧ WrongLengthFaults 0x44 3 ∧
  ∀ (mask : Half) (s : State), s.Sound →
    ∃ m', exec (.txtRender mask) s = .next { s with ram := m' } ∧ SameOutside s.ram m' s.cfg.graphBase 1600 ∧
      ∀ r c : Nat, r < s.rows → c < s.cols → rowSkipped s.cfg mask r = false →
        let row := fun k => s.ram.byteAt (s.cell r k)
        let X := gridOrigin s.txtMode + cellWidth s.txtMode * c
        let Y := gridOrigin s.txtMode + rowPitch s.txtMode * r
        startsCell row s.cols c = true →
        (pairAt row s.cols c = true → ∀ dx dy, dx < 2 * cellWidth s.txtMode → dy < glyphHeight s.txtMode →
          m'.px s.cfg.graphBase (X + dx) (Y + dy) =
            glyphPixel s.cfg (glyphOff2 s.cfg s.txtMode (row c) (row (c + 1))) 2 dx dy) ∧
        (pairAt row s.cols c = false → ∀ dx dy, dx < cellWidth s.txtMode → dy < glyphHeight s.txtMode →
          m'.px s.cfg.graphBase (X + dx) (Y + dy) = glyphPixel s.cfg (glyphOff1 s.cfg s.txtMode (row c)) 1 dx dy)

/-- R221, R222, R224: `TXTRENDER` leaves every pixel outside the cells of the rows it draws as it was, but for the small
mode's border and gap lines, which it clears. Whether a row without a mask bit
is skipped is a free value (log 10). -/
def Obligations.TxtRenderKeepsOtherPixels : Prop :=
  ∀ (mask : Half) (s : State), s.Sound →
    ∃ m', exec (.txtRender mask) s = .next { s with ram := m' } ∧
      ∀ px py : Nat, px < 160 → py < 80 →
        (∀ r < s.rows, rowSkipped s.cfg mask r = false →
          ¬ (gridOrigin s.txtMode ≤ px ∧ px < gridOrigin s.txtMode + cellWidth s.txtMode * s.cols ∧
            gridOrigin s.txtMode + rowPitch s.txtMode * r ≤ py ∧
            py < gridOrigin s.txtMode + rowPitch s.txtMode * r + glyphHeight s.txtMode)) →
        m'.px s.cfg.graphBase px py =
          if s.txtMode = 1 ∧ (px = 0 ∨ px = 159 ∨ py = 79 ∨ py % 13 = 0) then false
          else s.ram.px s.cfg.graphBase px py
end

