-- ==== Sys2Proof/Laws/Memory.lean ====
section
/-! SUPPORT. The laws of RAM: the canonical form is kept by every memory operation, equal bytes are equal memories, and
what a store leaves at every address. -/

namespace Sys2Proof.Machine

/-! ### The canonical form -/

theorem Memory.wfFrom_nil (lo : Nat) : Memory.wfFrom lo [] = true := rfl

theorem Memory.wfFrom_cons {lo a : Nat} {v : Byte} {m : Memory} :
    Memory.wfFrom lo ((a, v) :: m) = true ↔
      lo ≤ a ∧ a < 65536 ∧ v ≠ Memory.unlisted ∧ Memory.wfFrom (a + 1) m = true := by
  simp [Memory.wfFrom, and_assoc]

theorem Memory.wfFrom_mono {lo lo' : Nat} {m : Memory} (h : lo' ≤ lo) (hm : Memory.wfFrom lo m = true) :
    Memory.wfFrom lo' m = true := by
  cases m with
  | nil => rfl
  | cons p m =>
    obtain ⟨a, v⟩ := p
    rw [Memory.wfFrom_cons] at hm ⊢
    exact ⟨by omega, hm.2⟩

theorem Memory.wf_empty : Memory.empty.wf = true := rfl

/-- An address below every listed one reads as an unlisted address. -/
theorem Memory.byteAt_of_lt {lo a : Nat} {m : Memory} (hm : Memory.wfFrom lo m = true) (h : a < lo) :
    m.byteAt a = Memory.unlisted := by
  cases m with
  | nil => rfl
  | cons p m =>
    obtain ⟨b, v⟩ := p
    rw [Memory.wfFrom_cons] at hm
    simp [Memory.byteAt, show a ≠ b by omega, show a < b by omega]

/-- There is no byte at 65536 or above. -/
theorem Memory.byteAt_of_ge {lo a : Nat} {m : Memory} (hm : Memory.wfFrom lo m = true) (h : 65536 ≤ a) :
    m.byteAt a = Memory.unlisted := by
  induction m generalizing lo with
  | nil => rfl
  | cons p m ih =>
    obtain ⟨b, v⟩ := p
    rw [Memory.wfFrom_cons] at hm
    simp [Memory.byteAt, show a ≠ b by omega, ih hm.2.2.2]

/-- The byte at an address, the first cell having been taken off. -/
theorem Memory.byteAt_cons {b : Nat} {v : Byte} {m : Memory} (hm : Memory.wfFrom (b + 1) m = true) (a : Nat) :
    Memory.byteAt ((b, v) :: m) a = if a = b then v else m.byteAt a := by
  rw [Memory.byteAt]
  split
  · rfl
  · split
    · exact (Memory.byteAt_of_lt hm (by omega)).symm
    · rfl

/-- Two memories in canonical form that read the same everywhere are equal. -/
theorem Memory.ext_from {lo : Nat} {m m' : Memory} (hm : Memory.wfFrom lo m = true) (hm' : Memory.wfFrom lo m' = true)
    (h : ∀ a, m.byteAt a = m'.byteAt a) : m = m' := by
  induction m generalizing lo m' with
  | nil =>
    cases m' with
    | nil => rfl
    | cons p m' =>
      obtain ⟨b, v⟩ := p
      rw [Memory.wfFrom_cons] at hm'
      have := h b
      rw [Memory.byteAt_cons hm'.2.2.2] at this
      simp only [Memory.byteAt, ↓reduceIte] at this
      exact absurd this.symm hm'.2.2.1
  | cons p m ih =>
    obtain ⟨a, v⟩ := p
    rw [Memory.wfFrom_cons] at hm
    cases m' with
    | nil =>
      have := h a
      rw [Memory.byteAt_cons hm.2.2.2] at this
      simp only [Memory.byteAt, ↓reduceIte] at this
      exact absurd this hm.2.2.1
    | cons q m' =>
      obtain ⟨b, w⟩ := q
      rw [Memory.wfFrom_cons] at hm'
      have hb : a = b := by
        rcases Nat.lt_trichotomy a b with hlt | heq | hgt
        · have := h a
          rw [Memory.byteAt_cons hm.2.2.2, Memory.byteAt_cons hm'.2.2.2, if_pos rfl, if_neg (by omega),
            Memory.byteAt_of_lt hm'.2.2.2 (by omega)] at this
          exact absurd this hm.2.2.1
        · exact heq
        · have := h b
          rw [Memory.byteAt_cons hm.2.2.2, Memory.byteAt_cons hm'.2.2.2, if_pos rfl, if_neg (by omega),
            Memory.byteAt_of_lt hm.2.2.2 (by omega)] at this
          exact absurd this.symm hm'.2.2.1
      subst hb
      have hv : v = w := by
        have := h a
        rwa [Memory.byteAt_cons hm.2.2.2, Memory.byteAt_cons hm'.2.2.2, if_pos rfl, if_pos rfl] at this
      subst hv
      congr 1
      refine ih hm.2.2.2 hm'.2.2.2 fun x => ?_
      have := h x
      rw [Memory.byteAt_cons hm.2.2.2, Memory.byteAt_cons hm'.2.2.2] at this
      by_cases hx : x = a
      · subst hx
        rw [Memory.byteAt_of_lt hm.2.2.2 (by omega), Memory.byteAt_of_lt hm'.2.2.2 (by omega)]
      · rwa [if_neg hx, if_neg hx] at this

/-- Equal memories are equal data. -/
theorem Memory.ext {m m' : Memory} (hm : m.wf = true) (hm' : m'.wf = true) (h : ∀ a, m.byteAt a = m'.byteAt a) : m = m' :=
  Memory.ext_from hm hm' h

/-! ### The pieces of a store -/

theorem Memory.wfFrom_above {lo c : Nat} {m : Memory} (hm : Memory.wfFrom lo m = true) :
    Memory.wfFrom (max lo c) (Memory.above c m) = true := by
  induction m generalizing lo with
  | nil => rfl
  | cons p m ih =>
    obtain ⟨b, v⟩ := p
    have h' := Memory.wfFrom_cons.1 hm
    rw [Memory.above]
    split
    · exact Memory.wfFrom_mono (by omega) (ih h'.2.2.2)
    · exact Memory.wfFrom_cons.2 ⟨by omega, h'.2⟩

theorem Memory.byteAt_above {lo c : Nat} {m : Memory} (hm : Memory.wfFrom lo m = true) (a : Nat) :
    (Memory.above c m).byteAt a = if a < c then Memory.unlisted else m.byteAt a := by
  induction m generalizing lo with
  | nil => simp [Memory.above, Memory.byteAt]
  | cons p m ih =>
    obtain ⟨b, v⟩ := p
    have h' := Memory.wfFrom_cons.1 hm
    rw [Memory.above]
    split
    · rw [ih h'.2.2.2, Memory.byteAt_cons h'.2.2.2]
      split
      · rfl
      · rw [if_neg (by omega)]
    · split
      · exact Memory.byteAt_of_lt (lo := b) (Memory.wfFrom_cons.2 ⟨le_refl b, h'.2⟩) (by omega)
      · rfl

theorem Memory.wfFrom_cellsAt (a : Nat) (vs : List Byte) : Memory.wfFrom a (Memory.cellsAt a vs) = true := by
  induction vs generalizing a with
  | nil => rfl
  | cons v vs ih =>
    rw [Memory.cellsAt]
    split
    · rfl
    · split
      · exact Memory.wfFrom_mono (by omega) (ih (a + 1))
      · exact Memory.wfFrom_cons.2 ⟨le_refl a, by omega, by assumption, ih (a + 1)⟩

/-- The byte a cell in front leaves, kept or not. -/
theorem Memory.byteAt_consCell {a : Nat} {v : Byte} {q : Memory} (hq : Memory.wfFrom (a + 1) q = true) (x : Nat) :
    (if v = Memory.unlisted then q else (a, v) :: q).byteAt x = if x = a then v else q.byteAt x := by
  by_cases hv : v = Memory.unlisted
  · rw [if_pos hv]
    by_cases hx : x = a
    · rw [if_pos hx, hv]
      exact Memory.byteAt_of_lt hq (by omega)
    · rw [if_neg hx]
  · rw [if_neg hv, Memory.byteAt_cons hq]

theorem Memory.byteAt_cellsAt (a : Nat) (vs : List Byte) (x : Nat) :
    (Memory.cellsAt a vs).byteAt x =
      if a ≤ x ∧ x < a + vs.length ∧ x < 65536 then vs.getD (x - a) 0 else Memory.unlisted := by
  induction vs generalizing a with
  | nil =>
    rw [if_neg (by simp; omega)]
    rfl
  | cons v vs ih =>
    rw [Memory.cellsAt]
    by_cases ha : 65536 ≤ a
    · rw [if_pos ha, if_neg (by omega)]
      rfl
    · rw [if_neg ha, Memory.byteAt_consCell (Memory.wfFrom_cellsAt _ _), ih, List.length_cons]
      rcases Nat.lt_trichotomy x a with hx | hx | hx
      · rw [if_neg (by omega), if_neg (by omega), if_neg (by omega)]
      · subst hx
        rw [if_pos rfl, if_pos (by omega), Nat.sub_self, List.getD_cons_zero]
      · rw [if_neg (by omega), show x - a = (x - (a + 1)) + 1 by omega, List.getD_cons_succ]
        by_cases h : x < a + (vs.length + 1) ∧ x < 65536
        · rw [if_pos (by omega), if_pos (by omega)]
        · rw [if_neg (by omega), if_neg (by omega)]

/-- Cells below `c` in front of a memory whose cells are all at `c` or above. -/
theorem Memory.wfFrom_below_append {lo c : Nat} {m q : Memory} (hm : Memory.wfFrom lo m = true)
    (hq : Memory.wfFrom (max lo c) q = true) : Memory.wfFrom lo (Memory.below c m ++ q) = true := by
  induction m generalizing lo with
  | nil => exact Memory.wfFrom_mono (by omega) hq
  | cons p m ih =>
    obtain ⟨b, v⟩ := p
    have h' := Memory.wfFrom_cons.1 hm
    rw [Memory.below]
    split
    · rw [List.cons_append, Memory.wfFrom_cons]
      exact ⟨h'.1, h'.2.1, h'.2.2.1, ih h'.2.2.2 (by
        rw [show max (b + 1) c = c by omega]
        rwa [show max lo c = c by omega] at hq)⟩
    · exact Memory.wfFrom_mono (by omega) hq

theorem Memory.byteAt_below_append {lo c : Nat} {m q : Memory} (hm : Memory.wfFrom lo m = true)
    (hq : Memory.wfFrom c q = true) (a : Nat) :
    (Memory.below c m ++ q).byteAt a = if a < c then m.byteAt a else q.byteAt a := by
  induction m generalizing lo with
  | nil =>
    simp only [Memory.below, List.nil_append]
    split
    · exact Memory.byteAt_of_lt hq (by assumption)
    · rfl
  | cons p m ih =>
    obtain ⟨b, v⟩ := p
    have h' := Memory.wfFrom_cons.1 hm
    rw [Memory.below]
    split
    · have hw : Memory.wfFrom (b + 1) (Memory.below c m ++ q) = true :=
        Memory.wfFrom_below_append h'.2.2.2 (Memory.wfFrom_mono (by omega) hq)
      rw [List.cons_append, Memory.byteAt_cons hw, Memory.byteAt_cons h'.2.2.2, ih h'.2.2.2]
      by_cases h : a = b
      · subst h
        simp [show a < c by assumption]
      · simp [h]
    · rw [List.nil_append]
      split
      · rw [Memory.byteAt_of_lt hq (by assumption)]
        exact (Memory.byteAt_of_lt (lo := b) (Memory.wfFrom_cons.2 ⟨le_refl b, h'.2⟩) (by omega)).symm
      · rfl

theorem Memory.wfFrom_cellsAt_append {a n : Nat} {vs : List Byte} {q : Memory} (hn : n = a + vs.length)
    (hq : Memory.wfFrom n q = true) : Memory.wfFrom a (Memory.cellsAt a vs ++ q) = true := by
  induction vs generalizing a with
  | nil =>
    subst hn
    exact hq
  | cons v vs ih =>
    have ih' := ih (a := a + 1) (by simp at hn; omega)
    rw [Memory.cellsAt]
    split
    · rw [List.nil_append]
      exact Memory.wfFrom_mono (by simp at hn; omega) hq
    · split
      · exact Memory.wfFrom_mono (by omega) ih'
      · rw [List.cons_append, Memory.wfFrom_cons]
        exact ⟨le_refl a, by omega, by assumption, ih'⟩

theorem Memory.byteAt_cellsAt_append {a n : Nat} {vs : List Byte} {q : Memory} (hn : n = a + vs.length)
    (hq : Memory.wfFrom n q = true) (x : Nat) :
    (Memory.cellsAt a vs ++ q).byteAt x = if x < n then (Memory.cellsAt a vs).byteAt x else q.byteAt x := by
  induction vs generalizing a with
  | nil =>
    subst hn
    simp only [Memory.cellsAt, List.nil_append]
    split
    · exact Memory.byteAt_of_lt hq (by assumption)
    · rfl
  | cons v vs ih =>
    have hn' : n = a + 1 + vs.length := by simp at hn; omega
    have ih' := ih (a := a + 1) hn'
    rw [Memory.cellsAt]
    split
    · rw [List.nil_append]
      split
      · exact Memory.byteAt_of_lt hq (by assumption)
      · rfl
    · split
      · exact ih'
      · rw [List.cons_append, Memory.byteAt_cons (Memory.wfFrom_cellsAt_append hn' hq),
          Memory.byteAt_cons (Memory.wfFrom_cellsAt _ _), ih']
        by_cases h : x = a
        · subst h
          simp [show x < n by omega]
        · simp [h]

/-! ### What a store leaves -/

/-- A store keeps the canonical form. -/
theorem Memory.wf_storeBytes {m : Memory} (hm : m.wf = true) (a : Nat) (vs : List Byte) : (m.storeBytes a vs).wf = true := by
  refine Memory.wfFrom_below_append hm ?_
  rw [Nat.zero_max]
  exact Memory.wfFrom_cellsAt_append rfl (Memory.wfFrom_mono (Nat.le_max_right _ _) (Memory.wfFrom_above hm))

/-- What every address reads after a store. -/
theorem Memory.byteAt_storeBytes {m : Memory} (hm : m.wf = true) (a : Nat) (vs : List Byte) (x : Nat) :
    (m.storeBytes a vs).byteAt x =
      if a ≤ x ∧ x < a + vs.length ∧ x < 65536 then vs.getD (x - a) 0 else m.byteAt x := by
  have habove : Memory.wfFrom (a + vs.length) (Memory.above (a + vs.length) m) = true :=
    Memory.wfFrom_mono (Nat.le_max_right _ _) (Memory.wfFrom_above hm)
  rw [Memory.storeBytes, Memory.byteAt_below_append hm (Memory.wfFrom_cellsAt_append rfl habove),
    Memory.byteAt_cellsAt_append rfl habove, Memory.byteAt_cellsAt, Memory.byteAt_above hm]
  by_cases h1 : x < a
  · rw [if_pos h1, if_neg (by omega)]
  · rw [if_neg h1]
    by_cases h2 : x < a + vs.length
    · rw [if_pos h2]
      by_cases h3 : x < 65536
      · rw [if_pos (by omega), if_pos (by omega)]
      · rw [if_neg (by omega), if_neg (by omega), Memory.byteAt_of_ge hm (by omega)]
    · rw [if_neg h2, if_neg h2, if_neg (by omega)]

/-- A store leaves every address outside the stored bytes alone. -/
theorem Memory.byteAt_storeBytes_outside {m : Memory} (hm : m.wf = true) {a : Nat} {vs : List Byte} {x : Nat}
    (h : x < a ∨ a + vs.length ≤ x) : (m.storeBytes a vs).byteAt x = m.byteAt x := by
  rw [Memory.byteAt_storeBytes hm, if_neg (by omega)]

/-- A byte stored inside RAM reads back. -/
theorem Memory.byteAt_storeBytes_inside {m : Memory} (hm : m.wf = true) {a : Nat} {vs : List Byte} {i : Nat}
    (hi : i < vs.length) (ha : a + i < 65536) : (m.storeBytes a vs).byteAt (a + i) = vs.getD i 0 := by
  rw [Memory.byteAt_storeBytes hm, if_pos (by omega), Nat.add_sub_cancel_left]

theorem Memory.wf_setByte {m : Memory} (hm : m.wf = true) (a : Nat) (v : Byte) : (m.setByte a v).wf = true :=
  Memory.wf_storeBytes hm a [v]

theorem Memory.byteAt_setByte {m : Memory} (hm : m.wf = true) (a : Nat) (v : Byte) (x : Nat) :
    (m.setByte a v).byteAt x = if x = a ∧ x < 65536 then v else m.byteAt x := by
  rw [Memory.setByte, Memory.byteAt_storeBytes hm]
  by_cases h : x = a
  · subst h
    simp
  · rw [if_neg (by simp; omega), if_neg (by omega)]

/-- Storing the bytes of a function of the offset. -/
theorem Memory.byteAt_storeRange {m : Memory} (hm : m.wf = true) {a n : Nat} (f : Nat → Byte) (x : Nat)
    (hn : a + n ≤ 65536) :
    (m.storeBytes a ((List.range n).map f)).byteAt x = if a ≤ x ∧ x < a + n then f (x - a) else m.byteAt x := by
  rw [Memory.byteAt_storeBytes hm]
  simp only [List.length_map, List.length_range]
  by_cases h : a ≤ x ∧ x < a + n
  · rw [if_pos (by omega), if_pos h, List.getD_eq_getElem?_getD, List.getElem?_map, List.getElem?_range (by omega)]
    rfl
  · rw [if_neg (by omega), if_neg h]

@[simp] theorem Memory.length_loadBytes (m : Memory) (a n : Nat) : (m.loadBytes a n).length = n := by
  simp [Memory.loadBytes]

theorem Memory.getD_loadBytes (m : Memory) (a : Nat) {n i : Nat} (hi : i < n) :
    (m.loadBytes a n).getD i 0 = m.byteAt (a + i) := by
  rw [Memory.loadBytes, List.getD_eq_getElem?_getD, List.getElem?_map, List.getElem?_range hi]
  rfl

/-- What every address reads after the bytes at `src` have been stored at `dest` (R58). -/
theorem Memory.byteAt_storeLoad {m : Memory} (hm : m.wf = true) {dest src n : Nat} (x : Nat) (hn : dest + n ≤ 65536) :
    (m.storeBytes dest (m.loadBytes src n)).byteAt x =
      if dest ≤ x ∧ x < dest + n then m.byteAt (src + (x - dest)) else m.byteAt x :=
  Memory.byteAt_storeRange hm _ x hn

/-- What every address reads after a fill (R57). -/
theorem Memory.byteAt_storeReplicate {m : Memory} (hm : m.wf = true) {a n : Nat} (v : Byte) (x : Nat) (hn : a + n ≤ 65536) :
    (m.storeBytes a (List.replicate n v)).byteAt x = if a ≤ x ∧ x < a + n then v else m.byteAt x := by
  rw [Memory.byteAt_storeBytes hm, List.length_replicate]
  by_cases h : a ≤ x ∧ x < a + n
  · rw [if_pos (by omega), if_pos h, List.getD_eq_getElem?_getD, List.getElem?_replicate, if_pos (by omega)]
    rfl
  · rw [if_neg (by omega), if_neg h]

/-! ### The primitives that may fault -/

theorem Memory.memWrite_ok {m m' : Memory} {addr : Nat} {w : Width} {v : Int} (h : m.memWrite addr w v = .ok m') :
    addr + w.bytes ≤ 65536 ∧ m' = m.storeBytes addr (littleEndianBytes w.bytes v) := by
  unfold Memory.memWrite at h
  split at h
  · cases h
  · cases h
    exact ⟨by omega, rfl⟩

theorem Memory.fill_cases (m : Memory) (addr count : Nat) (value : Byte) :
    (count = 0 ∧ m.fill addr count value = .ok m) ∨
    (count ≠ 0 ∧ 65536 < addr + count ∧ m.fill addr count value = .error { addr }) ∨
    (count ≠ 0 ∧ addr + count ≤ 65536 ∧ m.fill addr count value = .ok (m.storeBytes addr (List.replicate count value))) := by
  unfold Memory.fill
  by_cases h0 : count = 0
  · exact .inl ⟨h0, if_pos h0⟩
  · by_cases h1 : addr + count > 65536
    · exact .inr (.inl ⟨h0, h1, by rw [if_neg h0, if_pos h1]⟩)
    · exact .inr (.inr ⟨h0, by omega, by rw [if_neg h0, if_neg h1]⟩)

theorem Memory.copy_cases (m : Memory) (dest src count : Nat) :
    (count = 0 ∧ m.copy dest src count = .ok m) ∨
    (count ≠ 0 ∧ 65536 < src + count ∧ m.copy dest src count = .error { addr := src }) ∨
    (count ≠ 0 ∧ src + count ≤ 65536 ∧ 65536 < dest + count ∧ m.copy dest src count = .error { addr := dest }) ∨
    (count ≠ 0 ∧ src + count ≤ 65536 ∧ dest + count ≤ 65536 ∧
      m.copy dest src count = .ok (m.storeBytes dest (m.loadBytes src count))) := by
  unfold Memory.copy
  by_cases h0 : count = 0
  · exact .inl ⟨h0, if_pos h0⟩
  · by_cases h1 : src + count > 65536
    · exact .inr (.inl ⟨h0, h1, by rw [if_neg h0, if_pos h1]⟩)
    · by_cases h2 : dest + count > 65536
      · exact .inr (.inr (.inl ⟨h0, by omega, h2, by rw [if_neg h0, if_neg h1, if_pos h2]⟩))
      · exact .inr (.inr (.inr ⟨h0, by omega, by omega, by rw [if_neg h0, if_neg h1, if_neg h2]⟩))

/-- Every memory primitive that answers a memory keeps the canonical form. -/
theorem Memory.wf_memWrite {m m' : Memory} {addr : Nat} {w : Width} {v : Int} (hm : m.wf = true)
    (h : m.memWrite addr w v = .ok m') : m'.wf = true := by
  obtain ⟨-, rfl⟩ := Memory.memWrite_ok h
  exact Memory.wf_storeBytes hm _ _

theorem Memory.wf_fill {m m' : Memory} {addr count : Nat} {value : Byte} (hm : m.wf = true)
    (h : m.fill addr count value = .ok m') : m'.wf = true := by
  rcases Memory.fill_cases m addr count value with ⟨-, e⟩ | ⟨-, -, e⟩ | ⟨-, -, e⟩ <;> rw [e] at h <;> cases h
  · exact hm
  · exact Memory.wf_storeBytes hm _ _

theorem Memory.wf_copy {m m' : Memory} {dest src count : Nat} (hm : m.wf = true)
    (h : m.copy dest src count = .ok m') : m'.wf = true := by
  rcases Memory.copy_cases m dest src count with ⟨-, e⟩ | ⟨-, -, e⟩ | ⟨-, -, -, e⟩ | ⟨-, -, -, e⟩ <;> rw [e] at h <;> cases h
  · exact hm
  · exact Memory.wf_storeBytes hm _ _

theorem wf_blankText (c : Params) {m : Memory} (hm : m.wf = true) : (blankText c m).wf = true := Memory.wf_storeBytes hm _ _

theorem wf_initSegments (c : Params) {m : Memory} (hm : m.wf = true) : (initSegments c m).wf = true :=
  wf_blankText c (Memory.wf_storeBytes (Memory.wf_storeBytes hm _ _) _ _)

end Sys2Proof.Machine
end

