-- ==== Sys2Proof/Laws/State.lean ====
section
/-! SUPPORT. What each register update leaves in each field of the state: true by `rfl`, so that no proof unfolds a record
update. -/

namespace Sys2Proof.Machine

@[simp] theorem State.setRam_status (s : State) (m : Memory) : (s.setRam m).status = s.status := rfl
@[simp] theorem State.setRam_faultInfo (s : State) (m : Memory) : (s.setRam m).faultInfo = s.faultInfo := rfl
@[simp] theorem State.setRam_result (s : State) (m : Memory) : (s.setRam m).result = s.result := rfl
@[simp] theorem State.setRam_target (s : State) (m : Memory) : (s.setRam m).target = s.target := rfl
@[simp] theorem State.setRam_txtMode (s : State) (m : Memory) : (s.setRam m).txtMode = s.txtMode := rfl
@[simp] theorem State.setRam_curRow (s : State) (m : Memory) : (s.setRam m).curRow = s.curRow := rfl
@[simp] theorem State.setRam_curCol (s : State) (m : Memory) : (s.setRam m).curCol = s.curCol := rfl
@[simp] theorem State.setRam_ram (s : State) (m : Memory) : (s.setRam m).ram = m := rfl
@[simp] theorem State.setRam_cfg (s : State) (m : Memory) : (s.setRam m).cfg = s.cfg := rfl
@[simp] theorem State.setRam_inbox (s : State) (m : Memory) : (s.setRam m).inbox = s.inbox := rfl
@[simp] theorem State.setRam_draws (s : State) (m : Memory) : (s.setRam m).draws = s.draws := rfl

@[simp] theorem State.setTarget_status (s : State) (t : BitVec 1) : (s.setTarget t).status = s.status := rfl
@[simp] theorem State.setTarget_faultInfo (s : State) (t : BitVec 1) : (s.setTarget t).faultInfo = s.faultInfo := rfl
@[simp] theorem State.setTarget_result (s : State) (t : BitVec 1) : (s.setTarget t).result = s.result := rfl
@[simp] theorem State.setTarget_target (s : State) (t : BitVec 1) : (s.setTarget t).target = t := rfl
@[simp] theorem State.setTarget_txtMode (s : State) (t : BitVec 1) : (s.setTarget t).txtMode = s.txtMode := rfl
@[simp] theorem State.setTarget_curRow (s : State) (t : BitVec 1) : (s.setTarget t).curRow = s.curRow := rfl
@[simp] theorem State.setTarget_curCol (s : State) (t : BitVec 1) : (s.setTarget t).curCol = s.curCol := rfl
@[simp] theorem State.setTarget_ram (s : State) (t : BitVec 1) : (s.setTarget t).ram = s.ram := rfl
@[simp] theorem State.setTarget_cfg (s : State) (t : BitVec 1) : (s.setTarget t).cfg = s.cfg := rfl
@[simp] theorem State.setTarget_inbox (s : State) (t : BitVec 1) : (s.setTarget t).inbox = s.inbox := rfl
@[simp] theorem State.setTarget_draws (s : State) (t : BitVec 1) : (s.setTarget t).draws = s.draws := rfl

@[simp] theorem State.setResult_status (s : State) (v : BitVec 32) : (s.setResult v).status = s.status := rfl
@[simp] theorem State.setResult_faultInfo (s : State) (v : BitVec 32) : (s.setResult v).faultInfo = s.faultInfo := rfl
@[simp] theorem State.setResult_result (s : State) (v : BitVec 32) : (s.setResult v).result = v := rfl
@[simp] theorem State.setResult_target (s : State) (v : BitVec 32) : (s.setResult v).target = s.target := rfl
@[simp] theorem State.setResult_txtMode (s : State) (v : BitVec 32) : (s.setResult v).txtMode = s.txtMode := rfl
@[simp] theorem State.setResult_curRow (s : State) (v : BitVec 32) : (s.setResult v).curRow = s.curRow := rfl
@[simp] theorem State.setResult_curCol (s : State) (v : BitVec 32) : (s.setResult v).curCol = s.curCol := rfl
@[simp] theorem State.setResult_ram (s : State) (v : BitVec 32) : (s.setResult v).ram = s.ram := rfl
@[simp] theorem State.setResult_cfg (s : State) (v : BitVec 32) : (s.setResult v).cfg = s.cfg := rfl
@[simp] theorem State.setResult_inbox (s : State) (v : BitVec 32) : (s.setResult v).inbox = s.inbox := rfl
@[simp] theorem State.setResult_draws (s : State) (v : BitVec 32) : (s.setResult v).draws = s.draws := rfl

@[simp] theorem State.setCursor_status (s : State) (r c : Nat) : (s.setCursor r c).status = s.status := rfl
@[simp] theorem State.setCursor_faultInfo (s : State) (r c : Nat) : (s.setCursor r c).faultInfo = s.faultInfo := rfl
@[simp] theorem State.setCursor_result (s : State) (r c : Nat) : (s.setCursor r c).result = s.result := rfl
@[simp] theorem State.setCursor_target (s : State) (r c : Nat) : (s.setCursor r c).target = s.target := rfl
@[simp] theorem State.setCursor_txtMode (s : State) (r c : Nat) : (s.setCursor r c).txtMode = s.txtMode := rfl
@[simp] theorem State.setCursor_curRow (s : State) (r c : Nat) : (s.setCursor r c).curRow = BitVec.ofNat 3 r := rfl
@[simp] theorem State.setCursor_curCol (s : State) (r c : Nat) : (s.setCursor r c).curCol = BitVec.ofNat 5 c := rfl
@[simp] theorem State.setCursor_ram (s : State) (r c : Nat) : (s.setCursor r c).ram = s.ram := rfl
@[simp] theorem State.setCursor_cfg (s : State) (r c : Nat) : (s.setCursor r c).cfg = s.cfg := rfl
@[simp] theorem State.setCursor_inbox (s : State) (r c : Nat) : (s.setCursor r c).inbox = s.inbox := rfl
@[simp] theorem State.setCursor_draws (s : State) (r c : Nat) : (s.setCursor r c).draws = s.draws := rfl

@[simp] theorem State.setTxtMode_status (s : State) (m : BitVec 1) : (s.setTxtMode m).status = s.status := rfl
@[simp] theorem State.setTxtMode_faultInfo (s : State) (m : BitVec 1) : (s.setTxtMode m).faultInfo = s.faultInfo := rfl
@[simp] theorem State.setTxtMode_result (s : State) (m : BitVec 1) : (s.setTxtMode m).result = s.result := rfl
@[simp] theorem State.setTxtMode_target (s : State) (m : BitVec 1) : (s.setTxtMode m).target = s.target := rfl
@[simp] theorem State.setTxtMode_txtMode (s : State) (m : BitVec 1) : (s.setTxtMode m).txtMode = m := rfl
@[simp] theorem State.setTxtMode_curRow (s : State) (m : BitVec 1) : (s.setTxtMode m).curRow = s.curRow := rfl
@[simp] theorem State.setTxtMode_curCol (s : State) (m : BitVec 1) : (s.setTxtMode m).curCol = s.curCol := rfl
@[simp] theorem State.setTxtMode_ram (s : State) (m : BitVec 1) : (s.setTxtMode m).ram = s.ram := rfl
@[simp] theorem State.setTxtMode_cfg (s : State) (m : BitVec 1) : (s.setTxtMode m).cfg = s.cfg := rfl
@[simp] theorem State.setTxtMode_inbox (s : State) (m : BitVec 1) : (s.setTxtMode m).inbox = s.inbox := rfl
@[simp] theorem State.setTxtMode_draws (s : State) (m : BitVec 1) : (s.setTxtMode m).draws = s.draws := rfl

@[simp] theorem State.countDraw_status (s : State) : (s.countDraw).status = s.status := rfl
@[simp] theorem State.countDraw_faultInfo (s : State) : (s.countDraw).faultInfo = s.faultInfo := rfl
@[simp] theorem State.countDraw_result (s : State) : (s.countDraw).result = s.result := rfl
@[simp] theorem State.countDraw_target (s : State) : (s.countDraw).target = s.target := rfl
@[simp] theorem State.countDraw_txtMode (s : State) : (s.countDraw).txtMode = s.txtMode := rfl
@[simp] theorem State.countDraw_curRow (s : State) : (s.countDraw).curRow = s.curRow := rfl
@[simp] theorem State.countDraw_curCol (s : State) : (s.countDraw).curCol = s.curCol := rfl
@[simp] theorem State.countDraw_ram (s : State) : (s.countDraw).ram = s.ram := rfl
@[simp] theorem State.countDraw_cfg (s : State) : (s.countDraw).cfg = s.cfg := rfl
@[simp] theorem State.countDraw_inbox (s : State) : (s.countDraw).inbox = s.inbox := rfl
@[simp] theorem State.countDraw_draws (s : State) : (s.countDraw).draws = s.draws + 1 := rfl

@[simp] theorem State.setInbox_status (s : State) (rest : List HostAction) : (s.setInbox rest).status = s.status := rfl
@[simp] theorem State.setInbox_faultInfo (s : State) (rest : List HostAction) : (s.setInbox rest).faultInfo = s.faultInfo := rfl
@[simp] theorem State.setInbox_result (s : State) (rest : List HostAction) : (s.setInbox rest).result = s.result := rfl
@[simp] theorem State.setInbox_target (s : State) (rest : List HostAction) : (s.setInbox rest).target = s.target := rfl
@[simp] theorem State.setInbox_txtMode (s : State) (rest : List HostAction) : (s.setInbox rest).txtMode = s.txtMode := rfl
@[simp] theorem State.setInbox_curRow (s : State) (rest : List HostAction) : (s.setInbox rest).curRow = s.curRow := rfl
@[simp] theorem State.setInbox_curCol (s : State) (rest : List HostAction) : (s.setInbox rest).curCol = s.curCol := rfl
@[simp] theorem State.setInbox_ram (s : State) (rest : List HostAction) : (s.setInbox rest).ram = s.ram := rfl
@[simp] theorem State.setInbox_cfg (s : State) (rest : List HostAction) : (s.setInbox rest).cfg = s.cfg := rfl
@[simp] theorem State.setInbox_inbox (s : State) (rest : List HostAction) : (s.setInbox rest).inbox = rest := rfl
@[simp] theorem State.setInbox_draws (s : State) (rest : List HostAction) : (s.setInbox rest).draws = s.draws := rfl

@[simp] theorem State.raise_status (s : State) (f : FaultCode) (info : Nat) : (s.raise f info).status = f.code := rfl
@[simp] theorem State.raise_faultInfo (s : State) (f : FaultCode) (info : Nat) : (s.raise f info).faultInfo = BitVec.ofNat 32 info := rfl
@[simp] theorem State.raise_result (s : State) (f : FaultCode) (info : Nat) : (s.raise f info).result = s.result := rfl
@[simp] theorem State.raise_target (s : State) (f : FaultCode) (info : Nat) : (s.raise f info).target = s.target := rfl
@[simp] theorem State.raise_txtMode (s : State) (f : FaultCode) (info : Nat) : (s.raise f info).txtMode = s.txtMode := rfl
@[simp] theorem State.raise_curRow (s : State) (f : FaultCode) (info : Nat) : (s.raise f info).curRow = s.curRow := rfl
@[simp] theorem State.raise_curCol (s : State) (f : FaultCode) (info : Nat) : (s.raise f info).curCol = s.curCol := rfl
@[simp] theorem State.raise_ram (s : State) (f : FaultCode) (info : Nat) : (s.raise f info).ram = s.ram := rfl
@[simp] theorem State.raise_cfg (s : State) (f : FaultCode) (info : Nat) : (s.raise f info).cfg = s.cfg := rfl
@[simp] theorem State.raise_inbox (s : State) (f : FaultCode) (info : Nat) : (s.raise f info).inbox = s.inbox := rfl
@[simp] theorem State.raise_draws (s : State) (f : FaultCode) (info : Nat) : (s.raise f info).draws = s.draws := rfl

@[simp] theorem State.resetByCommand_status (s : State) : (s.resetByCommand).status = 0 := rfl
@[simp] theorem State.resetByCommand_faultInfo (s : State) : (s.resetByCommand).faultInfo = 0 := rfl
@[simp] theorem State.resetByCommand_result (s : State) : (s.resetByCommand).result = 0 := rfl
@[simp] theorem State.resetByCommand_target (s : State) : (s.resetByCommand).target = 0 := rfl
@[simp] theorem State.resetByCommand_txtMode (s : State) : (s.resetByCommand).txtMode = 0 := rfl
@[simp] theorem State.resetByCommand_curRow (s : State) : (s.resetByCommand).curRow = 0 := rfl
@[simp] theorem State.resetByCommand_curCol (s : State) : (s.resetByCommand).curCol = 0 := rfl
@[simp] theorem State.resetByCommand_ram (s : State) : (s.resetByCommand).ram = initSegments s.cfg (if s.cfg.resetClearsRam then Memory.empty else s.ram) := rfl
@[simp] theorem State.resetByCommand_cfg (s : State) : (s.resetByCommand).cfg = s.cfg := rfl
@[simp] theorem State.resetByCommand_inbox (s : State) : (s.resetByCommand).inbox = s.inbox := rfl
@[simp] theorem State.resetByCommand_draws (s : State) : (s.resetByCommand).draws = s.draws := rfl

@[simp] theorem State.cols_setRam (s : State) (m : Memory) : (s.setRam m).cols = s.cols := rfl
@[simp] theorem State.rows_setRam (s : State) (m : Memory) : (s.setRam m).rows = s.rows := rfl
@[simp] theorem State.cols_setCursor (s : State) (r c : Nat) : (s.setCursor r c).cols = s.cols := rfl
@[simp] theorem State.rows_setCursor (s : State) (r c : Nat) : (s.setCursor r c).rows = s.rows := rfl
@[simp] theorem State.cols_countDraw (s : State) : s.countDraw.cols = s.cols := rfl
@[simp] theorem State.rows_countDraw (s : State) : s.countDraw.rows = s.rows := rfl
@[simp] theorem State.cell_setRam (s : State) (m : Memory) (r c : Nat) : (s.setRam m).cell r c = s.cell r c := rfl
@[simp] theorem State.cell_setCursor (s : State) (i j r c : Nat) : (s.setCursor i j).cell r c = s.cell r c := rfl
@[simp] theorem State.targetBase_setRam (s : State) (m : Memory) : (s.setRam m).targetBase = s.targetBase := rfl
@[simp] theorem State.setRam_setRam (s : State) (m m' : Memory) : (s.setRam m).setRam m' = s.setRam m' := rfl
@[simp] theorem State.setRam_self (s : State) : s.setRam s.ram = s := rfl

end Sys2Proof.Machine
end

