-- ==== Sys2Proof/Laws/Ops.lean ====
section
/-! SUPPORT. What each shared operation does, once: pixels and the rewriting of a rectangle of them, fault entry, the reset,
the free values of an overlap, the steps of the text engine and of the glyph compositor. -/

namespace Sys2Proof.Machine

/-! ### Pixels of a byte -/

theorem getLsbD_packPixels (f : Nat → Bool) (i : Nat) : (packPixels f).getLsbD i = (decide (i < 8) && f (7 - i)) := by
  unfold packPixels
  rw [BitVec.getLsbD_ofFnLE]
  split <;> simp_all

/-- Pixel `j` of a byte that was rewritten pixel by pixel. -/
theorem getLsbD_mapByte (f : Nat → Bool → Bool) (px0 : Nat) (b : Byte) {j : Nat} (hj : j < 8) :
    (mapByte f px0 b).getLsbD (7 - j) = f (px0 + j) (b.getLsbD (7 - j)) := by
  unfold mapByte
  rw [getLsbD_packPixels, show 7 - (7 - j) = j by omega]
  simp [show 7 - j < 8 by omega]

/-- Two bytes with the same eight pixels are equal. -/
theorem byte_ext_pixels {a b : Byte} (h : ∀ j < 8, a.getLsbD (7 - j) = b.getLsbD (7 - j)) : a = b := by
  apply BitVec.eq_of_getLsbD_eq
  intro i hi
  have := h (7 - i) (by omega)
  rwa [show 7 - (7 - i) = i by omega] at this

/-- Pixel `px` in terms of its byte column and its place in the byte. -/
theorem Memory.px_eq (m : Memory) (B px py : Nat) :
    m.px B px py = (m.byteAt (B + 20 * py + px / 8)).getLsbD (7 - px % 8) := rfl

/-! ### Rewriting a rectangle of pixels -/

/-- Pixel `j` of byte `k` of a row of the rectangle's band. -/
theorem Memory.getLsbD_boxByte (m : Memory) (B : Nat) (b : Box) (f : Nat → Nat → Bool → Bool) (py : Nat) {k j : Nat}
    (hk : k < 20) (hj : j < 8) (hx : (max 0 b.left).toNat < (min 160 b.right).toNat) :
    (m.boxByte B b f (max 0 b.left).toNat (min 160 b.right).toNat py k).getLsbD (7 - j) =
      if b.has (8 * k + j : Nat) py then f (8 * k + j) py ((m.byteAt (B + 20 * py + k)).getLsbD (7 - j))
      else (m.byteAt (B + 20 * py + k)).getLsbD (7 - j) := by
  unfold Memory.boxByte
  split
  · rw [getLsbD_mapByte _ _ _ hj]
  · have hno : b.has ((8 * k + j : Nat) : Int) (py : Int) = false := by
      simp only [Box.has, Bool.and_eq_false_iff, decide_eq_false_iff_not]
      omega
    rw [hno]
    rfl

/-- Every byte outside the bitmap is left alone. -/
theorem Memory.byteAt_mapBox_outside {m : Memory} (hm : m.wf = true) (B : Nat) (b : Box) (f : Nat → Nat → Bool → Bool)
    {a : Nat} (ha : a < B ∨ B + 1600 ≤ a) : (m.mapBox B b f).byteAt a = m.byteAt a := by
  unfold Memory.mapBox
  dsimp only
  split
  · apply Memory.byteAt_storeBytes_outside hm
    simp only [List.length_map, List.length_range]
    omega
  · rfl

/-- The canonical form is kept. -/
theorem Memory.wf_mapBox {m : Memory} (hm : m.wf = true) (B : Nat) (b : Box) (f : Nat → Nat → Bool → Bool) :
    (m.mapBox B b f).wf = true := by
  unfold Memory.mapBox
  dsimp only
  split
  · exact Memory.wf_storeBytes hm _ _
  · exact hm

/-- A byte of the bitmap after the rewriting. -/
theorem Memory.byteAt_mapBox {m : Memory} (hm : m.wf = true) {B : Nat} (hB : B + 1600 ≤ 65536) (b : Box)
    (f : Nat → Nat → Bool → Bool) {py k : Nat} (hy : py < 80) (hk : k < 20) :
    (m.mapBox B b f).byteAt (B + 20 * py + k) =
      mapByte (fun px d => if b.has px py then f px py d else d) (8 * k) (m.byteAt (B + 20 * py + k)) := by
  have hsame : ∀ d : Byte, (∀ j < 8, b.has ((8 * k + j : Nat) : Int) (py : Int) = false) →
      d = mapByte (fun px d => if b.has px py then f px py d else d) (8 * k) d := by
    intro d hno
    apply byte_ext_pixels
    intro j hj
    rw [getLsbD_mapByte _ _ _ hj, hno j hj]
    rfl
  unfold Memory.mapBox
  dsimp only
  split
  · rename_i hx
    by_cases hin : (max 0 b.top).toNat ≤ py ∧ py < (min 80 b.bottom).toNat
    · rw [Memory.byteAt_storeRange hm _ _ (by omega), if_pos (by omega)]
      have hdiv : (B + 20 * py + k - (B + 20 * (max 0 b.top).toNat)) / 20 = py - (max 0 b.top).toNat := by omega
      have hmod : (B + 20 * py + k - (B + 20 * (max 0 b.top).toNat)) % 20 = k := by omega
      rw [hdiv, hmod, show (max 0 b.top).toNat + (py - (max 0 b.top).toNat) = py by omega]
      apply byte_ext_pixels
      intro j hj
      rw [Memory.getLsbD_boxByte m B b f py hk hj hx, getLsbD_mapByte _ _ _ hj]
    · rw [Memory.byteAt_storeBytes_outside hm (by simp only [List.length_map, List.length_range]; omega)]
      apply hsame
      intro j hj
      simp only [Box.has, Bool.and_eq_false_iff, decide_eq_false_iff_not]
      omega
  · apply hsame
    intro j hj
    simp only [Box.has, Bool.and_eq_false_iff, decide_eq_false_iff_not]
    omega

/-- A pixel of the bitmap after the rewriting: replaced inside the rectangle, as before outside it. -/
theorem Memory.px_mapBox {m : Memory} (hm : m.wf = true) {B : Nat} (hB : B + 1600 ≤ 65536) (b : Box)
    (f : Nat → Nat → Bool → Bool) {px py : Nat} (hx : px < 160) (hy : py < 80) :
    (m.mapBox B b f).px B px py = if b.has px py then f px py (m.px B px py) else m.px B px py := by
  rw [Memory.px_eq, Memory.byteAt_mapBox hm hB b f hy (show px / 8 < 20 by omega),
    getLsbD_mapByte _ _ _ (show px % 8 < 8 by omega), show 8 * (px / 8) + px % 8 = px by omega]
  rfl

/-- A pixel after a set of points has been plotted (R151). -/
theorem Memory.px_plotSet {m : Memory} (hm : m.wf = true) {B : Nat} (hB : B + 1600 ≤ 65536) (box : Box)
    (inS : Int → Int → Bool) (dm : DrawMode) {px py : Nat} (hx : px < 160) (hy : py < 80) :
    (m.plotSet B box inS dm).px B px py =
      if box.has px py && inS px py then dm.apply (m.px B px py) else m.px B px py := by
  rw [Memory.plotSet, Memory.px_mapBox hm hB box _ hx hy]
  cases box.has px py <;> cases inS px py <;> rfl

/-- Plotting leaves every byte outside the bitmap alone. -/
theorem Memory.byteAt_plotSet_outside {m : Memory} (hm : m.wf = true) (B : Nat) (box : Box) (inS : Int → Int → Bool)
    (dm : DrawMode) {a : Nat} (ha : a < B ∨ B + 1600 ≤ a) : (m.plotSet B box inS dm).byteAt a = m.byteAt a :=
  Memory.byteAt_mapBox_outside hm B box _ ha

theorem Memory.wf_plotSet {m : Memory} (hm : m.wf = true) (B : Nat) (box : Box) (inS : Int → Int → Bool) (dm : DrawMode) :
    (m.plotSet B box inS dm).wf = true := Memory.wf_mapBox hm B box _

/-- A pixel after a blit (R125). -/
theorem Memory.px_blit {m : Memory} (hm : m.wf = true) (c : Params) {B : Nat} (hB : B + 1600 ≤ 65536) (b : BlitOp)
    {px py : Nat} (hx : px < 160) (hy : py < 80) :
    (m.blit c B b).px B px py =
      if b.box.has px py then b.mode.combine (m.px B px py) (b.source c m px py) else m.px B px py :=
  Memory.px_mapBox hm hB b.box _ hx hy

/-- A blit leaves every byte outside the bitmap alone. -/
theorem Memory.byteAt_blit_outside {m : Memory} (hm : m.wf = true) (c : Params) (B : Nat) (b : BlitOp) {a : Nat}
    (ha : a < B ∨ B + 1600 ≤ a) : (m.blit c B b).byteAt a = m.byteAt a :=
  Memory.byteAt_mapBox_outside hm B b.box _ ha

theorem Memory.wf_blit {m : Memory} (hm : m.wf = true) (c : Params) (B : Nat) (b : BlitOp) : (m.blit c B b).wf = true :=
  Memory.wf_mapBox hm B b.box _

/-! ### Whole bitmaps and open values -/

/-- A byte of a bitmap after all of it has been replaced (R180, R181). -/
theorem Memory.byteAt_rewriteBitmap {m : Memory} (hm : m.wf = true) {B : Nat} (hB : B + 1600 ≤ 65536) (f : Nat → Nat → Byte)
    {r k : Nat} (hr : r < 80) (hk : k < 20) : (m.rewriteBitmap B f).byteAt (B + 20 * r + k) = f r k := by
  rw [Memory.rewriteBitmap, Memory.byteAt_storeRange hm _ _ hB, if_pos (by omega),
    show B + 20 * r + k - B = 20 * r + k by omega, show (20 * r + k) / 20 = r by omega, show (20 * r + k) % 20 = k by omega]

theorem Memory.byteAt_rewriteBitmap_outside {m : Memory} (hm : m.wf = true) (B : Nat) (f : Nat → Nat → Byte) {a : Nat}
    (ha : a < B ∨ B + 1600 ≤ a) : (m.rewriteBitmap B f).byteAt a = m.byteAt a := by
  apply Memory.byteAt_storeBytes_outside hm
  simpa using ha

theorem Memory.wf_rewriteBitmap {m : Memory} (hm : m.wf = true) (B : Nat) (f : Nat → Nat → Byte) :
    (m.rewriteBitmap B f).wf = true := Memory.wf_storeBytes hm _ _

/-- An open range leaves every other byte alone. -/
theorem Memory.byteAt_freeRange_outside {m : Memory} (hm : m.wf = true) (draw a n : Nat) {x : Nat}
    (h : x < a ∨ a + n ≤ x) : (m.freeRange draw a n).byteAt x = m.byteAt x := by
  apply Memory.byteAt_storeBytes_outside hm
  simpa using h

theorem Memory.wf_freeRange {m : Memory} (hm : m.wf = true) (draw a n : Nat) : (m.freeRange draw a n).wf = true :=
  Memory.wf_storeBytes hm _ _

/-! ### Faults -/

/-- What a command over a memory primitive can do: the primitive's memory, or `E_ADDR`. -/
theorem withAddressFault_cases {s t : State} {r : Except AddressFault Memory} (h : withAddressFault s r = .next t) :
    (∃ m, r = .ok m ∧ t = s.setRam m) ∨ (∃ f, r = .error f ∧ t = s.raise .eAddr f.addr) := by
  cases r with
  | ok m =>
    cases h
    exact .inl ⟨m, rfl, rfl⟩
  | error f =>
    cases h
    exact .inr ⟨f, rfl, rfl⟩

/-! ### The text engine -/

/-- What `NewLine` can do: one row down, or the grid scrolled with the cursor on the last row (R208). -/
theorem State.newLine_cases (s : State) :
    (s.curRow.toNat + 1 < s.rows ∧ s.newLine = s.setCursor (s.curRow.toNat + 1) 0) ∨
    (s.rows ≤ s.curRow.toNat + 1 ∧ s.newLine = (s.setRam s.scrollGrid).setCursor (s.rows - 1) 0) := by
  unfold State.newLine
  by_cases h : s.curRow.toNat + 1 < s.rows
  · exact .inl ⟨h, if_pos h⟩
  · exact .inr ⟨by omega, if_neg h⟩

/-- What moving the cursor on can do: along the row, or a new line (R209). -/
theorem State.advance_cases (s : State) (n : Nat) :
    (s.curCol.toNat + n < s.cols ∧ s.advance n = s.setCursor s.curRow.toNat (s.curCol.toNat + n)) ∨
    (s.cols ≤ s.curCol.toNat + n ∧ s.advance n = s.newLine) := by
  unfold State.advance
  by_cases h : s.curCol.toNat + n < s.cols
  · exact .inl ⟨h, if_pos h⟩
  · exact .inr ⟨by omega, if_neg h⟩

/-- What a one-byte character can do: nothing, a new line, or a cell (R210). -/
theorem State.addOne_cases (s : State) (b : Byte) :
    (b = 0x0D ∧ s.addOne b = s) ∨ (b = 0x0A ∧ s.addOne b = s.newLine) ∨
    (b = 0x09 ∧ s.addOne b = s.putCell 0x20) ∨ (b ≠ 0x0D ∧ b ≠ 0x0A ∧ b ≠ 0x09 ∧ s.addOne b = s.putCell b) := by
  unfold State.addOne
  by_cases h1 : b = 0x0D
  · exact .inl ⟨h1, if_pos h1⟩
  · by_cases h2 : b = 0x0A
    · exact .inr (.inl ⟨h2, by rw [if_neg h1, if_pos h2]⟩)
    · by_cases h3 : b = 0x09
      · exact .inr (.inr (.inl ⟨h3, by rw [if_neg h1, if_neg h2, if_pos h3]⟩))
      · exact .inr (.inr (.inr ⟨h1, h2, h3, by rw [if_neg h1, if_neg h2, if_neg h3]⟩))

theorem colsOf_cases (mode : BitVec 1) : colsOf mode = 20 ∧ rowsOf mode = 5 ∨ colsOf mode = 26 ∧ rowsOf mode = 6 := by
  unfold colsOf rowsOf
  split <;> simp

theorem State.wf_scrollGrid {s : State} (hm : s.ram.wf = true) : s.scrollGrid.wf = true :=
  Memory.wf_storeBytes (Memory.wf_storeBytes hm _ _) _ _

theorem State.wf_newLine {s : State} (hm : s.ram.wf = true) : s.newLine.ram.wf = true := by
  rcases s.newLine_cases with ⟨-, e⟩ | ⟨-, e⟩ <;> rw [e]
  · exact hm
  · exact State.wf_scrollGrid hm

theorem State.wf_advance {s : State} (hm : s.ram.wf = true) (n : Nat) : (s.advance n).ram.wf = true := by
  rcases s.advance_cases n with ⟨-, e⟩ | ⟨-, e⟩ <;> rw [e]
  · exact hm
  · exact State.wf_newLine hm

theorem State.wf_setCell {s : State} (hm : s.ram.wf = true) (i : Nat) (b : Byte) : (s.setCell i b).ram.wf = true :=
  Memory.wf_setByte hm _ _

theorem State.wf_putCell {s : State} (hm : s.ram.wf = true) (b : Byte) : (s.putCell b).ram.wf = true :=
  State.wf_advance (State.wf_setCell hm 0 b) 1

theorem State.wf_addOne {s : State} (hm : s.ram.wf = true) (b : Byte) : (s.addOne b).ram.wf = true := by
  rcases s.addOne_cases b with ⟨-, e⟩ | ⟨-, e⟩ | ⟨-, e⟩ | ⟨-, -, -, e⟩ <;> rw [e]
  · exact hm
  · exact State.wf_newLine hm
  · exact State.wf_putCell hm _
  · exact State.wf_putCell hm _

theorem State.wf_addPair {s : State} (hm : s.ram.wf = true) (b1 b2 : Byte) : (s.addPair b1 b2).ram.wf = true := by
  unfold State.addPair
  apply State.wf_advance
  apply State.wf_setCell
  apply State.wf_setCell
  split
  · exact State.wf_putCell hm _
  · exact hm

/-- The canonical form is kept by a row of the compositor (R223). -/
theorem wf_drawCells (c : Params) (mode : BitVec 1) (r n col : Nat) {m : Memory} (hm : m.wf = true) :
    (drawCells c mode r n col m).wf = true := by
  induction n generalizing col m with
  | zero => exact hm
  | succ n ih =>
    unfold drawCells
    dsimp only
    split
    · split
      · exact ih _ (Memory.wf_blit hm _ _ _)
      · exact ih _ (Memory.wf_blit hm _ _ _)
    · exact hm

/-- A row of the compositor leaves every byte outside the graphics bitmap alone (R223). -/
theorem byteAt_drawCells_outside (c : Params) (mode : BitVec 1) (r n col : Nat) {m : Memory} (hm : m.wf = true) {a : Nat}
    (ha : a < c.graphBase ∨ c.graphBase + 1600 ≤ a) : (drawCells c mode r n col m).byteAt a = m.byteAt a := by
  induction n generalizing col m with
  | zero => rfl
  | succ n ih =>
    unfold drawCells
    dsimp only
    split
    · split
      · rw [ih _ (Memory.wf_blit hm _ _ _), Memory.byteAt_blit_outside hm _ _ _ ha]
      · rw [ih _ (Memory.wf_blit hm _ _ _), Memory.byteAt_blit_outside hm _ _ _ ha]
    · rfl

theorem wf_drawRows (c : Params) (mode : BitVec 1) (mask : Half) (n r : Nat) {m : Memory} (hm : m.wf = true) :
    (drawRows c mode mask n r m).wf = true := by
  induction n generalizing r m with
  | zero => exact hm
  | succ n ih =>
    unfold drawRows
    apply ih
    split
    · exact hm
    · exact wf_drawCells c mode r _ _ hm

theorem byteAt_drawRows_outside (c : Params) (mode : BitVec 1) (mask : Half) (n r : Nat) {m : Memory} (hm : m.wf = true)
    {a : Nat} (ha : a < c.graphBase ∨ c.graphBase + 1600 ≤ a) :
    (drawRows c mode mask n r m).byteAt a = m.byteAt a := by
  induction n generalizing r m with
  | zero => rfl
  | succ n ih =>
    unfold drawRows
    by_cases h : rowSkipped c mask r
    · rw [if_pos h]
      exact ih _ hm
    · rw [if_neg h, drawTextRow, ih _ (wf_drawCells c mode r _ _ hm)]
      exact byteAt_drawCells_outside c mode r _ _ hm ha

theorem wf_clearBorder (c : Params) (mode : BitVec 1) {m : Memory} (hm : m.wf = true) : (clearBorder c mode m).wf = true := by
  unfold clearBorder
  split
  · exact Memory.wf_plotSet hm _ _ _ _
  · exact hm

end Sys2Proof.Machine
end

