-- ==== Sys2Proof/Laws/PerInstr.lean ====
section
/-! SUPPORT. One fact about every constructor of `Instr`: the packet the encoder writes has the length the opcode map gives
its first byte (spec 30_encoding.md R82, R85, R91). -/

namespace Sys2Proof.Laws.EncodeLength

/-- The packet of the command has the length `L(op)` of its opcode (R91). -/
def Statement (i : Instr) : Prop := packetLength ((encode i).getD 0 0) = some (encode i).length

theorem reset : Statement (.reset) := rfl
theorem setTarget (t : Byte) : Statement (.setTarget t) := rfl
theorem drawData (x y w h : Half) (addr : Addr24) (flags : Byte) : Statement (.drawData x y w h addr flags) := rfl
theorem saveData (x y w h addr : Half) : Statement (.saveData x y w h addr) := rfl
theorem render : Statement (.render) := rfl
theorem drawPoint (x y : Half) (sm : Byte) : Statement (.drawPoint x y sm) := rfl
theorem drawLine (x0 y0 x1 y1 : Half) (sm : Byte) : Statement (.drawLine x0 y0 x1 y1 sm) := rfl
theorem drawRect (x0 y0 x1 y1 : Half) (sm : Byte) : Statement (.drawRect x0 y0 x1 y1 sm) := rfl
theorem drawOval (cx cy rx ry : Half) (sm : Byte) : Statement (.drawOval cx cy rx ry sm) := rfl
theorem testPoint (x y : Half) : Statement (.testPoint x y) := rfl
theorem scroll (dir : Byte) : Statement (.scroll dir) := rfl
theorem mirror (dir : Byte) : Statement (.mirror dir) := rfl
theorem memFill (addr count : Half) (value : Byte) : Statement (.memFill addr count value) := rfl
theorem memCopy (dest src count : Half) : Statement (.memCopy dest src count) := rfl
theorem txtMode (m : Byte) : Statement (.txtMode m) := rfl
theorem txtLoc (row col : Half) : Statement (.txtLoc row col) := rfl
theorem txtByte (b : Byte) : Statement (.txtByte b) := rfl
theorem txtBytes (addr count : Half) : Statement (.txtBytes addr count) := rfl
theorem txtRender (mask : Half) : Statement (.txtRender mask) := rfl

end Sys2Proof.Laws.EncodeLength
end

