-- ==== Sys2Proof/Laws/Port.lean ====
section
/-! SUPPORT. What a host access to RAM can do, once for each: the access that fits, and the fault of the one that does not. -/

namespace Sys2Proof.Machine

/-- An `AddressFault` of a host access always ends in a next state: `E_ADDR`, or in the FAULTED state nothing. -/
theorem hostAddressFault_eq (f : AddressFault) (s : State) :
    hostAddressFault f s = .next (if s.status = 0 then s.raise .eAddr f.addr else s) := by
  unfold hostAddressFault
  split <;> rfl

/-- A host write: its bytes stored where they fit, else the fault. -/
theorem hostWrite_eq (addr : Nat) (w : Width) (v : Int) (s : State) :
    hostWrite addr w v s = .next
      (if addr + w.bytes ≤ 65536 then s.setRam (s.ram.storeBytes addr (littleEndianBytes w.bytes v))
       else if s.status = 0 then s.raise .eAddr addr else s) := by
  unfold hostWrite Memory.memWrite
  by_cases h : addr + w.bytes ≤ 65536
  · rw [if_neg (by omega), if_pos h]
  · rw [if_pos (by omega), if_neg h]
    exact hostAddressFault_eq _ s

/-- A host read: nothing where it fits, else the fault. -/
theorem hostRead_eq (addr : Nat) (w : Width) (s : State) :
    hostRead addr w s = .next
      (if addr + w.bytes ≤ 65536 then s else if s.status = 0 then s.raise .eAddr addr else s) := by
  unfold hostRead Memory.memRead
  by_cases h : addr + w.bytes ≤ 65536
  · rw [if_neg (by omega), if_pos h]
  · rw [if_pos (by omega), if_neg h]
    exact hostAddressFault_eq _ s

end Sys2Proof.Machine
end

