-- ==== Sys2Proof/Tests/Slice0.lean ====
section
/-! SUPPORT. The model's own tests. Expected values are taken from the spec: the examples in the command rules and the vectors
of spec 95_test_vectors.md, named by their ids. Then one witness for every statement that has hypotheses. -/

namespace Sys2Proof.Tests

set_option Elab.async false

open Sys2Proof Sys2Proof.Machine

/-! ### Well-formedness: an ill-formed command for each check -/

theorem test_wf_refuses_selector : (Instr.setTarget 2).wf = false ∧ (Instr.setTarget 1).wf = true := by decide
theorem test_wf_refuses_scroll : (Instr.scroll 255).wf = false := by decide
theorem test_wf_refuses_mirror : (Instr.mirror 2).wf = false := by decide
theorem test_wf_refuses_text_mode : (Instr.txtMode 2).wf = false := by decide
theorem test_wf_refuses_mode_zero : (Instr.drawData 0 0 8 8 0x2000 0x00).wf = false := by decide
theorem test_wf_refuses_mode_six_and_seven :
    (Instr.drawData 0 0 8 8 0x2000 0x06).wf = false ∧ (Instr.drawData 0 0 8 8 0x2000 0x0F).wf = false := by decide
theorem test_wf_refuses_flag_bits :
    (Instr.drawData 0 0 8 8 0x2000 0x41).wf = false ∧ (Instr.drawData 0 0 8 8 0x2000 0x81).wf = false := by decide
theorem test_wf_refuses_point_mode : (Instr.drawPoint 0 0 3).wf = false ∧ (Instr.drawPoint 0 0 5).wf = false := by decide
theorem test_wf_refuses_line_fill : (Instr.drawLine 0 0 4 0 5).wf = false := by decide
theorem test_wf_refuses_rect_mode :
    (Instr.drawRect 1 1 3 3 3).wf = false ∧ (Instr.drawRect 1 1 3 3 9).wf = false ∧
      (Instr.drawRect 1 1 3 3 6).wf = true := by decide
theorem test_wf_refuses_negative_radius :
    (Instr.drawOval 10 10 0xFFFF 3 1).wf = false ∧ (Instr.drawOval 10 10 3 0xFFFE 1).wf = false ∧
      (Instr.drawOval 10 10 0x7FFF 0 5).wf = true := by decide
theorem test_wf_refuses_oval_mode : (Instr.drawOval 10 10 3 3 7).wf = false := by decide
theorem test_wf_refuses_lead_byte : (Instr.txtByte 0x80).wf = false ∧ (Instr.txtByte 0x7F).wf = true := by decide

/-! ### Decoding: a packet of every command, written out from R82 and R85 -/

theorem test_decode_reset : decode [0x01] = .ok .reset := rfl
theorem test_decode_settarget : decode [0x02, 0x01] = .ok (.setTarget 1) := rfl
theorem test_decode_drawdata :
    decode [0x10, 0x03, 0x00, 0x0A, 0x00, 0x08, 0x00, 0x09, 0x00, 0x01, 0x20, 0x07, 0x11] =
      .ok (.drawData 3 10 8 9 0x072001 0x11) := rfl
theorem test_decode_savedata :
    decode [0x11, 0xF8, 0xFF, 0x01, 0x00, 0x10, 0x00, 0x08, 0x00, 0x34, 0x12] =
      .ok (.saveData 0xFFF8 1 16 8 0x1234) := rfl
theorem test_decode_render : decode [0x12] = .ok .render := rfl
theorem test_decode_drawpoint : decode [0x20, 0x09, 0x00, 0x02, 0x01, 0x05] = .ok (.drawPoint 9 0x0102 5) := rfl
theorem test_decode_drawline :
    decode [0x21, 0xFE, 0xFF, 0xFF, 0xFF, 0x02, 0x00, 0x01, 0x00, 0x01] =
      .ok (.drawLine 0xFFFE 0xFFFF 2 1 1) := rfl
theorem test_decode_drawrect :
    decode [0x22, 0xC8, 0x00, 0x0A, 0x00, 0x2C, 0x01, 0x14, 0x00, 0x05] = .ok (.drawRect 200 10 300 20 5) := rfl
theorem test_decode_drawoval :
    decode [0x23, 0x0A, 0x00, 0x0B, 0x00, 0x05, 0x00, 0x03, 0x00, 0x01] = .ok (.drawOval 10 11 5 3 1) := rfl
theorem test_decode_testpoint : decode [0x24, 0x0B, 0x00, 0x01, 0x00] = .ok (.testPoint 11 1) := rfl
theorem test_decode_scroll : decode [0x30, 0x01] = .ok (.scroll 1) := rfl
theorem test_decode_mirror : decode [0x31, 0x01] = .ok (.mirror 1) := rfl
theorem test_decode_memfill : decode [0x38, 0x00, 0x30, 0x04, 0x00, 0xAB] = .ok (.memFill 0x3000 4 0xAB) := rfl
theorem test_decode_memcopy :
    decode [0x39, 0x02, 0x30, 0x00, 0x31, 0x04, 0x00] = .ok (.memCopy 0x3002 0x3100 4) := rfl
theorem test_decode_txtmode : decode [0x40, 0x01] = .ok (.txtMode 1) := rfl
theorem test_decode_txtloc : decode [0x41, 0xFF, 0x7F, 0x00, 0x80] = .ok (.txtLoc 0x7FFF 0x8000) := rfl
theorem test_decode_txtbyte : decode [0x42, 0x48] = .ok (.txtByte 0x48) := rfl
theorem test_decode_txtbytes : decode [0x43, 0x00, 0x20, 0x06, 0x00] = .ok (.txtBytes 0x2000 6) := rfl
theorem test_decode_txtrender : decode [0x44, 0xF8, 0x01] = .ok (.txtRender 0x01F8) := rfl

/-- Illegal opcodes of R89, at the edges of its ranges. -/
theorem test_decode_refuses_illegal_opcodes :
    ([0x00, 0x03, 0x0F, 0x13, 0x1F, 0x25, 0x2F, 0x32, 0x37, 0x3A, 0x3F, 0x45, 0xFF] : List Byte).map
      (fun op => (packetLength op).isNone) = List.replicate 13 true := by decide

/-- Vectors K3, K4, K5: a byte too many, a byte short, twelve bytes of thirteen. -/
theorem test_decode_refuses_wrong_lengths :
    decode [0x12, 0x00] = .error (.wrongLength 0x12 2) ∧ decode [0x02] = .error (.wrongLength 0x02 1) ∧
      decode (0x10 :: List.replicate 11 0x00) = .error (.wrongLength 0x10 12) := ⟨rfl, rfl, rfl⟩

/-- The example of R100. -/
theorem test_encode_drawdata :
    encode (.drawData 3 10 8 8 0x2000 1) =
      [0x10, 0x03, 0x00, 0x0A, 0x00, 0x08, 0x00, 0x08, 0x00, 0x00, 0x20, 0x00, 0x01] := by decide

/-- R93: a list cut from its bytes, an illegal opcode alone, a short rest. -/
theorem test_cut_command_list :
    cutPackets [0x02, 0x01, 0x44, 0x00, 0x00, 0x00, 0x12, 0x24, 0x0B] =
      [[0x02, 0x01], [0x44, 0x00, 0x00], [0x00], [0x12], [0x24, 0x0B]] := by decide

/-- The host's numbering: bit 0 is the lowest bit of the packet's first byte, the bits above the row's are 0. -/
theorem test_table_word :
    decodeTableWord 8 0x10 = some (.drawData 0 0 0 0 0 0) ∧ decodeTableWord 16 0x0102 = some (.setTarget 1) ∧
      decodeTableWord 8 0x00 = none := by decide

/-! ### One step from a small state -/

/-- The next state of an outcome; the reset state where there is none. -/
def settle : StepOutcome → State
  | .next t => t
  | _ => State.reset

/-- The outcome is a next state. -/
def completes : StepOutcome → Bool
  | .next _ => true
  | _ => false

theorem next_of_completes {o : StepOutcome} (h : completes o = true) : o = .next (settle o) := by
  cases o <;> simp_all [completes, settle]

/-- The state after one packet. -/
def run (s : State) (p : List Byte) : State := settle (step (s.withPacket p))

/-- The reset state with some bytes written. -/
def having (a : Nat) (bytes : List Byte) : State := State.reset.setRam (State.reset.ram.storeBytes a bytes)

/-- The bytes from an address on. -/
def bytesAt (s : State) (a n : Nat) : List Byte := s.ram.loadBytes a n

theorem test_reset_leaves_faulted :
    let t := run { having 0x3000 [7] with status := 2, faultInfo := 3, target := 1, curRow := 3 } [0x01]
    t.status = 0 ∧ t.faultInfo = 0 ∧ t.target = 0 ∧ t.curRow = 0 ∧ bytesAt t 0x3000 1 = [7] := by decide +kernel
theorem test_reset_needs_one_byte :
    let t := run { State.reset with status := 2, faultInfo := 3 } [0x01, 0x00]
    t.status = 2 ∧ t.faultInfo = 3 := by decide +kernel

/-- K8, K7. -/
theorem test_settarget : (run State.reset [0x02, 0x01]).target = 1 := by decide +kernel
theorem test_settarget_refuses :
    let t := run State.reset [0x02, 0x02]
    t.status = 2 ∧ t.faultInfo = 2 ∧ t.target = 0 := by decide +kernel

/-- B10: x 5, 12 x 2, an odd source address. -/
theorem test_drawdata_unaligned :
    let t := run (having 0x2001 [0xA5, 0xF0, 0x3C, 0x30])
      [0x10, 0x05, 0x00, 0x01, 0x00, 0x0C, 0x00, 0x02, 0x00, 0x01, 0x20, 0x00, 0x01]
    bytesAt t 0x14 3 = [0x05, 0x2F, 0x80] ∧ bytesAt t 0x28 3 = [0x01, 0xE1, 0x80] := by decide +kernel
/-- B4 with AND of the inverted source (flags 0C). -/
theorem test_drawdata_inverse_and :
    bytesAt (run ((having 0 [0xCC]).setRam ((having 0 [0xCC]).ram.setByte 0x2000 0xAA))
      [0x10, 0, 0, 0, 0, 0x08, 0x00, 0x01, 0x00, 0x00, 0x20, 0x00, 0x0C]) 0 1 = [0x44] := by decide +kernel

/-- S1. -/
theorem test_savedata :
    bytesAt (run (having 0 ((List.range 160).map fun i => BitVec.ofNat 8 (7 * i + 3)))
      [0x11, 0x08, 0x00, 0x00, 0x00, 0x10, 0x00, 0x08, 0x00, 0x00, 0x30]) 0x3000 17 =
      [0x0A, 0x11, 0x96, 0x9D, 0x22, 0x29, 0xAE, 0xB5, 0x3A, 0x41, 0xC6, 0xCD, 0x52, 0x59, 0xDE, 0xE5, 0x00] := by
  decide +kernel
/-- S9: x -8, the first byte of each row is off the left edge. -/
theorem test_savedata_off_left :
    bytesAt (run (having 0 ((List.range 160).map fun i => BitVec.ofNat 8 (7 * i + 3)))
      [0x11, 0xF8, 0xFF, 0x00, 0x00, 0x10, 0x00, 0x08, 0x00, 0x00, 0x30]) 0x3000 6 =
      [0x00, 0x03, 0x00, 0x8F, 0x00, 0x1B] := by decide +kernel

/-- N1. -/
theorem test_render :
    let t := run { having 0x640 [0xA5] with target := 1 } [0x12]
    bytesAt t 0 2 = [0xA5, 0x00] ∧ bytesAt t 0x640 1 = [0xA5] ∧ t.target = 1 := by decide +kernel

/-- PT1. -/
theorem test_drawpoint : bytesAt (run State.reset [0x20, 9, 0, 2, 0, 1]) 0x28 3 = [0x00, 0x40, 0x00] := by
  decide +kernel
/-- PT2: (-1, 0) is dropped. -/
theorem test_drawpoint_off_left : (run State.reset [0x20, 0xFF, 0xFF, 0, 0, 1]).ram = State.reset.ram := by
  decide +kernel

/-- L3 and L4: the two directions differ. -/
theorem test_drawline_forward :
    let t := run State.reset [0x21, 0, 0, 0, 0, 2, 0, 1, 0, 1]
    bytesAt t 0 1 = [0x80] ∧ bytesAt t 0x14 1 = [0x60] := by decide +kernel
theorem test_drawline_backward :
    let t := run State.reset [0x21, 2, 0, 1, 0, 0, 0, 0, 0, 1]
    bytesAt t 0 1 = [0xC0] ∧ bytesAt t 0x14 1 = [0x20] := by decide +kernel

/-- Q1, Q7. -/
theorem test_drawrect_outline :
    let t := run State.reset [0x22, 1, 0, 1, 0, 3, 0, 3, 0, 1]
    bytesAt t 0x14 1 = [0x70] ∧ bytesAt t 0x28 1 = [0x50] ∧ bytesAt t 0x3C 1 = [0x70] := by decide +kernel
theorem test_drawrect_clipped_fill :
    let t := run State.reset [0x22, 0xFB, 0xFF, 0xFB, 0xFF, 2, 0, 1, 0, 5]
    bytesAt t 0 1 = [0xE0] ∧ bytesAt t 0x14 2 = [0xE0, 0x00] ∧ bytesAt t 0x28 1 = [0x00] := by decide +kernel

/-- O3: radii 5 and 3. -/
theorem test_drawoval :
    let t := run State.reset [0x23, 0x0A, 0, 0x0A, 0, 5, 0, 3, 0, 1]
    bytesAt t 0x8D 1 = [0xF8] ∧ bytesAt t 0xA0 2 = [0x03, 0x06] ∧ bytesAt t 0xC8 2 = [0x04, 0x01] := by decide +kernel
/-- O12: `rx` is looked at before `ry`. -/
theorem test_drawoval_refuses_rx_first :
    let t := run State.reset [0x23, 0x0A, 0, 0x0A, 0, 0xFF, 0xFF, 0xFE, 0xFF, 1]
    t.status = 2 ∧ t.faultInfo = 0xFFFF := by decide +kernel

/-- TP4, TP2: the graphics bitmap is read though the target is the buffer. -/
theorem test_testpoint_set : (run { having 0x15 [0x10] with target := 1 } [0x24, 0x0B, 0, 1, 0]).result = 1 := by
  decide +kernel
theorem test_testpoint_clear : (run { having 0x15 [0x10] with result := 1 } [0x24, 0x0A, 0, 1, 0]).result = 0 := by
  decide +kernel

/-- W1, W2. -/
theorem test_scroll_left : bytesAt (run (having 0 [0x80, 0x01, 0x80]) [0x30, 0]) 0 3 = [0x00, 0x03, 0x00] := by
  decide +kernel
theorem test_scroll_right : bytesAt (run (having 0 [0x80, 0x01, 0x80]) [0x30, 1]) 0 3 = [0x40, 0x00, 0xC0] := by
  decide +kernel

/-- W6, W7. -/
theorem test_mirror_horizontal :
    bytesAt (run (having 0 [0x80, 0x01, 0x80]) [0x31, 0]) 16 4 = [0x00, 0x01, 0x80, 0x01] := by decide +kernel
theorem test_mirror_vertical :
    let t := run (having 0 [0x80, 0x01, 0x80]) [0x31, 1]
    bytesAt t 0 1 = [0x00] ∧ bytesAt t 0x62C 3 = [0x80, 0x01, 0x80] := by decide +kernel

/-- M1, M2. -/
theorem test_memfill :
    bytesAt (run State.reset [0x38, 0x00, 0x30, 0x04, 0x00, 0xAB]) 0x2FFF 6 = [0, 0xAB, 0xAB, 0xAB, 0xAB, 0] := by
  decide +kernel
theorem test_memfill_past_the_top :
    let t := run (having 0xFFFE [1, 2]) [0x38, 0xFE, 0xFF, 0x03, 0x00, 0xAB]
    t.status = 3 ∧ t.faultInfo = 0xFFFE ∧ bytesAt t 0xFFFE 2 = [1, 2] := by decide +kernel

/-- M5, M6: both directions of overlap. -/
theorem test_memcopy_up :
    bytesAt (run (having 0x3000 [1, 2, 3, 4, 5, 6]) [0x39, 0x02, 0x30, 0x00, 0x30, 0x04, 0x00]) 0x3000 6 =
      [1, 2, 1, 2, 3, 4] := by decide +kernel
theorem test_memcopy_down :
    bytesAt (run (having 0x3000 [1, 2, 3, 4, 5, 6]) [0x39, 0x00, 0x30, 0x02, 0x30, 0x04, 0x00]) 0x3000 6 =
      [3, 4, 5, 6, 5, 6] := by decide +kernel

/-- T14. -/
theorem test_txtmode :
    let t := run { having 0xD1B [0x99, 0x98] with curRow := 2, curCol := 7 } [0x40, 0x01]
    t.txtMode = 1 ∧ t.curRow = 0 ∧ t.curCol = 0 ∧ bytesAt t 0xD1B 2 = [0x20, 0x98] := by decide +kernel

/-- T9. -/
theorem test_txtloc_clamps :
    let t := run State.reset [0x41, 0x05, 0x00, 0x14, 0x00]
    t.curRow = 4 ∧ t.curCol = 19 := by decide +kernel
theorem test_txtloc_clamps_signed :
    let t := run State.reset [0x41, 0xFF, 0x7F, 0x00, 0x80]
    t.curRow = 4 ∧ t.curCol = 0 := by decide +kernel

/-- T10, T7: a character in the bottom right cell is found one row up. -/
theorem test_txtbyte_stores :
    let t := run State.reset [0x42, 0x7F]
    bytesAt t 0xC80 2 = [0x7F, 0x20] ∧ t.curRow = 0 ∧ t.curCol = 1 := by decide +kernel
theorem test_txtbyte_wraps_and_scrolls :
    let t := run { State.reset with curRow := 4, curCol := 19 } [0x42, 0x5A]
    bytesAt t 0xCCF 2 = [0x5A, 0x20] ∧ t.curRow = 4 ∧ t.curCol = 0 := by decide +kernel

/-- The example of R216, T8: a padding space before a pair. -/
theorem test_txtbytes :
    let t := run (having 0x2000 [0x48, 0x69, 0x0D, 0x0A, 0x09, 0x58]) [0x43, 0x00, 0x20, 0x06, 0x00]
    bytesAt t 0xC80 2 = [0x48, 0x69] ∧ bytesAt t 0xC94 2 = [0x20, 0x58] ∧ t.curRow = 1 ∧ t.curCol = 2 := by
  decide +kernel
theorem test_txtbytes_pads_a_pair :
    let t := run { having 0x2000 [0xB0, 0xA1] with curRow := 4, curCol := 19 } [0x43, 0x00, 0x20, 0x02, 0x00]
    bytesAt t 0xCCF 3 = [0x20, 0xB0, 0xA1] ∧ t.curRow = 4 ∧ t.curCol = 2 := by decide +kernel

/-- R221: every row skipped, the border and the gap lines cleared; row 1 keeps its other pixels. -/
theorem test_txtrender_border :
    let t := run { having 0 (List.replicate 21 0xFF) with txtMode := 1 } [0x44, 0xF8, 0x01]
    bytesAt t 0 1 = [0x00] ∧ bytesAt t 0x14 1 = [0x7F] := by decide +kernel
/-- R223: the first two cells of a row, with `N_A = 1`, which leaves the blank without a glyph, and code 0 in cell 1. -/
theorem test_text_row_glyph :
    let font := [(0, 0x00), (1, 0x18), (2, 0x24)] ++ (List.range 13).map fun i => (i + 3, 0x42)
    let m := drawCells { Params.default with nA := 1, nG := 0, font := font } 0 0 2 0
      ((having 0xC81 [0x00]).ram.storeBytes 0 (List.replicate 60 0xFF))
    m.loadBytes 0x14 3 = [0x00, 0x18, 0xFF] ∧ m.loadBytes 0x28 3 = [0x00, 0x24, 0xFF] := by decide +kernel

/-- R203's examples. -/
theorem test_glyph_offsets :
    glyphOff1 Params.default 0 0x41 = some 0x410 ∧ glyphOff1 Params.default 1 0x41 = some 0xB0C ∧
      glyphOff2 Params.default 0 0xB0 0xA1 = some 0xBE40 ∧ glyphOff2 Params.default 1 0xB0 0xA1 = some 0x4E2B0 ∧
      glyphOff2 Params.default 0 0x81 0x40 = none := by decide

/-- X1: `MemWrite` and `MemRead` at the top of RAM. -/
theorem test_mem_write :
    (Memory.empty.memWrite 0xFFFC .w32 0x01020304).toOption.map (·.loadBytes 0xFFFC 4) = some [4, 3, 2, 1] ∧
      (Memory.empty.memWrite 0xFFFD .w32 1).toOption = none := by decide +kernel

/-- R102's expansion, R103's, R104's, and the text of a command (R100). -/
theorem test_pseudo_commands :
    encode cls = [0x22, 0, 0, 0, 0, 0x9F, 0, 0x4F, 0, 4] ∧
      encode (drawCircle 10 11 3 1) = encode (.drawOval 10 11 3 3 1) ∧
      drawPoly [(0, 0), (4, 0), (4, 3)] 2 = [.drawLine 0 0 4 0 2, .drawLine 4 0 4 3 2, .drawLine 4 3 0 0 2] := by decide

/-- R53: a host write stores a negative value as its two's complement, least significant byte first. -/
theorem test_host_write :
    bytesAt (settle (step { State.reset with inbox := [.write 0x4000 .w16 (-2)] })) 0x4000 3 = [0xFE, 0xFF, 0x00] := by
  decide +kernel

/-- X1 with R240: a host access past 0xFFFF is `E_ADDR` with its address and writes nothing; a later one keeps the first. -/
theorem test_host_access_past_the_top :
    let t := settle (step { State.reset with inbox := [.write 0xFFFD .w32 (-1), .read 0xFFFF .w16] })
    let u := settle (step t)
    t.status = 3 ∧ t.faultInfo = 0xFFFD ∧ bytesAt t 0xFFFD 3 = [0, 0, 0] ∧ u.status = 3 ∧ u.faultInfo = 0xFFFD := by
  decide +kernel
theorem test_host_read_past_the_top :
    let t := settle (step { State.reset with inbox := [.read 0xFFFF .w16] })
    t.status = 3 ∧ t.faultInfo = 0xFFFF := by decide +kernel

/-- R67, R68: during a command a byte may be a mixture of old and new bits, during a host write it is one or the other. -/
theorem test_scan_out :
    scanByte (.packet 0x12 []) (having 0 [0xF0]) (having 0 [0x0F]) 0 0x3C = 0xCC ∧
      scanByte (.write 0 .w8 0x0F) (having 0 [0xF0]) (having 0 [0x0F]) 0 0x3D = 0x0F ∧
      scanByte (.write 0 .w8 0x0F) (having 0 [0xF0]) (having 0 [0x0F]) 0 0x3C = 0xF0 := by decide +kernel

/-! ### Witnesses: for every statement with hypotheses, states and operands that meet all of them together -/

/-- The reset state with the given actions of the host to come. -/
def facing (actions : List HostAction) : State := { State.reset with inbox := actions }

/-- A FAULTED state with the given actions of the host to come. -/
def faultedFacing (actions : List HostAction) : State := { State.reset with status := 2, faultInfo := 3, inbox := actions }

/-- The reset state with the cursor elsewhere. -/
def cursorAt (mode : BitVec 1) (r c : Nat) : State :=
  { State.reset with txtMode := mode, curRow := BitVec.ofNat 3 r, curCol := BitVec.ofNat 5 c }

theorem witness_sound : State.reset.Sound ∧ State.reset.Inv := by decide +kernel

theorem witness_EncodeOfDecodeIsThePacket :
    decode [0x44, 0xFF, 0xFF] = .ok (.txtRender 0xFFFF) ∧ decode [0x01] = .ok .reset := ⟨rfl, rfl⟩

/-- An illegal opcode alone, and a legal one a byte too short and a byte too long. -/
theorem witness_MalformedPacketRaisesOpcodeFault :
    ((facing [.packet 0xFF []]).status = 0 ∧ (facing [.packet 0xFF []]).hasPacket 0xFF [] [] ∧
      packetLength 0xFF ≠ some (([] : List Byte).length + 1)) ∧
    ((facing [.packet 0x44 [1]]).status = 0 ∧ (facing [.packet 0x44 [1]]).hasPacket 0x44 [1] [] ∧
      packetLength 0x44 ≠ some (([1] : List Byte).length + 1)) ∧
    ((facing [.packet 0x44 [1, 2, 3]]).status = 0 ∧ (facing [.packet 0x44 [1, 2, 3]]).hasPacket 0x44 [1, 2, 3] [] ∧
      packetLength 0x44 ≠ some (([1, 2, 3] : List Byte).length + 1)) :=
  ⟨⟨rfl, rfl, by decide⟩, ⟨rfl, rfl, by decide⟩, ⟨rfl, rfl, by decide⟩⟩

/-- The hypotheses of `WrongLengthFaults`, for every opcode of the map with no operand byte or thirteen. -/
theorem witness_WrongLengthFaults (op : Byte) :
    (facing [.packet op []]).status = 0 ∧ (facing [.packet op []]).hasPacket op [] [] ∧
      (facing [.packet op (List.replicate 13 0)]).hasPacket op (List.replicate 13 0) [] ∧
      (List.replicate 13 (0 : Byte)).length + 1 ≠ 1 ∧
      ∀ len ∈ [2, 3, 5, 6, 7, 10, 11, 13], ([] : List Byte).length + 1 ≠ len :=
  ⟨rfl, rfl, rfl, by decide, by decide⟩

theorem witness_StepRunsTheDecodedCommand :
    (facing [.packet 0x02 [1], .packet 0x12 []]).status = 0 ∧
      (facing [.packet 0x02 [1], .packet 0x12 []]).hasPacket 0x02 [1] [.packet 0x12 []] ∧
      decode (0x02 :: [1]) = .ok (.setTarget 1) := ⟨rfl, rfl, rfl⟩

theorem witness_IdleEngineWaits : State.reset.inbox = [] := rfl

/-- Clause by clause: `01 00`, `01`, the highest host write that fits, the first that does not, and a read. -/
theorem witness_FaultedEngineDiscardsPackets :
    (faultedFacing [.packet 0x01 [0]]).status ≠ 0 ∧ (faultedFacing [.packet 0x01 [0]]).hasPacket 0x01 [0] [] ∧
      (0x01 : Byte) :: [0] ≠ [0x01] ∧ (faultedFacing [.packet 0x01 []]).hasPacket 0x01 [] [] ∧
      (faultedFacing [.write 0xFFFC .w32 (-1)]).inbox = [.write 0xFFFC .w32 (-1)] ∧ 0xFFFC + Width.w32.bytes ≤ 65536 ∧
      (faultedFacing [.write 0xFFFD .w32 (-1)]).inbox = [.write 0xFFFD .w32 (-1)] ∧ 65536 < 0xFFFD + Width.w32.bytes ∧
      (faultedFacing [.read 0xFFFF .w16]).inbox = [.read 0xFFFF .w16] :=
  ⟨by decide, rfl, by decide, rfl, rfl, by decide, rfl, by decide, rfl⟩

theorem witness_OnlyResetLeavesFaulted :
    (faultedFacing [.packet 0x01 []]).status ≠ 0 ∧
      step (faultedFacing [.packet 0x01 []]) = .next (settle (step (faultedFacing [.packet 0x01 []]))) ∧
      (settle (step (faultedFacing [.packet 0x01 []]))).status = 0 :=
  ⟨by decide, next_of_completes (by decide +kernel), by decide +kernel⟩

/-- A write of the last byte, and a read that passes it. -/
theorem witness_ReadPortGivesTheRegisters :
    ((facing [.write 0xFFFF .w8 5]).inbox = [.write 0xFFFF .w8 5] ∧ 0xFFFF + Width.w8.bytes ≤ 65536 ∧
      step (facing [.write 0xFFFF .w8 5]) = .next (settle (step (facing [.write 0xFFFF .w8 5])))) ∧
    ((facing [.read 0xFFFF .w16]).inbox = [.read 0xFFFF .w16] ∧
      step (facing [.read 0xFFFF .w16]) = .next (settle (step (facing [.read 0xFFFF .w16])))) ∧ 2 ≤ 2 ∧ 6 < 7 :=
  ⟨⟨rfl, by decide, next_of_completes (by decide +kernel)⟩, ⟨rfl, next_of_completes (by decide +kernel)⟩, by decide,
    by decide⟩

/-- The highest write and read that fit and the first that do not. -/
theorem witness_HostWriteStoresLittleEndian :
    State.reset.ram.wf = true ∧ State.reset.status = 0 ∧ (facing [.write 0xFFFC .w32 (-2)]).inbox = [.write 0xFFFC .w32 (-2)] ∧
      0xFFFC + Width.w32.bytes ≤ 65536 ∧ 3 < Width.w32.bytes ∧
      (facing [.write 0xFFFD .w32 (-2)]).inbox = [.write 0xFFFD .w32 (-2)] ∧ 65536 < 0xFFFD + Width.w32.bytes ∧
      (facing [.read 0xFFFC .w32]).inbox = [.read 0xFFFC .w32] ∧ (facing [.read 0xFFFD .w32]).inbox = [.read 0xFFFD .w32] :=
  ⟨by decide +kernel, rfl, rfl, by decide, by decide, rfl, by decide, rfl, rfl⟩

theorem witness_MemReadIsLittleEndian : 65536 < 0xFFFD + Width.w32.bytes ∧ 0xFFFC + Width.w32.bytes ≤ 65536 := by decide

theorem witness_MemWriteReadsBack :
    State.reset.ram.wf = true ∧ 0xFFFC + Width.w32.bytes ≤ 65536 ∧ 0xFFFFFFFF < 256 ^ Width.w32.bytes := by decide +kernel

/-- One triple for each clause; the last two overlap, forward and backward. -/
theorem witness_CopyIsSafeForOverlap :
    State.reset.ram.wf = true ∧ (2 ≠ 0 ∧ 65536 < 0xFFFF + 2) ∧ (2 ≠ 0 ∧ 0xFFFE + 2 ≤ 65536 ∧ 65536 < 0xFFFF + 2) ∧
      (2 ≠ 0 ∧ 0xFFFE + 2 ≤ 65536 ∧ 0xFFFD + 2 ≤ 65536) := by decide +kernel

theorem witness_PowerOnState :
    Params.default.Valid ∧ Memory.empty.wf = true ∧ 155 < Params.default.textLen ∧
      (0xD1C < Params.default.graphBase ∨ Params.default.graphBase + 1600 ≤ 0xD1C) ∧
      (0xD1C < Params.default.bufBase ∨ Params.default.bufBase + 1600 ≤ 0xD1C) ∧
      (0xD1C < Params.default.textBase ∨ Params.default.textBase + Params.default.textLen ≤ 0xD1C) := by decide

/-- A FAULTED state, and the first address behind the segments. -/
theorem witness_ResetCommandResets :
    (faultedFacing []).Sound ∧
      (0xD1C < (faultedFacing []).cfg.graphBase ∨ (faultedFacing []).cfg.graphBase + 1600 ≤ 0xD1C) ∧
      (0xD1C < (faultedFacing []).cfg.bufBase ∨ (faultedFacing []).cfg.bufBase + 1600 ≤ 0xD1C) ∧
      (0xD1C < (faultedFacing []).cfg.textBase ∨
        (faultedFacing []).cfg.textBase + (faultedFacing []).cfg.textLen ≤ 0xD1C) := by decide +kernel

theorem witness_RegisterInvariantsArePreserved :
    (facing [.packet 0x42 [0x41]]).Inv ∧
      step (facing [.packet 0x42 [0x41]]) = .next (settle (step (facing [.packet 0x42 [0x41]]))) ∧
      exec (.txtByte 0x41) State.reset = .next (settle (exec (.txtByte 0x41) State.reset)) :=
  ⟨by decide +kernel, next_of_completes (by decide +kernel), next_of_completes (by decide +kernel)⟩

theorem witness_SoundStatesArePreserved :
    (facing [.packet 0x42 [0x41]]).Sound ∧
      step (facing [.packet 0x42 [0x41]]) = .next (settle (step (facing [.packet 0x42 [0x41]]))) :=
  ⟨by decide +kernel, next_of_completes (by decide +kernel)⟩

theorem witness_ParametersNeverChange :
    step (facing [.packet 0x01 []]) = .next (settle (step (facing [.packet 0x01 []]))) :=
  next_of_completes (by decide +kernel)

/-- A change of each register, by a command that may. -/
theorem witness_RegistersChangeOnlyByTheirCommands :
    (exec (.setTarget 1) State.reset = .next (settle (exec (.setTarget 1) State.reset)) ∧
      Instr.setTarget 1 ≠ .reset ∧ (settle (exec (.setTarget 1) State.reset)).target ≠ State.reset.target) ∧
    (settle (exec (.testPoint 0 0) (having 0 [0x80]))).result ≠ (having 0 [0x80]).result ∧
    (settle (exec (.txtMode 1) State.reset)).txtMode ≠ State.reset.txtMode ∧
    (settle (exec (.txtLoc 1 0) State.reset)).curRow ≠ State.reset.curRow ∧
    (settle (exec (.setTarget 2) State.reset)).status ≠ State.reset.status :=
  ⟨⟨rfl, by decide, by decide +kernel⟩, by decide +kernel, by decide +kernel, by decide +kernel, by decide +kernel⟩

theorem witness_FaultsArePrecise : State.reset.status = 0 := rfl

theorem witness_ReservedOperandsAreRefused :
    (Instr.setTarget 2).wf = false ∧ (Instr.setTarget 1).wf = true ∧ State.reset.status = 0 ∧
      (∀ a n, Instr.setTarget 1 ≠ .txtBytes a n) ∧
      exec (.setTarget 1) State.reset = .next (settle (exec (.setTarget 1) State.reset)) :=
  ⟨by decide, by decide, rfl, (fun _ _ h => by cases h), rfl⟩

/-- The byte behind the graphics bitmap, and a shape drawn on it. -/
theorem witness_CommandsStoreOnlyInTheirRanges :
    State.reset.Sound ∧ State.reset.Inv ∧
      exec (.drawPoint 159 79 1) State.reset = .next (settle (exec (.drawPoint 159 79 1) State.reset)) ∧
      ∀ r ∈ footprint State.reset (.drawPoint 159 79 1), 1600 < r.1 ∨ r.1 + r.2 ≤ 1600 :=
  ⟨by decide +kernel, by decide +kernel, next_of_completes (by decide +kernel), by decide +kernel⟩

theorem witness_SetTargetChoosesTheBitmap :
    2 ≤ (2 : Byte).toNat ∧ exec (.setTarget 1) State.reset = .next (settle (exec (.setTarget 1) State.reset)) ∧
      (settle (exec (.setTarget 1) State.reset)).target ≠ State.reset.target := ⟨by decide, rfl, by decide +kernel⟩

theorem witness_FlagsByteFields :
    readFlags 0x3D = some { mode := .xor, inv := true, space := .font, hm := true } ∧
      readFlags 0x01 = some { mode := .copy, inv := false, space := .ram, hm := false } := by decide

/-- Each reserved form; an empty block; the first block of each space that does not fit. -/
theorem witness_DrawDataChecksComeFirst :
    (0x08 : Byte).toNat % 8 = 0 ∧ (0x06 : Byte).toNat % 8 = 6 ∧ (0x07 : Byte).toNat % 8 = 7 ∧ 64 ≤ (0x41 : Byte).toNat ∧
    (1 ≤ (0x3D : Byte).toNat % 8 ∧ (0x3D : Byte).toNat % 8 ≤ 5 ∧ (0x3D : Byte).toNat < 64 ∧ (0 : Half).toInt ≤ 0 ∧
      (0x3D : Byte).getLsbD 4 = true ∧ 0 < (8 : Half).toInt ∧ 0 < (16 : Half).toInt ∧
      fontLen Params.default < (0x79AD1 : Addr24).toNat + ((8 : Half).toNat + 7) / 8 * (16 : Half).toNat) ∧
    ((0x01 : Byte).getLsbD 4 = false ∧ 65536 < (0xFFF9 : Addr24).toNat + ((8 : Half).toNat + 7) / 8 * (8 : Half).toNat) := by
  decide

/-- The last block of RAM, a source that ends where the target bitmap (the buffer) starts, and the last block of the font. -/
theorem witness_DrawDataBlitsTheBlock :
    State.reset.Sound ∧ readFlags 0x01 = some { mode := .copy, inv := false, space := .ram, hm := false } ∧
      0 < (8 : Half).toInt ∧ (0xFFF8 : Addr24).toNat + ((8 : Half).toNat + 7) / 8 * (8 : Half).toNat ≤ 65536 ∧
      apart (0xFFF8 : Addr24).toNat (((8 : Half).toNat + 7) / 8 * (8 : Half).toNat) State.reset.targetBase 1600 ∧
      apart (0x638 : Addr24).toNat (((8 : Half).toNat + 7) / 8 * (8 : Half).toNat)
        ({ State.reset with target := 1 } : State).targetBase 1600 ∧
      readFlags 0x11 = some { mode := .copy, inv := false, space := .font, hm := false } ∧
      (0x79AD8 : Addr24).toNat + ((8 : Half).toNat + 7) / 8 * (8 : Half).toNat ≤ fontLen State.reset.cfg := by
  decide +kernel

theorem witness_ByteDatapathIsTheBlit : State.reset.ram.wf = true ∧ 0xF9C0 + 1600 ≤ 65536 ∧ 1 ≤ 1 := by decide +kernel

theorem witness_SaveDataChecksComeFirst :
    (7 : Half).toInt < 8 ∧ (0 : Half).toInt ≤ 0 ∧ State.reset.cfg.saveTruncHeight = true ∧ 8 ≤ (8 : Half).toInt ∧
      65536 < (0xFFF9 : Half).toNat + (8 : Half).toNat / 8 * (8 * ((8 : Half).toNat / 8)) := by decide

/-- A block that ends at the top of RAM, and one that starts right behind the target bitmap. -/
theorem witness_SaveDataCopiesTheRegion :
    State.reset.Sound ∧ 1 = (8 : Half).toNat / 8 ∧
      8 = (if State.reset.cfg.saveTruncHeight then 8 * ((8 : Half).toNat / 8) else (8 : Half).toNat) ∧
      0 < (8 : Half).toInt ∧ (0xFFF8 : Half).toNat + 1 * 8 ≤ 65536 ∧
      apart (0xFFF8 : Half).toNat (1 * 8) State.reset.targetBase 1600 ∧
      apart (0x640 : Half).toNat (1 * 8) State.reset.targetBase 1600 := by decide +kernel

theorem witness_SavedBlockDrawsBack :
    State.reset.Sound ∧ 0 < (8 : Half).toInt ∧ 1 ≤ savedWidth 8 ∧ 1 ≤ savedHeight State.reset.cfg 8 ∧
      (0x3000 : Half).toNat + savedWidth 8 * savedHeight State.reset.cfg 8 ≤ 65536 ∧
      apart (0x3000 : Half).toNat (savedWidth 8 * savedHeight State.reset.cfg 8) State.reset.targetBase 1600 ∧
      exec (.saveData 0 0 8 8 0x3000) State.reset = .next (settle (exec (.saveData 0 0 8 8 0x3000) State.reset)) ∧
      (settle (exec (.saveData 0 0 8 8 0x3000) State.reset)).Sound ∧
      (settle (exec (.saveData 0 0 8 8 0x3000) State.reset)).cfg = State.reset.cfg ∧
      (settle (exec (.saveData 0 0 8 8 0x3000) State.reset)).target = State.reset.target :=
  ⟨by decide +kernel, by decide, by decide, by decide +kernel, by decide +kernel, by decide +kernel,
    next_of_completes (by decide +kernel), by decide +kernel, by decide +kernel, by decide +kernel⟩

/-- Ranges that meet in one address only. -/
theorem witness_OverlapLeavesOnlyItsRangesOpen :
    State.reset.Sound ∧ ¬ apart (1599 : Addr24).toNat (((8 : Half).toNat + 7) / 8 * (1 : Half).toNat) State.reset.targetBase 1600 ∧
      8 = savedWidth 8 * savedHeight State.reset.cfg 8 ∧ ¬ apart (1599 : Half).toNat 8 State.reset.targetBase 1600 ∧
      0 < (2 : Half).toNat ∧ loneLead (State.reset.ram.loadBytes (0xC7F : Half).toNat (2 : Half).toNat) = none ∧
      ¬ apart (0xC7F : Half).toNat (2 : Half).toNat State.reset.cfg.textBase (State.reset.rows * State.reset.cols) := by
  decide +kernel

/-- The mode bytes of the four shapes: the first reserved and the last legal value of each form. -/
theorem witness_shape_modes :
    3 ≤ (3 : Byte).toNat ∧ (2 : Byte).toNat < 3 ∧ (7 : Byte).toNat % 4 = 3 ∧ 8 ≤ (8 : Byte).toNat ∧
      ((6 : Byte).toNat % 4 < 3 ∧ (6 : Byte).toNat < 8) ∧
      DrawMode.invert = [DrawMode.clear, .normal, .invert].getD ((6 : Byte).toNat % 4) .clear := by decide

theorem witness_DrawPointPlotsOnePoint :
    State.reset.Sound ∧ (2 : Byte).toNat < 3 ∧
      DrawMode.invert = [DrawMode.clear, .normal, .invert].getD (2 : Byte).toNat .clear := by decide +kernel

theorem witness_DrawLinePlotsTheLine :
    State.reset.Sound ∧ (0 : Byte).toNat < 3 ∧
      DrawMode.clear = [DrawMode.clear, .normal, .invert].getD (0 : Byte).toNat .clear := by decide +kernel

theorem witness_DrawRectPlotsTheRectangle :
    State.reset.Sound ∧ (5 : Byte).toNat % 4 < 3 ∧ (5 : Byte).toNat < 8 ∧
      DrawMode.normal = [DrawMode.clear, .normal, .invert].getD ((5 : Byte).toNat % 4) .clear := by decide +kernel

theorem witness_DrawOvalPlotsTheOval :
    State.reset.Sound ∧ (5 : Byte).toNat % 4 < 3 ∧ (5 : Byte).toNat < 8 ∧ (0xFFFF : Half).toInt < 0 ∧
      (0 ≤ (0 : Half).toInt ∧ (0x8000 : Half).toInt < 0) ∧ (0 ≤ (0 : Half).toInt ∧ 0 ≤ (0x7FFF : Half).toInt) ∧
      DrawMode.normal = [DrawMode.clear, .normal, .invert].getD ((5 : Byte).toNat % 4) .clear := by decide +kernel

theorem witness_OvalQuadrantPointsDescend : 1 ≤ 1 ∧ 1 * 1 + 1 ≤ 2 := by decide

theorem witness_InvertShapeTwiceRestores :
    State.reset.Sound ∧ invertShape (.drawRect 0 0 3 3 6) = true ∧
      exec (.drawRect 0 0 3 3 6) State.reset = .next (settle (exec (.drawRect 0 0 3 3 6) State.reset)) :=
  ⟨by decide +kernel, by decide, next_of_completes (by decide +kernel)⟩

/-- `SCROLL`, `MIRROR` and `TXTMODE`: the first reserved value and both legal ones. -/
theorem witness_selectors :
    State.reset.Sound ∧ 2 ≤ (2 : Byte).toNat ∧ (1 : Byte).toNat < 2 ∧ (0 : Byte).toNat < 2 := by decide +kernel

theorem witness_MirrorReversesTheBitmap :
    State.reset.Sound ∧ (1 : Byte).toNat < 2 ∧
      exec (.mirror 1) State.reset = .next (settle (exec (.mirror 1) State.reset)) :=
  ⟨by decide +kernel, by decide, next_of_completes (by decide +kernel)⟩

theorem witness_MemFillFillsTheRange :
    State.reset.ram.wf = true ∧ (2 : Half) ≠ 0 ∧ 65536 < (0xFFFF : Half).toNat + (2 : Half).toNat ∧
      (0xFFFE : Half).toNat + (2 : Half).toNat ≤ 65536 := by decide +kernel

theorem witness_MemCopyMovesTheRange :
    State.reset.ram.wf = true ∧ (2 : Half) ≠ 0 ∧ 65536 < (0xFFFF : Half).toNat + (2 : Half).toNat ∧
      (0xFFFE : Half).toNat + (2 : Half).toNat ≤ 65536 ∧ (0xFFFD : Half).toNat + (2 : Half).toNat ≤ 65536 := by
  decide +kernel

/-- A row before the last, and the last row of each mode. -/
theorem witness_NewLineAdvancesOrScrolls :
    ((cursorAt 0 3 19).Sound ∧ (cursorAt 0 3 19).Inv ∧ (cursorAt 0 3 19).curRow.toNat + 1 < (cursorAt 0 3 19).rows) ∧
    ((cursorAt 0 4 0).Sound ∧ (cursorAt 0 4 0).Inv ∧ (cursorAt 0 4 0).curRow.toNat + 1 = (cursorAt 0 4 0).rows) ∧
    ((cursorAt 1 5 25).Sound ∧ (cursorAt 1 5 25).Inv ∧
      (cursorAt 1 5 25).curRow.toNat + 1 = (cursorAt 1 5 25).rows) := by decide +kernel

theorem witness_PutCellStoresAndAdvances :
    ((cursorAt 0 4 18).Sound ∧ (cursorAt 0 4 18).Inv ∧ (cursorAt 0 4 18).curCol.toNat + 1 < (cursorAt 0 4 18).cols) ∧
    ((cursorAt 1 5 25).Sound ∧ (cursorAt 1 5 25).Inv ∧
      (cursorAt 1 5 25).curCol.toNat + 1 = (cursorAt 1 5 25).cols) := by decide +kernel

theorem witness_AddPairKeepsPairsTogether :
    ((cursorAt 0 4 19).Sound ∧ (cursorAt 0 4 19).Inv ∧ (cursorAt 0 4 19).curCol.toNat = (cursorAt 0 4 19).cols - 1) ∧
    ((cursorAt 0 4 18).Sound ∧ (cursorAt 0 4 18).Inv ∧ (cursorAt 0 4 18).curCol.toNat ≠ (cursorAt 0 4 18).cols - 1 ∧
      (cursorAt 0 4 18).curCol.toNat + 2 = (cursorAt 0 4 18).cols) ∧
    ((cursorAt 0 4 17).Sound ∧ (cursorAt 0 4 17).Inv ∧
      (cursorAt 0 4 17).curCol.toNat + 2 < (cursorAt 0 4 17).cols) := by decide +kernel

theorem witness_TxtByteAppendsOneCharacter :
    0x80 ≤ (0x80 : Byte).toNat ∧
      ((0x7F : Byte).toNat < 0x80 ∧ (0x7F : Byte) ≠ 0x0D ∧ (0x7F : Byte) ≠ 0x0A ∧ (0x7F : Byte) ≠ 0x09) := by decide

/-- A sequence of one character and one pair that ends where the grid starts, and one that ends in a lone lead byte. -/
theorem witness_TxtBytesAppendsTheSequence :
    ((2 : Half) ≠ 0 ∧ 65536 < (0xFFFF : Half).toNat + (2 : Half).toNat) ∧
    ((3 : Half) ≠ 0 ∧ (0xC7D : Half).toNat + (3 : Half).toNat ≤ 65536 ∧
      (∀ u ∈ [TextToken.one 0x7F, .pair 0x80 0x0A], u.ok = true) ∧
      (having 0xC7D [0x7F, 0x80, 0x0A]).ram.loadBytes (0xC7D : Half).toNat (3 : Half).toNat =
        [TextToken.one 0x7F, .pair 0x80 0x0A].flatMap TextToken.bytes ∧
      apart (0xC7D : Half).toNat (3 : Half).toNat (having 0xC7D [0x7F, 0x80, 0x0A]).cfg.textBase
        ((having 0xC7D [0x7F, 0x80, 0x0A]).rows * (having 0xC7D [0x7F, 0x80, 0x0A]).cols)) ∧
    (0x80 ≤ (0xB0 : Byte).toNat ∧
      (having 0x2000 [0x41, 0x42, 0xB0]).ram.loadBytes (0x2000 : Half).toNat (3 : Half).toNat =
        [TextToken.one 0x41, .one 0x42].flatMap TextToken.bytes ++ [0xB0]) := by decide +kernel

theorem witness_GlyphsLieInsideTheFont :
    glyphOff1 Params.default 1 0x7F = some 3572 ∧ glyphOff2 Params.default 1 0xFE 0xFE = some 498376 := by decide

/-- The last cell of the grid, alone, and a pair that ends in it. -/
theorem witness_TxtRenderDrawsEveryGlyph :
    let s := having 0xCE2 [0xB0, 0xA1]
    s.Sound ∧ 4 < s.rows ∧ 19 < s.cols ∧ rowSkipped s.cfg 0x01E0 4 = false ∧
      (startsCell (fun k => s.ram.byteAt (s.cell 4 k)) s.cols 18 = true ∧
        pairAt (fun k => s.ram.byteAt (s.cell 4 k)) s.cols 18 = true) ∧
      (startsCell (fun k => State.reset.ram.byteAt (State.reset.cell 4 k)) 20 19 = true ∧
        pairAt (fun k => State.reset.ram.byteAt (State.reset.cell 4 k)) 20 19 = false) := by decide +kernel

/-- The last pixel row of a skipped text row; in small mode a gap line, and a pixel right of the grid. -/
theorem witness_TxtRenderKeepsOtherPixels :
    State.reset.Sound ∧ (cursorAt 1 0 0).Sound ∧
      (∀ r < 5, rowSkipped State.reset.cfg 0x0100 r = false → ¬ (0 ≤ 0 ∧ 0 < 0 + 8 * 20 ∧ 0 + 16 * r ≤ 15 ∧ 15 < 0 + 16 * r + 16)) ∧
      (∀ r < 6, ¬ (1 + 13 * r ≤ 13 ∧ 13 < 1 + 13 * r + 12)) ∧ ¬ 157 < 1 + 6 * 26 := by decide +kernel

end Sys2Proof.Tests
end

/-! # The state's invariants (spec 10_state.md)

What a command can do is said once, by `CommandEffect` and `exec_effect`; what a step can do once, by `step_preserves`. Each
statement about all commands or all steps is then a case analysis over the few effects. -/

section
namespace Sys2Proof.Machine

/-! ### The text engine -/

/-- The cursor lies inside the grid of the current mode (R33, R207). -/
def State.InGrid (s : State) : Prop := s.curRow.toNat < s.rows ∧ s.curCol.toNat < s.cols

theorem State.grid_cases (s : State) : s.cols = 20 ∧ s.rows = 5 ∨ s.cols = 26 ∧ s.rows = 6 := colsOf_cases s.txtMode

theorem State.inGrid_setCursor {s : State} {r c : Nat} (hr : r < s.rows) (hc : c < s.cols) : (s.setCursor r c).InGrid := by
  have hgrid := s.grid_cases
  simp only [State.InGrid, State.setCursor_curRow, State.setCursor_curCol, State.rows_setCursor, State.cols_setCursor,
    BitVec.toNat_ofNat]
  omega

/-- What the operations of the text engine have in common: they change RAM and the cursor (and count a draw), keep RAM
canonical and the cursor inside the grid. -/
structure TextEdit (s t : State) : Prop where
  frame : t = { s with ram := t.ram, curRow := t.curRow, curCol := t.curCol, draws := t.draws }
  wf : s.ram.wf = true → t.ram.wf = true
  inGrid : s.InGrid → t.InGrid

namespace TextEdit

variable {s t u : State}

theorem status (h : TextEdit s t) : t.status = s.status := by rw [h.frame]
theorem faultInfo (h : TextEdit s t) : t.faultInfo = s.faultInfo := by rw [h.frame]
theorem result (h : TextEdit s t) : t.result = s.result := by rw [h.frame]
theorem target (h : TextEdit s t) : t.target = s.target := by rw [h.frame]
theorem txtMode (h : TextEdit s t) : t.txtMode = s.txtMode := by rw [h.frame]
theorem cfg (h : TextEdit s t) : t.cfg = s.cfg := by rw [h.frame]

theorem refl (s : State) : TextEdit s s := ⟨rfl, id, id⟩

theorem trans (h : TextEdit s t) (h' : TextEdit t u) : TextEdit s u where
  frame := h'.frame.trans (by rw [h.frame])
  wf := h'.wf ∘ h.wf
  inGrid := h'.inGrid ∘ h.inGrid

theorem setRam {m : Memory} (hm : s.ram.wf = true → m.wf = true) : TextEdit s (s.setRam m) := ⟨rfl, hm, id⟩

theorem setCursor {r c : Nat} (h : s.InGrid → r < s.rows ∧ c < s.cols) : TextEdit s (s.setCursor r c) :=
  ⟨rfl, id, fun hs => State.inGrid_setCursor (h hs).1 (h hs).2⟩

theorem countDraw (s : State) : TextEdit s s.countDraw := ⟨rfl, id, id⟩

theorem setCell (s : State) (i : Nat) (b : Byte) : TextEdit s (s.setCell i b) := setRam fun hm => State.wf_setCell hm i b

theorem newLine (s : State) : TextEdit s s.newLine := by
  have hgrid := s.grid_cases
  rcases s.newLine_cases with ⟨hrow, e⟩ | ⟨-, e⟩ <;> rw [e]
  · exact setCursor fun _ => by omega
  · exact (setRam State.wf_scrollGrid).trans (setCursor fun _ => by
      simp only [State.rows_setRam, State.cols_setRam]
      omega)

theorem advance (s : State) (n : Nat) : TextEdit s (s.advance n) := by
  rcases s.advance_cases n with ⟨hcol, e⟩ | ⟨-, e⟩ <;> rw [e]
  · exact setCursor fun hs => ⟨hs.1, hcol⟩
  · exact newLine s

theorem putCell (s : State) (b : Byte) : TextEdit s (s.putCell b) := (setCell s 0 b).trans (advance _ 1)

theorem addOne (s : State) (b : Byte) : TextEdit s (s.addOne b) := by
  rcases s.addOne_cases b with ⟨-, e⟩ | ⟨-, e⟩ | ⟨-, e⟩ | ⟨-, -, -, e⟩ <;> rw [e]
  · exact refl s
  · exact newLine s
  · exact putCell s _
  · exact putCell s b

theorem addPair (s : State) (b1 b2 : Byte) : TextEdit s (s.addPair b1 b2) := by
  have hpad : TextEdit s (if s.curCol.toNat = s.cols - 1 then s.putCell 0x20 else s) := by
    split
    · exact putCell s _
    · exact refl s
  exact ((hpad.trans (setCell _ 0 b1)).trans (setCell _ 1 b2)).trans (advance _ 2)

theorem addSeq (s : State) (bs : List Byte) : TextEdit s (s.addSeq bs) := by
  fun_induction State.addSeq s bs with
  | case1 s => exact refl s
  | case2 s b => exact addOne s b
  | case3 s b b2 rest _ ih => exact (addPair s b b2).trans ih
  | case4 s b b2 rest _ ih => exact (addOne s b).trans ih

/-- The unspecified overlap of `TXTBYTES` (R275): the free cursor is brought inside the grid. -/
theorem freeText (s : State) : TextEdit s s.freeText := by
  have hgrid := s.grid_cases
  have hcursor : Config.freeRow s.draws % s.rows < s.rows ∧ Config.freeCol s.draws % s.cols < s.cols :=
    ⟨Nat.mod_lt _ (by omega), Nat.mod_lt _ (by omega)⟩
  exact ((setRam fun hm => Memory.wf_freeRange hm _ _ _).trans (setCursor fun _ => hcursor)).trans (countDraw _)

end TextEdit

/-! ### What a command can do -/

/-- Everything the command `i` can do to the state `s`, all its paths together (R26, R243, R245): a fault, an edit of RAM
alone (a command without effect, a transfer, a shape, an unspecified overlap), or the one register update of a command that
has one. -/
inductive CommandEffect (s : State) : Instr → State → Prop where
  /-- `raise` (R243). -/
  | fault (i : Instr) (f : FaultCode) (info : Nat) : CommandEffect s i (s.raise f info)
  /-- Only RAM, kept canonical, and the count of draws. -/
  | ram (i : Instr) (m : Memory) (n : Nat) (hm : s.ram.wf = true → m.wf = true) :
    CommandEffect s i { s with ram := m, draws := n }
  /-- `RESET` (R110). -/
  | reset : CommandEffect s .reset s.resetByCommand
  /-- `SETTARGET` (R111). -/
  | setTarget (t : Byte) (v : BitVec 1) : CommandEffect s (.setTarget t) (s.setTarget v)
  /-- `TESTPOINT` (R160). -/
  | testPoint (x y : Half) (b : Bool) : CommandEffect s (.testPoint x y) (s.setResult (if b then 1 else 0))
  /-- `TXTMODE` (R213). -/
  | txtMode (m : Byte) (v : BitVec 1) :
    CommandEffect s (.txtMode m) (((s.setTxtMode v).setCursor 0 0).setRam (blankText s.cfg s.ram))
  /-- `TXTLOC` (R214). -/
  | txtLoc (row col : Half) {t : State} (ht : TextEdit s t) : CommandEffect s (.txtLoc row col) t
  /-- `TXTBYTE` (R215). -/
  | txtByte (b : Byte) {t : State} (ht : TextEdit s t) : CommandEffect s (.txtByte b) t
  /-- `TXTBYTES` (R216). -/
  | txtBytes (addr count : Half) {t : State} (ht : TextEdit s t) : CommandEffect s (.txtBytes addr count) t

namespace CommandEffect

variable {s t : State}

theorem unchanged (s : State) (i : Instr) : CommandEffect s i s := .ram i s.ram s.draws id

theorem of_setRam (i : Instr) {m : Memory} (hm : s.ram.wf = true → m.wf = true)
    (h : .next (s.setRam m) = (.next t : StepOutcome)) : CommandEffect s i t := by
  cases h
  exact .ram i m s.draws hm

theorem of_overlap (i : Instr) {m : Memory} (hm : s.ram.wf = true → m.wf = true)
    (h : .next (s.setRam m).countDraw = (.next t : StepOutcome)) : CommandEffect s i t := by
  cases h
  exact .ram i m (s.draws + 1) hm

theorem of_unchanged (i : Instr) (h : .next s = (.next t : StepOutcome)) : CommandEffect s i t := by
  cases h
  exact unchanged s i

theorem of_raiseFault (i : Instr) {f : FaultCode} {info : Nat} (h : raiseFault f info s = .next t) :
    CommandEffect s i t := by
  cases h
  exact .fault i f info

theorem of_plotOnTarget (i : Instr) {box : Box} {inS : Int → Int → Bool} {dm : DrawMode}
    (h : plotOnTarget s box inS dm = .next t) : CommandEffect s i t :=
  of_setRam i (fun hm => Memory.wf_plotSet hm _ _ _ _) h

theorem of_withAddressFault (i : Instr) {r : Except AddressFault Memory}
    (hr : ∀ m, r = .ok m → s.ram.wf = true → m.wf = true) (h : withAddressFault s r = .next t) : CommandEffect s i t := by
  rcases withAddressFault_cases h with ⟨m, hm, rfl⟩ | ⟨f, -, rfl⟩
  · exact .ram i m s.draws (hr m hm)
  · exact .fault i .eAddr f.addr

theorem of_execSetTarget {v : Byte} (h : execSetTarget v s = .next t) : CommandEffect s (.setTarget v) t := by
  unfold execSetTarget at h
  split at h
  · exact of_raiseFault _ h
  · cases h
    exact .setTarget v _

theorem of_execDrawData {x y w h : Half} {addr : Addr24} {flags : Byte} (e : execDrawData x y w h addr flags s = .next t) :
    CommandEffect s (.drawData x y w h addr flags) t := by
  unfold execDrawData at e
  split at e
  · exact of_raiseFault _ e
  · dsimp only at e
    split at e
    · exact of_unchanged _ e
    split at e
    · exact of_raiseFault _ e
    split at e
    · exact of_overlap _ (fun hm => Memory.wf_freeRange hm _ _ _) e
    · exact of_setRam _ (fun hm => Memory.wf_blit hm _ _ _) e

theorem of_execSaveData {x y w h addr : Half} (e : execSaveData x y w h addr s = .next t) :
    CommandEffect s (.saveData x y w h addr) t := by
  unfold execSaveData at e
  dsimp only at e
  split at e
  · exact of_unchanged _ e
  split at e
  · exact of_unchanged _ e
  split at e
  · exact of_raiseFault _ e
  split at e
  · exact of_overlap _ (fun hm => Memory.wf_freeRange (Memory.wf_freeRange hm _ _ _) _ _ _) e
  · exact of_setRam _ (fun hm => Memory.wf_storeBytes hm _ _) e

theorem of_execDrawPoint {x y : Half} {sm : Byte} (h : execDrawPoint x y sm s = .next t) :
    CommandEffect s (.drawPoint x y sm) t := by
  unfold execDrawPoint at h
  split at h
  · exact of_raiseFault _ h
  · exact of_plotOnTarget _ h

theorem of_execDrawLine {x0 y0 x1 y1 : Half} {sm : Byte} (h : execDrawLine x0 y0 x1 y1 sm s = .next t) :
    CommandEffect s (.drawLine x0 y0 x1 y1 sm) t := by
  unfold execDrawLine at h
  split at h
  · exact of_raiseFault _ h
  · exact of_plotOnTarget _ h

theorem of_execDrawRect {x0 y0 x1 y1 : Half} {sm : Byte} (h : execDrawRect x0 y0 x1 y1 sm s = .next t) :
    CommandEffect s (.drawRect x0 y0 x1 y1 sm) t := by
  unfold execDrawRect at h
  split at h
  · exact of_raiseFault _ h
  · exact of_plotOnTarget _ h

theorem of_execDrawOval {cx cy rx ry : Half} {sm : Byte} (h : execDrawOval cx cy rx ry sm s = .next t) :
    CommandEffect s (.drawOval cx cy rx ry sm) t := by
  unfold execDrawOval at h
  split at h
  · exact of_raiseFault _ h
  split at h
  · exact of_raiseFault _ h
  split at h
  · exact of_raiseFault _ h
  · exact of_plotOnTarget _ h

theorem of_execScroll {dir : Byte} (h : execScroll dir s = .next t) : CommandEffect s (.scroll dir) t := by
  unfold execScroll at h
  split at h
  · exact of_raiseFault _ h
  · exact of_setRam _ (fun hm => Memory.wf_rewriteBitmap hm _ _) h

theorem of_execMirror {dir : Byte} (h : execMirror dir s = .next t) : CommandEffect s (.mirror dir) t := by
  unfold execMirror at h
  split at h
  · exact of_raiseFault _ h
  · exact of_setRam _ (fun hm => Memory.wf_rewriteBitmap hm _ _) h

theorem of_execTxtMode {m : Byte} (h : execTxtMode m s = .next t) : CommandEffect s (.txtMode m) t := by
  unfold execTxtMode at h
  split at h
  · exact of_raiseFault _ h
  · cases h
    exact .txtMode m _

/-- The clamp of R214 brings every operand inside the grid. -/
theorem of_execTxtLoc {row col : Half} (h : execTxtLoc row col s = .next t) : CommandEffect s (.txtLoc row col) t := by
  cases h
  have hgrid := s.grid_cases
  exact .txtLoc row col (.setCursor fun _ => by
    unfold clampBelow
    omega)

theorem of_execTxtByte {b : Byte} (h : execTxtByte b s = .next t) : CommandEffect s (.txtByte b) t := by
  unfold execTxtByte at h
  split at h
  · exact of_raiseFault _ h
  · cases h
    exact .txtByte b (.addOne s b)

theorem of_execTxtBytes {addr count : Half} (h : execTxtBytes addr count s = .next t) :
    CommandEffect s (.txtBytes addr count) t := by
  unfold execTxtBytes at h
  split at h
  · exact of_unchanged _ h
  split at h
  · exact of_raiseFault _ h
  split at h
  · exact of_raiseFault _ h
  split at h
  · cases h
    exact .txtBytes addr count (.freeText s)
  · cases h
    exact .txtBytes addr count (.addSeq s _)

end CommandEffect

open CommandEffect in
/-- Whatever a command answers is one of its effects. -/
theorem exec_effect {i : Instr} {s t : State} (h : exec i s = .next t) : CommandEffect s i t := by
  cases i with
  | reset =>
    cases h
    exact .reset
  | setTarget t => exact of_execSetTarget h
  | drawData x y w h' addr flags => exact of_execDrawData h
  | saveData x y w h' addr => exact of_execSaveData h
  | render => exact of_setRam _ (fun hm => Memory.wf_storeBytes hm _ _) h
  | drawPoint x y sm => exact of_execDrawPoint h
  | drawLine x0 y0 x1 y1 sm => exact of_execDrawLine h
  | drawRect x0 y0 x1 y1 sm => exact of_execDrawRect h
  | drawOval cx cy rx ry sm => exact of_execDrawOval h
  | testPoint x y =>
    cases h
    exact .testPoint x y _
  | scroll dir => exact of_execScroll h
  | mirror dir => exact of_execMirror h
  | memFill addr count value => exact of_withAddressFault _ (fun _ hr hm => Memory.wf_fill hm hr) h
  | memCopy dest src count => exact of_withAddressFault _ (fun _ hr hm => Memory.wf_copy hm hr) h
  | txtMode m => exact of_execTxtMode h
  | txtLoc row col => exact of_execTxtLoc h
  | txtByte b => exact of_execTxtByte h
  | txtBytes addr count => exact of_execTxtBytes h
  | txtRender mask => exact of_setRam _ (fun hm => wf_drawRows _ _ _ _ _ (wf_clearBorder _ _ hm)) h

/-! ### What a step can do -/

/-- A packet delivered to the port is discarded, refused, or runs its command (R246, R241). -/
theorem deliver_cases {op : Byte} {operands : List Byte} {s t : State} (h : deliver op operands s = .next t) :
    t = s ∨ t = s.raise .eOpcode op.toNat ∨ ∃ i, decode (op :: operands) = .ok i ∧ exec i s = .next t := by
  unfold deliver at h
  split at h
  · unfold runPacket at h
    split at h
    · exact .inr (.inr ⟨_, ‹_›, h⟩)
    · cases h
      exact .inr (.inl rfl)
  · cases h
    exact .inl rfl

/-- A host access edits at most RAM where it fits, and where it does not raises `E_ADDR` or does nothing (R68, R240). -/
theorem hostAccess_cases {a : HostAction} {addr : Nat} {w : Width} {s t : State}
    (ha : a = .read addr w ∨ ∃ v, a = .write addr w v) (h : perform a s = .next t) :
    (addr + w.bytes ≤ 65536 ∧ ∃ m, (s.ram.wf = true → m.wf = true) ∧ t = s.setRam m) ∨
    (65536 < addr + w.bytes ∧ (t = s ∨ t = s.raise .eAddr addr)) := by
  by_cases hfit : addr + w.bytes ≤ 65536
  · refine .inl ⟨hfit, ?_⟩
    obtain rfl | ⟨v, rfl⟩ := ha
    · rw [perform, hostRead_eq, if_pos hfit] at h
      cases h
      exact ⟨s.ram, id, rfl⟩
    · rw [perform, hostWrite_eq, if_pos hfit] at h
      cases h
      exact ⟨_, fun hm => Memory.wf_storeBytes hm _ _, rfl⟩
  · refine .inr ⟨by omega, ?_⟩
    have hnext : (if s.status = 0 then s.raise .eAddr addr else s) = t := by
      obtain rfl | ⟨v, rfl⟩ := ha
      · rw [perform, hostRead_eq, if_neg hfit] at h
        exact Host.Outcome.next.inj h
      · rw [perform, hostWrite_eq, if_neg hfit] at h
        exact Host.Outcome.next.inj h
    split at hnext
    · exact .inr hnext.symm
    · exact .inl hnext.symm

theorem step_of_inbox {s : State} {a : HostAction} {rest : List HostAction} (h : s.inbox = a :: rest) :
    step s = perform a (s.setInbox rest) := by
  unfold step nextAction
  rw [h]

/-- A step is made of four things: the host's action taken from the inbox, a fault raised, RAM edited, a command run. What
each of them keeps, every step keeps. -/
theorem step_preserves {P : State → Prop} (hinbox : ∀ u rest, P u → P (u.setInbox rest))
    (hraise : ∀ u f info, P u → P (u.raise f info))
    (hram : ∀ u m, (u.ram.wf = true → m.wf = true) → P u → P (u.setRam m))
    (hexec : ∀ i u v, P u → exec i u = .next v → P v) {s t : State} (hs : P s) (h : step s = .next t) : P t := by
  cases hin : s.inbox with
  | nil =>
    unfold step nextAction at h
    rw [hin] at h
    cases h
    exact hs
  | cons a rest =>
    rw [step_of_inbox hin] at h
    have hu : P (s.setInbox rest) := hinbox s rest hs
    have haccess : ∀ addr w, (a = .read addr w ∨ ∃ v, a = .write addr w v) → P t := by
      intro addr w ha
      rcases hostAccess_cases ha h with ⟨-, m, hm, rfl⟩ | ⟨-, rfl | rfl⟩
      · exact hram _ m hm hu
      · exact hu
      · exact hraise _ _ _ hu
    cases a with
    | packet op operands =>
      rcases deliver_cases h with rfl | rfl | ⟨i, -, hi⟩
      · exact hu
      · exact hraise _ _ _ hu
      · exact hexec i _ t hu hi
    | write addr w v => exact haccess addr w (.inr ⟨v, rfl⟩)
    | read addr w => exact haccess addr w (.inl rfl)

/-! ### R39's invariants of the registers -/

theorem FaultCode.code_ne_zero (f : FaultCode) : f.code ≠ 0 := by cases f <;> decide

theorem FaultCode.code_le (f : FaultCode) : f.code.toNat ≤ 3 := by cases f <;> decide

/-- R39's invariants of `STATUS`, `FAULTINFO` and `RESULT`. -/
def State.CodesOk (s : State) : Prop :=
  s.status.toNat ≤ 3 ∧ (s.status = 0 → s.faultInfo = 0) ∧ s.result.toNat ≤ 1

theorem State.inv_iff (s : State) : s.Inv ↔ s.InGrid ∧ s.CodesOk := by
  unfold State.InGrid State.CodesOk
  exact and_assoc.symm

theorem State.Inv.raise {s : State} (hs : s.Inv) (f : FaultCode) (info : Nat) : (s.raise f info).Inv := by
  obtain ⟨hrow, hcol, -, -, hresult⟩ := hs
  exact ⟨hrow, hcol, f.code_le, fun h => absurd h f.code_ne_zero, hresult⟩

theorem State.inv_zero (c : Params) (m : Memory) (inbox : List HostAction) (n : Nat) :
    State.Inv { status := 0, faultInfo := 0, result := 0, target := 0, txtMode := 0, curRow := 0, curCol := 0, ram := m,
                cfg := c, inbox := inbox, draws := n } := by
  simp [State.Inv, State.rows, State.cols, rowsOf, colsOf]

theorem TextEdit.inv {s t : State} (h : TextEdit s t) (hs : s.Inv) : t.Inv := by
  rw [State.inv_iff] at hs ⊢
  obtain ⟨hgrid, hcodes⟩ := hs
  refine ⟨h.inGrid hgrid, ?_⟩
  unfold State.CodesOk
  rwa [h.status, h.faultInfo, h.result]

theorem CommandEffect.inv {s t : State} {i : Instr} (h : CommandEffect s i t) (hs : s.Inv) : t.Inv := by
  cases h with
  | fault _ f info => exact hs.raise f info
  | ram _ m n hm => exact hs
  | reset => exact State.inv_zero _ _ _ _
  | setTarget v w => exact hs
  | testPoint x y b =>
    have hbit : ∀ b : Bool, (if b then 1 else 0 : BitVec 32).toNat ≤ 1 := by decide
    obtain ⟨hrow, hcol, hstatus, hinfo, -⟩ := hs
    exact ⟨hrow, hcol, hstatus, hinfo, hbit b⟩
  | txtMode m v =>
    have hsize := (s.setTxtMode v).grid_cases
    have hgrid : ((s.setTxtMode v).setCursor 0 0).InGrid := State.inGrid_setCursor (by omega) (by omega)
    exact (State.inv_iff _).mpr ⟨hgrid, ((State.inv_iff s).mp hs).2⟩
  | txtLoc row col ht => exact ht.inv hs
  | txtByte b ht => exact ht.inv hs
  | txtBytes addr count ht => exact ht.inv hs

/-- Settles O18: R39 by the effects of the commands; the cursor by `TextEdit`, where every move ends inside the grid. -/
theorem registerInvariantsArePreserved : Obligations.RegisterInvariantsArePreserved := by
  have hexec : ∀ (i : Instr) (s t : State), s.Inv → exec i s = .next t → t.Inv :=
    fun _ _ _ hs h => (exec_effect h).inv hs
  refine ⟨fun c init => State.inv_zero c _ _ _, fun s t hs h => ?_, hexec⟩
  exact step_preserves (fun _ _ hu => hu) (fun _ f info hu => hu.raise f info) (fun _ _ _ hu => hu) hexec hs h

/-! ### Canonical RAM and the configuration -/

theorem CommandEffect.cfg {s t : State} {i : Instr} (h : CommandEffect s i t) : t.cfg = s.cfg := by
  cases h with
  | txtLoc row col ht => exact ht.cfg
  | txtByte b ht => exact ht.cfg
  | txtBytes addr count ht => exact ht.cfg
  | _ => rfl

theorem CommandEffect.wf {s t : State} {i : Instr} (h : CommandEffect s i t) (hs : s.ram.wf = true) : t.ram.wf = true := by
  cases h with
  | fault _ f info => exact hs
  | ram _ m n hm => exact hm hs
  | reset =>
    have hram : (if s.cfg.resetClearsRam then Memory.empty else s.ram).wf = true := by
      split
      · exact Memory.wf_empty
      · exact hs
    exact wf_initSegments s.cfg hram
  | setTarget v w => exact hs
  | testPoint x y b => exact hs
  | txtMode m v => exact wf_blankText s.cfg hs
  | txtLoc row col ht => exact ht.wf hs
  | txtByte b ht => exact ht.wf hs
  | txtBytes addr count ht => exact ht.wf hs

/-- Settles O19: the configuration is left alone, and every edit of RAM keeps the canonical form. -/
theorem soundStatesArePreserved : Obligations.SoundStatesArePreserved := by
  intro s t hs h
  refine step_preserves (P := State.Sound) (fun _ _ hu => hu) (fun _ _ _ hu => hu) ?_ ?_ hs h
  · intro u m hm hu
    exact ⟨hm hu.1, hu.2⟩
  · intro i u v ⟨hwf, hvalid⟩ hi
    have heffect := exec_effect hi
    exact ⟨heffect.wf hwf, heffect.cfg ▸ hvalid⟩

/-- Settles O21: every effect of a command leaves the configuration alone. -/
theorem parametersNeverChange : Obligations.ParametersNeverChange := by
  intro s t h
  exact step_preserves (P := fun u => u.cfg = s.cfg) (fun _ _ hu => hu) (fun _ _ _ hu => hu) (fun _ _ _ hu => hu)
    (fun _ _ _ hu hi => (exec_effect hi).cfg.trans hu) rfl h

/-! ### Which command changes which register -/

/-- Settles O22: each effect changes the registers of R26's column "written by" and no other. -/
theorem registersChangeOnlyByTheirCommands : Obligations.RegistersChangeOnlyByTheirCommands := by
  intro i s t h hreset
  cases exec_effect h with
  | fault _ f info => simpa using fun _ => f.code_ne_zero
  | ram _ m n hm => simp
  | reset => exact absurd rfl hreset
  | setTarget v w => simp
  | testPoint x y b => simp
  | txtMode m v => simp
  | txtLoc row col ht => simp [ht.target, ht.result, ht.txtMode, ht.status, ht.faultInfo]
  | txtByte b ht => simp [ht.target, ht.result, ht.txtMode, ht.status, ht.faultInfo]
  | txtBytes addr count ht => simp [ht.target, ht.result, ht.txtMode, ht.status, ht.faultInfo]

/-! ### Power-on -/

/-- What every address reads after the three segments have been reset (R37, R110). -/
theorem byteAt_initSegments {c : Params} (hc : c.Valid) {m : Memory} (hm : m.wf = true) (x : Nat) :
    (initSegments c m).byteAt x =
      if c.textBase ≤ x ∧ x < c.textBase + c.textLen then c.blank
      else if c.bufBase ≤ x ∧ x < c.bufBase + 1600 then 0x00
      else if c.graphBase ≤ x ∧ x < c.graphBase + 1600 then 0x00
      else m.byteAt x := by
  obtain ⟨hgraph, hbuf, htext, -⟩ := hc
  have hm1 := Memory.wf_storeBytes hm c.graphBase (List.replicate 1600 0x00)
  have hm2 := Memory.wf_storeBytes hm1 c.bufBase (List.replicate 1600 0x00)
  rw [initSegments, blankText, Memory.byteAt_storeReplicate hm2 _ _ htext, Memory.byteAt_storeReplicate hm1 _ _ hbuf,
    Memory.byteAt_storeReplicate hm _ _ hgraph]

theorem readPort_powerOn (c : Params) (init : Memory) (n : Nat) : readPort (State.powerOn c init) n = 0 := by
  unfold readPort
  split <;> rfl

/-- Settles O16: RAM at power-on is `initSegments` of the initial RAM, and the segments are disjoint. -/
theorem powerOnState : Obligations.PowerOnState := by
  intro c init hc hinit
  have hbyte : ∀ x, (State.powerOn c init).ram.byteAt x = _ := byteAt_initSegments hc hinit
  obtain ⟨-, -, -, -, hgraphBuf, hgraphText, hbufText⟩ := hc
  refine ⟨readPort_powerOn c init, rfl, fun i hi => ⟨?_, ?_⟩, fun i hi => ?_, fun a hgraph hbuf htext => ?_⟩
  · rw [hbyte, if_neg (by omega), if_neg (by omega), if_pos (by omega)]
  · rw [hbyte, if_neg (by omega), if_pos (by omega)]
  · rw [hbyte, if_pos (by omega)]
  · rw [hbyte, if_neg (by omega), if_neg (by omega), if_neg (by omega)]

/-! ### The register read port -/

@[simp] theorem readPort_setRam (s : State) (m : Memory) (n : Nat) : readPort (s.setRam m) n = readPort s n := rfl

@[simp] theorem readPort_setInbox (s : State) (rest : List HostAction) (n : Nat) :
    readPort (s.setInbox rest) n = readPort s n := rfl

theorem readPort_raise (s : State) (f : FaultCode) (info : Nat) {n : Nat} (hn : 2 ≤ n) :
    readPort (s.raise f info) n = readPort s n := by
  match n, hn with
  | 0, h | 1, h => omega
  | 2, _ | 3, _ | 4, _ | 5, _ | 6, _ | _ + 7, _ => rfl

theorem readPort_of_gt (s : State) {n : Nat} (hn : 6 < n) : readPort s n = 0 := by
  obtain ⟨k, rfl⟩ := Nat.exists_eq_add_of_le' hn
  rfl

/-- Settles O10: a host access edits RAM or raises `E_ADDR`; the port widens each register. -/
theorem readPortGivesTheRegisters : Obligations.ReadPortGivesTheRegisters := by
  refine ⟨fun s t a addr w rest hin ha h => ?_, fun s => ?_⟩
  · rw [step_of_inbox hin] at h
    rcases hostAccess_cases ha h with ⟨-, m, -, rfl⟩ | ⟨hpast, rfl | rfl⟩
    · exact ⟨fun n _ => by simp, fun _ n => by simp⟩
    · exact ⟨fun n _ => by simp, fun hfit => by omega⟩
    · exact ⟨fun n hn => by simp [readPort_raise _ _ _ hn], fun hfit => by omega⟩
  · have hwiden : ∀ {k : Nat} (v : BitVec k), k ≤ 32 → (v.setWidth 32).toNat = v.toNat :=
      fun v hk => BitVec.toNat_setWidth_of_le hk
    exact ⟨hwiden s.status (by decide), rfl, rfl, hwiden s.target (by decide), hwiden s.txtMode (by decide),
      hwiden s.curRow (by decide), hwiden s.curCol (by decide), fun n hn => readPort_of_gt s hn⟩

end Sys2Proof.Machine
end

/-! # The memory primitives and the ports to RAM (spec 20_memory.md)

The number that `MemWrite` stores and its bytes in RAM are tied together once, by `littleEndian_littleEndianBytes` and
`Memory.loadBytes_storeBytes`; the element-wise copies of R58 once, by the byte each of them leaves at every address. -/

section
namespace Sys2Proof.Machine

/-! ### Little-endian numbers (R50) -/

@[simp] theorem length_littleEndianBytes (n : Nat) (v : Int) : (littleEndianBytes n v).length = n := by
  induction n generalizing v with
  | zero => rfl
  | succ n ih => rw [littleEndianBytes, List.length_cons, ih]

/-- Byte `i` of a stored number (R53). -/
theorem getD_littleEndianBytes {n i : Nat} (hi : i < n) (v : Int) :
    (littleEndianBytes n v).getD i 0 = BitVec.ofInt 8 (v / 256 ^ i) := by
  induction n generalizing i v with
  | zero => omega
  | succ n ih =>
    cases i with
    | zero => rw [littleEndianBytes, List.getD_cons_zero, pow_zero, Int.ediv_one]
    | succ i =>
      rw [littleEndianBytes, List.getD_cons_succ, ih (by omega), Int.ediv_ediv_of_nonneg (by decide), pow_succ']

/-- A number that fits is what its bytes give back. -/
theorem littleEndian_littleEndianBytes {n v : Nat} (hv : v < 256 ^ n) : littleEndian (littleEndianBytes n v) = v := by
  induction n generalizing v with
  | zero => simp_all [littleEndianBytes, littleEndian]
  | succ n ih =>
    have hrest : v / 256 < 256 ^ n := Nat.div_lt_of_lt_mul (by rwa [← pow_succ'])
    rw [littleEndianBytes, littleEndian, BitVec.ofInt_natCast, BitVec.toNat_ofNat,
      show (v : Int) / 256 = ((v / 256 : Nat) : Int) from rfl, ih hrest]
    exact Nat.mod_add_div v 256

/-- The number as the sum of R52. -/
theorem littleEndian_range_map (f : Nat → Byte) (n : Nat) :
    littleEndian ((List.range n).map f) = ((List.range n).map fun i => (f i).toNat * 256 ^ i).sum := by
  induction n generalizing f with
  | zero => rfl
  | succ n ih =>
    rw [List.range_succ_eq_map, List.map_cons, List.map_map, littleEndian, ih, List.map_cons, List.map_map, List.sum_cons,
      pow_zero, mul_one, ← List.sum_map_mul_left]
    congr 3
    funext i
    simp only [Function.comp_apply, pow_succ]
    ring

/-! ### `MemRead` and `MemWrite` (R52, R53) -/

section
variable {addr : Nat} {w : Width}

theorem Memory.memRead_of_past (m : Memory) (h : 65536 < addr + w.bytes) : m.memRead addr w = .error { addr } := if_pos h

theorem Memory.memRead_of_fits (m : Memory) (h : addr + w.bytes ≤ 65536) :
    m.memRead addr w = .ok (littleEndian (m.loadBytes addr w.bytes)) := if_neg (by omega)

theorem Memory.memWrite_of_fits (m : Memory) (v : Int) (h : addr + w.bytes ≤ 65536) :
    m.memWrite addr w v = .ok (m.storeBytes addr (littleEndianBytes w.bytes v)) := if_neg (by omega)

end

/-- Stored bytes that fit in RAM load back. -/
theorem Memory.loadBytes_storeBytes {m : Memory} (hm : m.wf = true) {a : Nat} {vs : List Byte}
    (ha : a + vs.length ≤ 65536) : (m.storeBytes a vs).loadBytes a vs.length = vs := by
  refine List.ext_getElem (Memory.length_loadBytes _ _ _) fun i _ hi => ?_
  rw [← List.getD_eq_getElem _ 0, Memory.getD_loadBytes _ _ hi, Memory.byteAt_storeBytes_inside hm hi (by omega),
    List.getD_eq_getElem]

theorem Memory.sameOutside_storeBytes {m : Memory} (hm : m.wf = true) (a : Nat) (vs : List Byte) :
    SameOutside m (m.storeBytes a vs) a vs.length := fun _ h => Memory.byteAt_storeBytes_outside hm h

/-- What `MemWrite` leaves outside the access. -/
theorem Memory.sameOutside_storeNumber {m : Memory} (hm : m.wf = true) (a n : Nat) (v : Int) :
    SameOutside m (m.storeBytes a (littleEndianBytes n v)) a n := by
  simpa using Memory.sameOutside_storeBytes hm a (littleEndianBytes n v)

/-- Settles O13: the bytes loaded, summed by their place. -/
theorem memReadIsLittleEndian : Obligations.MemReadIsLittleEndian := by
  intro m addr w
  refine ⟨m.memRead_of_past, fun hfit => ?_⟩
  rw [m.memRead_of_fits hfit, Memory.loadBytes, littleEndian_range_map]

/-- Settles O14: the bytes stored load back, and they are those of `v`. -/
theorem memWriteReadsBack : Obligations.MemWriteReadsBack := by
  intro m a w v hm hfit hv
  have hload := Memory.loadBytes_storeBytes hm (a := a) (vs := littleEndianBytes w.bytes v) (by simpa using hfit)
  rw [length_littleEndianBytes] at hload
  refine ⟨_, m.memWrite_of_fits v hfit, ?_, Memory.sameOutside_storeNumber hm a w.bytes v⟩
  rw [Memory.memRead_of_fits _ hfit, hload, littleEndian_littleEndianBytes hv]

/-! ### `Copy` (R58) -/

theorem Memory.wf_copyUp {m : Memory} (hm : m.wf = true) (n dest src : Nat) : (m.copyUp n dest src).wf = true := by
  induction n generalizing m dest src with
  | zero => exact hm
  | succ n ih => exact ih (Memory.wf_setByte hm _ _) _ _

theorem Memory.wf_copyDown {m : Memory} (hm : m.wf = true) (n dest src : Nat) : (m.copyDown n dest src).wf = true := by
  induction n generalizing m with
  | zero => exact hm
  | succ n ih => exact ih (Memory.wf_setByte hm _ _)

/-- Copying upward to a lower address: the byte just stored is below every byte still to be read. -/
theorem Memory.byteAt_copyUp {m : Memory} (hm : m.wf = true) {n dest src : Nat} (hle : dest ≤ src)
    (hfit : dest + n ≤ 65536) (x : Nat) :
    (m.copyUp n dest src).byteAt x = if dest ≤ x ∧ x < dest + n then m.byteAt (src + (x - dest)) else m.byteAt x := by
  induction n generalizing m dest src with
  | zero => rw [Memory.copyUp, if_neg (by omega)]
  | succ n ih =>
    rw [Memory.copyUp, ih (Memory.wf_setByte hm _ _) (by omega) (by omega)]
    simp only [Memory.byteAt_setByte hm]
    rcases Nat.lt_trichotomy x dest with hx | rfl | hx
    · rw [if_neg (by omega), if_neg (by omega), if_neg (by omega)]
    · rw [if_neg (by omega), if_pos (by omega), if_pos (by omega), Nat.sub_self, Nat.add_zero]
    · by_cases hin : x < dest + (n + 1)
      · rw [if_pos (by omega), if_neg (by omega), if_pos (by omega)]
        congr 1
        omega
      · rw [if_neg (by omega), if_neg (by omega), if_neg (by omega)]

/-- Copying downward to a higher address: the byte just stored is above every byte still to be read. -/
theorem Memory.byteAt_copyDown {m : Memory} (hm : m.wf = true) {n dest src : Nat} (hle : src ≤ dest)
    (hfit : dest + n ≤ 65536) (x : Nat) :
    (m.copyDown n dest src).byteAt x = if dest ≤ x ∧ x < dest + n then m.byteAt (src + (x - dest)) else m.byteAt x := by
  induction n generalizing m with
  | zero => rw [Memory.copyDown, if_neg (by omega)]
  | succ n ih =>
    rw [Memory.copyDown, ih (Memory.wf_setByte hm _ _) (by omega)]
    simp only [Memory.byteAt_setByte hm]
    by_cases hin : dest ≤ x ∧ x < dest + n
    · rw [if_pos hin, if_neg (by omega), if_pos (by omega)]
    · rw [if_neg hin]
      by_cases hx : x = dest + n
      · rw [if_pos (by omega), if_pos (by omega), hx, Nat.add_sub_cancel_left]
      · rw [if_neg (by omega), if_neg (by omega)]

/-- In the order R58 gives, either way, the element-wise copy moves the bytes as they were before it. -/
theorem Memory.copyByElements_eq {m : Memory} (hm : m.wf = true) {dest src n : Nat} (hfit : dest + n ≤ 65536) :
    m.copyByElements dest src n = m.storeBytes dest (m.loadBytes src n) := by
  have hstore := Memory.wf_storeBytes hm dest (m.loadBytes src n)
  unfold Memory.copyByElements
  split
  · exact Memory.ext (Memory.wf_copyUp hm _ _ _) hstore fun x => by
      rw [Memory.byteAt_copyUp hm (by omega) hfit, Memory.byteAt_storeLoad hm x hfit]
  · exact Memory.ext (Memory.wf_copyDown hm _ _ _) hstore fun x => by
      rw [Memory.byteAt_copyDown hm (by omega) hfit, Memory.byteAt_storeLoad hm x hfit]

section
variable {dest src count : Nat}

theorem Memory.copy_of_src_past (m : Memory) (h : count ≠ 0) (hsrc : 65536 < src + count) :
    m.copy dest src count = .error { addr := src } := by
  rw [Memory.copy, if_neg h, if_pos hsrc]

theorem Memory.copy_of_dest_past (m : Memory) (h : count ≠ 0) (hsrc : src + count ≤ 65536) (hdest : 65536 < dest + count) :
    m.copy dest src count = .error { addr := dest } := by
  rw [Memory.copy, if_neg h, if_neg (by omega), if_pos hdest]

theorem Memory.copy_of_fits (m : Memory) (h : count ≠ 0) (hsrc : src + count ≤ 65536) (hdest : dest + count ≤ 65536) :
    m.copy dest src count = .ok (m.storeBytes dest (m.loadBytes src count)) := by
  rw [Memory.copy, if_neg h, if_neg (by omega), if_neg (by omega)]

end

/-- Settles O15: the cases of `Copy`, the last by `Memory.copyByElements_eq`. -/
theorem copyIsSafeForOverlap : Obligations.CopyIsSafeForOverlap := by
  intro m dest src count hm
  refine ⟨fun h => if_pos h, fun h hsrc => m.copy_of_src_past h hsrc,
    fun h hsrc hdest => m.copy_of_dest_past h hsrc hdest, fun h hsrc hdest => ?_⟩
  rw [Memory.copyByElements_eq hm hdest]
  refine ⟨m.copy_of_fits h hsrc hdest, fun i hi => ?_, fun x hx => ?_⟩
  · rw [Memory.byteAt_storeLoad hm _ hdest, if_pos (by omega), Nat.add_sub_cancel_left]
  · rw [Memory.byteAt_storeLoad hm _ hdest, if_neg (by omega)]

/-! ### Host accesses (R68) -/

/-- Settles O7: with an empty inbox the engine has no action to perform. -/
theorem idleEngineWaits : Obligations.IdleEngineWaits := by
  intro s h
  unfold step nextAction
  rw [h]

/-- Settles O11: the host's access is `hostWrite_eq` or `hostRead_eq` of the state without the action. -/
theorem hostWriteStoresLittleEndian : Obligations.HostWriteStoresLittleEndian := by
  intro s addr w rest hm hrun
  have hfault : (if (s.setInbox rest).status = 0 then (s.setInbox rest).raise .eAddr addr else s.setInbox rest) =
      { s with inbox := rest, status := 3, faultInfo := BitVec.ofNat 32 addr } := if_pos hrun
  refine ⟨fun v hin => ?_, fun hin => ?_⟩
  · rw [step_of_inbox hin, perform, hostWrite_eq, hfault]
    refine ⟨fun hfit => ⟨_, congrArg _ (if_pos hfit), fun i hi => ?_, Memory.sameOutside_storeNumber hm addr w.bytes v⟩,
      fun hpast => congrArg _ (if_neg (by omega))⟩
    have hlen : i < (littleEndianBytes w.bytes v).length := by rwa [length_littleEndianBytes]
    exact (Memory.byteAt_storeBytes_inside hm hlen (by omega)).trans (getD_littleEndianBytes hi v)
  · rw [step_of_inbox hin, perform, hostRead_eq, hfault]
    exact ⟨fun hfit => congrArg _ (if_pos hfit), fun hpast => congrArg _ (if_neg (by omega))⟩

/-! ### The scan-out (R67, R68) -/

/-- While a command runs, bit `i` of `pick` chooses between the old bit and the new one. -/
theorem getLsbD_scanByte_packet (op : Byte) (operands : List Byte) (s t : State) (a : Nat) (pick : Byte) {i : Nat}
    (hi : i < 8) :
    (scanByte (.packet op operands) s t a pick).getLsbD i =
      if pick.getLsbD i then (t.ram.byteAt a).getLsbD i else (s.ram.byteAt a).getLsbD i := by
  simp only [scanByte, BitVec.getLsbD_or, BitVec.getLsbD_and, BitVec.getLsbD_not, hi, decide_true, Bool.true_and]
  cases pick.getLsbD i <;> simp

/-- During a host write, bit 0 of `pick` chooses between the old byte and the new one. -/
theorem scanByte_write (addr : Nat) (w : Width) (x : Int) (s t : State) (a : Nat) (pick : Byte) :
    scanByte (.write addr w x) s t a pick = if pick.getLsbD 0 then t.ram.byteAt a else s.ram.byteAt a := rfl

theorem scanByte_same (action : HostAction) (s : State) (a : Nat) (pick : Byte) :
    scanByte action s s a pick = s.ram.byteAt a := by
  cases action with
  | packet op operands =>
    refine BitVec.eq_of_getLsbD_eq fun i hi => ?_
    rw [getLsbD_scanByte_packet _ _ _ _ _ _ hi, ite_self]
  | write addr w v => exact ite_self _
  | read addr w => rfl

/-- To read `v` while a command runs, pick the new bit wherever `v` differs from the old byte. -/
theorem scanByte_packet_pick (op : Byte) (operands : List Byte) {s t : State} {a : Nat} {v : Byte}
    (h : ∀ i < 8, v.getLsbD i = (s.ram.byteAt a).getLsbD i ∨ v.getLsbD i = (t.ram.byteAt a).getLsbD i) :
    scanByte (.packet op operands) s t a (v ^^^ s.ram.byteAt a) = v := by
  refine BitVec.eq_of_getLsbD_eq fun i hi => ?_
  rw [getLsbD_scanByte_packet _ _ _ _ _ _ hi, BitVec.getLsbD_xor]
  by_cases hold : v.getLsbD i = (s.ram.byteAt a).getLsbD i
  · simp [hold]
  · have hnew := (h i hi).resolve_left hold
    rw [hnew] at hold ⊢
    simp [hold]

/-- Settles O12: `pick` chooses freely, bit by bit during a command and by its bit 0 during a host write. -/
theorem scanOutSeesOldOrNewBits : Obligations.ScanOutSeesOldOrNewBits := by
  intro s t a
  refine ⟨fun action pick => scanByte_same action s a pick, fun op operands v => ⟨?_, ?_⟩, fun addr w x v => ⟨?_, ?_⟩⟩
  · rintro ⟨pick, rfl⟩ i hi
    rw [getLsbD_scanByte_packet _ _ _ _ _ _ hi]
    split
    · exact .inr rfl
    · exact .inl rfl
  · exact fun h => ⟨_, scanByte_packet_pick op operands h⟩
  · rintro ⟨pick, rfl⟩
    rw [scanByte_write]
    split
    · exact .inr rfl
    · exact .inl rfl
  · rintro (rfl | rfl)
    · exact ⟨0, rfl⟩
    · exact ⟨1, rfl⟩

end Sys2Proof.Machine
end

/-! # Packets and reserved operands (spec 30_encoding.md)

`decode_ok_iff` says once when a packet decodes; the round trips and the cutting of command lists go through it. What each
reader of an operand byte refuses is said once, as an equation between the reader and the well-formedness check. -/

section
namespace Sys2Proof

/-! ### Operands in a packet (R84) -/

theorem append_bytes16 (v : Half) : v.extractLsb' 8 8 ++ v.extractLsb' 0 8 = v :=
  (BitVec.extractLsb'_append_extractLsb'_eq_extractLsb' rfl).trans BitVec.extractLsb'_eq_self

theorem append_bytes24 (v : Addr24) : v.extractLsb' 16 8 ++ v.extractLsb' 8 8 ++ v.extractLsb' 0 8 = v := by
  have hhigh : v.extractLsb' 16 8 ++ v.extractLsb' 8 8 = v.extractLsb' 8 16 :=
    BitVec.extractLsb'_append_extractLsb'_eq_extractLsb' rfl
  rw [hhigh]
  exact (BitVec.extractLsb'_append_extractLsb'_eq_extractLsb' rfl).trans BitVec.extractLsb'_eq_self

theorem bytes16_u16 (p : List Byte) (o : Nat) : bytes16 (u16 p o) = [u8 p o, u8 p (o + 1)] := by
  rw [bytes16, u16, BitVec.extractLsb'_append_eq_right, BitVec.extractLsb'_append_eq_left]

theorem bytes24_u24 (p : List Byte) (o : Nat) : bytes24 (u24 p o) = [u8 p o, u8 p (o + 1), u8 p (o + 2)] := by
  have hmid : (u24 p o).extractLsb' 8 8 = u8 p (o + 1) :=
    (BitVec.extractLsb'_append_eq_of_le le_rfl).trans BitVec.extractLsb'_append_eq_right
  have hhigh : (u24 p o).extractLsb' 16 8 = u8 p (o + 2) :=
    (BitVec.extractLsb'_append_eq_of_le (by decide)).trans BitVec.extractLsb'_append_eq_left
  rw [bytes24, hmid, hhigh, u24, BitVec.extractLsb'_append_eq_right]

/-- A packet is the list of its bytes. -/
theorem map_u8_range (p : List Byte) : (List.range p.length).map (u8 p) = p := by
  refine List.ext_getElem (by simp) fun i _ hi => ?_
  rw [List.getElem_map, List.getElem_range]
  exact List.getD_eq_getElem p 0 hi

/-! ### Decoding and encoding (R81, R82, R85, R91) -/

/-- A packet decodes where its opcode is in the map and its length is the opcode's, and its command is the row's. -/
theorem decode_ok_iff {p : List Byte} {i : Instr} :
    decode p = .ok i ↔ ∃ op operands row, p = op :: operands ∧ opcodeRow op = some row ∧ p.length = row.1.length ∧
      row.2 p = i := by
  cases p with
  | nil => simp [decode]
  | cons op operands =>
    cases hrow : opcodeRow op with
    | none => simp [decode, hrow]
    | some row =>
      obtain ⟨format, read⟩ := row
      by_cases hlen : operands.length + 1 = format.length <;> simp [decode, hrow, hlen]

/-- The encoder writes what a row of the opcode map reads, byte for byte. -/
theorem encode_of_opcodeRow {op : Byte} {row : Format × (List Byte → Instr)} (hrow : opcodeRow op = some row)
    {p : List Byte} (hop : u8 p 0 = op) : encode (row.2 p) = (List.range row.1.length).map (u8 p) := by
  have hopcode : u8 p 0 = BitVec.ofNat 8 op.toNat := by rw [hop, BitVec.ofNat_toNat, BitVec.setWidth_eq]
  unfold opcodeRow at hrow
  split at hrow <;> cases hrow
  all_goals
    rename_i hnum
    rw [hnum] at hopcode
    simp [encode, Format.length, List.range_succ, bytes16_u16, bytes24_u24, hopcode]

/-- Settles O1: every operand is read where the encoder put it. -/
theorem decodeOfEncodeIsTheCommand : Obligations.DecodeOfEncodeIsTheCommand := by
  intro i
  cases i with
  | reset | render => rfl
  | setTarget | scroll | mirror | txtMode | txtByte => rfl
  | _ =>
    refine decode_ok_iff.mpr ⟨_, _, _, rfl, rfl, rfl, ?_⟩
    simp [encode, u8, u16, u24, bytes16, bytes24, append_bytes16, append_bytes24]

/-- Settles O2: the row of the packet's opcode reads every byte of it. -/
theorem encodeOfDecodeIsThePacket : Obligations.EncodeOfDecodeIsThePacket := by
  intro p i h
  obtain ⟨op, operands, row, rfl, hrow, hlen, rfl⟩ := decode_ok_iff.mp h
  rw [encode_of_opcodeRow hrow rfl, ← hlen, map_u8_range]

/-- Settles O3, by evaluation of the decoder. -/
theorem writtenOutPacketsDecode : Obligations.WrittenOutPacketsDecode := ⟨rfl, rfl, rfl, rfl, rfl, rfl⟩

/-! ### Command lists (R93) -/

/-- A packet starts with the opcode that says its length. -/
theorem exists_cutLength_eq (i : Instr) : ∃ op operands, encode i = op :: operands ∧ cutLength op = (encode i).length := by
  obtain ⟨op, operands, row, hp, hrow, hlen, -⟩ := decode_ok_iff.mp (decodeOfEncodeIsTheCommand i)
  exact ⟨op, operands, hp, by simp [cutLength, packetLength, hrow, hlen]⟩

theorem encode_length_pos (i : Instr) : 0 < (encode i).length := by
  obtain ⟨op, operands, hp, -⟩ := exists_cutLength_eq i
  simp [hp]

@[simp] theorem cutFuel_nil (n : Nat) : cutFuel n [] = [] := by cases n <;> rfl

theorem cutFuel_encode_append (n : Nat) (i : Instr) (rest : List Byte) :
    cutFuel (n + 1) (encode i ++ rest) = encode i :: cutFuel n rest := by
  obtain ⟨op, operands, hp, hcut⟩ := exists_cutLength_eq i
  rw [hp] at hcut ⊢
  rw [List.cons_append, cutFuel, hcut, ← List.cons_append, List.take_left, List.drop_left]

/-- With one unit of fuel for each byte, or more, the whole list is cut. -/
theorem cutFuel_flatMap_encode {n : Nat} {is : List Instr} (hn : (is.flatMap encode).length ≤ n) :
    cutFuel n (is.flatMap encode) = is.map encode := by
  induction is generalizing n with
  | nil => exact cutFuel_nil n
  | cons i is ih =>
    have hpos := encode_length_pos i
    rw [List.flatMap_cons, List.length_append] at hn
    obtain ⟨k, rfl⟩ : ∃ k, n = k + 1 := ⟨n - 1, by omega⟩
    rw [List.flatMap_cons, cutFuel_encode_append, ih (by omega), List.map_cons]

/-- Settles O4, by induction on the list. -/
theorem commandListIsCutBack : Obligations.CommandListIsCutBack := fun _ => cutFuel_flatMap_encode le_rfl

end Sys2Proof

namespace Sys2Proof.Machine

/-- Settles O6: the port of a running engine decodes the packet and runs its command. -/
theorem stepRunsTheDecodedCommand : Obligations.StepRunsTheDecodedCommand := by
  intro op operands rest i s hrun hin hdecode
  have hdeliver : deliver op operands (s.setInbox rest) = runPacket op operands (s.setInbox rest) := if_pos (.inl hrun)
  rw [step_of_inbox hin, perform, hdeliver, runPacket, hdecode]
  rfl

/-! ### The operand bytes with reserved values (R86, R87, R88) -/

theorem readSelector_eq_none {v : Byte} : readSelector v = none ↔ wfSelector v = false := by
  simp [readSelector, wfSelector]

/-- What `flags[2:0]` says (R86). -/
theorem BlitMode.ofFlags_eq (flags : Byte) :
    BlitMode.ofFlags flags =
      if 1 ≤ flags.toNat % 8 ∧ flags.toNat % 8 ≤ 5 then
        some ([.copy, .copy, .not, .or, .and, .xor].getD (flags.toNat % 8) .copy)
      else none := by
  unfold BlitMode.ofFlags
  generalize flags.toNat % 8 = mode
  match mode with
  | 0 | 1 | 2 | 3 | 4 | 5 => rfl
  | mode + 6 => exact (if_neg (by omega)).symm

theorem reservedFlagBits_iff (flags : Byte) : (flags.getLsbD 6 || flags.getLsbD 7) = true ↔ 64 ≤ flags.toNat := by
  simp only [BitVec.getLsbD, Nat.testBit_eq_decide_div_mod_eq, Bool.or_eq_true, decide_eq_true_eq]
  omega

/-- The `flags` byte is refused for its mode or its reserved bits, and otherwise taken apart (R86). -/
theorem readFlags_eq (flags : Byte) :
    readFlags flags =
      if wfFlags flags then
        some { mode := [.copy, .copy, .not, .or, .and, .xor].getD (flags.toNat % 8) .copy, inv := flags.getLsbD 3,
               space := if flags.getLsbD 4 then .font else .ram, hm := flags.getLsbD 5 }
      else none := by
  have hbits := reservedFlagBits_iff flags
  rw [readFlags, BlitMode.ofFlags_eq]
  by_cases hmode : 1 ≤ flags.toNat % 8 ∧ flags.toNat % 8 ≤ 5
  · rw [if_pos hmode]
    by_cases hreserved : 64 ≤ flags.toNat
    · have hwf : wfFlags flags = false := decide_eq_false (by omega)
      rw [hwf]
      exact if_pos (hbits.mpr hreserved)
    · have hwf : wfFlags flags = true := decide_eq_true (by omega)
      rw [hwf]
      exact if_neg (mt hbits.mp hreserved)
  · have hwf : wfFlags flags = false := decide_eq_false (by omega)
    rw [if_neg hmode, hwf]
    rfl

theorem readFlags_eq_none {flags : Byte} : readFlags flags = none ↔ wfFlags flags = false := by
  simp [readFlags_eq]

/-- Settles O27: `readFlags_eq`, with the well-formed values told by number. -/
theorem flagsByteFields : Obligations.FlagsByteFields := by
  intro flags
  refine ⟨?_, fun f hf => ?_⟩
  · rw [readFlags_eq_none, wfFlags, decide_eq_false_iff_not]
    omega
  · rw [readFlags_eq] at hf
    split at hf
    · cases hf
      exact ⟨rfl, rfl, rfl, rfl⟩
    · cases hf

theorem DrawMode.ofByte_eq_none {sm : Byte} : DrawMode.ofByte sm = none ↔ sm.toNat % 4 = 3 := by
  have hmode : sm.toNat % 4 < 4 := Nat.mod_lt _ (by decide)
  unfold DrawMode.ofByte
  generalize sm.toNat % 4 = mode at hmode ⊢
  match mode with
  | 0 | 1 | 2 | 3 => simp
  | mode + 4 => omega

theorem readPlainMode_eq_none {sm : Byte} : readPlainMode sm = none ↔ wfPlainMode sm = false := by
  rw [readPlainMode, wfPlainMode, decide_eq_false_iff_not]
  split
  · rw [DrawMode.ofByte_eq_none]
    omega
  · exact iff_of_true rfl (by omega)

theorem readFillMode_eq_none {sm : Byte} : readFillMode sm = none ↔ wfFillMode sm = false := by
  rw [readFillMode, wfFillMode, decide_eq_false_iff_not]
  split
  · rw [Option.map_eq_none_iff, DrawMode.ofByte_eq_none]
    omega
  · exact iff_of_true rfl (by omega)

/-- A reader that refuses exactly the ill-formed bytes reads the well-formed ones. -/
theorem exists_some_of_wf {α : Type} {r : Option α} {wf : Bool} (hr : r = none ↔ wf = false) (hwf : wf = true) :
    ∃ v, r = some v :=
  Option.ne_none_iff_exists'.mp fun hnone => by simp [hr.mp hnone] at hwf

theorem wfRadius_eq_false {r : Half} : wfRadius r = false ↔ s16 r < 0 := by
  rw [wfRadius, decide_eq_false_iff_not, not_le, s16]

theorem not_neg_of_wfRadius {r : Half} (h : wfRadius r = true) : ¬ s16 r < 0 := not_lt.mpr (of_decide_eq_true h)

theorem isLead_eq (b : Byte) : isLead b = !wfChar b := by
  simp [isLead, wfChar, ← decide_not]

/-! ### `E_OPERAND` (R90, R242) -/

/-- `DRAWOVAL` checks its mode byte, then its radii (R159). -/
theorem execDrawOval_of_ill_formed {cx cy rx ry : Half} {sm : Byte} {s : State}
    (h : (Instr.drawOval cx cy rx ry sm).wf = false) : ∃ info, execDrawOval cx cy rx ry sm s = raiseFault .eOperand info s := by
  simp only [Instr.wf, Bool.and_eq_false_iff] at h
  unfold execDrawOval
  split
  · exact ⟨_, rfl⟩
  · rename_i dm fill hmode
    have hsm : wfFillMode sm ≠ false := fun hsm => by simp [readFillMode_eq_none.mpr hsm] at hmode
    split
    · exact ⟨_, rfl⟩
    · rename_i hrx
      have hry : s16 ry < 0 := by simpa [hsm, wfRadius_eq_false, hrx] using h
      exact ⟨_, if_pos hry⟩

/-- A command with a reserved or refused operand value raises `E_OPERAND`. -/
theorem exec_of_ill_formed {i : Instr} {s : State} (h : i.wf = false) : ∃ info, exec i s = raiseFault .eOperand info s := by
  cases i with
  | setTarget t => exact ⟨_, by rw [exec, execSetTarget, readSelector_eq_none.mpr h]⟩
  | drawData x y w h' addr flags => exact ⟨_, by rw [exec, execDrawData, readFlags_eq_none.mpr h]⟩
  | drawPoint x y sm => exact ⟨_, by rw [exec, execDrawPoint, readPlainMode_eq_none.mpr h]⟩
  | drawLine x0 y0 x1 y1 sm => exact ⟨_, by rw [exec, execDrawLine, readPlainMode_eq_none.mpr h]⟩
  | drawRect x0 y0 x1 y1 sm => exact ⟨_, by rw [exec, execDrawRect, readFillMode_eq_none.mpr h]⟩
  | drawOval cx cy rx ry sm => exact execDrawOval_of_ill_formed h
  | scroll dir => exact ⟨_, by rw [exec, execScroll, readSelector_eq_none.mpr h]⟩
  | mirror dir => exact ⟨_, by rw [exec, execMirror, readSelector_eq_none.mpr h]⟩
  | txtMode m => exact ⟨_, by rw [exec, execTxtMode, readSelector_eq_none.mpr h]⟩
  | txtByte b => exact ⟨_, if_pos (by rw [isLead_eq, show wfChar b = false from h]; rfl)⟩
  | _ => cases h

/-- A well-formed command other than `TXTBYTES` keeps running or raises `E_ADDR`. -/
theorem status_of_well_formed {i : Instr} {s t : State} (hwf : i.wf = true) (hrun : s.status = 0)
    (htext : ∀ a n, i ≠ .txtBytes a n) (h : exec i s = .next t) : t.status = 0 ∨ t.status = 3 := by
  have hkept : ∀ {u : State}, (.next u : StepOutcome) = .next t → u.status = 0 → t.status = 0 ∨ t.status = 3 :=
    fun e hu => .inl (Host.Outcome.next.inj e ▸ hu)
  have haddr : ∀ {info : Nat}, raiseFault .eAddr info s = .next t → t.status = 0 ∨ t.status = 3 :=
    fun e => .inr (Host.Outcome.next.inj e ▸ rfl)
  have hprimitive : ∀ {r : Except AddressFault Memory}, withAddressFault s r = .next t → t.status = 0 ∨ t.status = 3 := by
    intro r e
    rcases withAddressFault_cases e with ⟨m, -, rfl⟩ | ⟨f, -, rfl⟩
    · exact .inl hrun
    · exact .inr rfl
  cases i with
  | reset => exact hkept h rfl
  | setTarget v =>
    obtain ⟨d, hd⟩ := exists_some_of_wf readSelector_eq_none hwf
    rw [exec, execSetTarget, hd] at h
    exact hkept h hrun
  | drawData x y w h' addr flags =>
    obtain ⟨f, hf⟩ := exists_some_of_wf readFlags_eq_none hwf
    rw [exec, execDrawData, hf] at h
    dsimp only at h
    split_ifs at h
    · exact hkept h hrun
    · exact haddr h
    · exact hkept h hrun
    · exact hkept h hrun
  | saveData x y w h' addr =>
    rw [exec, execSaveData] at h
    split_ifs at h
    · exact hkept h hrun
    · exact hkept h hrun
    · exact haddr h
    · exact hkept h hrun
    · exact hkept h hrun
  | drawPoint x y sm =>
    obtain ⟨dm, hdm⟩ := exists_some_of_wf readPlainMode_eq_none hwf
    rw [exec, execDrawPoint, hdm] at h
    exact hkept h hrun
  | drawLine x0 y0 x1 y1 sm =>
    obtain ⟨dm, hdm⟩ := exists_some_of_wf readPlainMode_eq_none hwf
    rw [exec, execDrawLine, hdm] at h
    exact hkept h hrun
  | drawRect x0 y0 x1 y1 sm =>
    obtain ⟨dm, hdm⟩ := exists_some_of_wf readFillMode_eq_none hwf
    rw [exec, execDrawRect, hdm] at h
    exact hkept h hrun
  | drawOval cx cy rx ry sm =>
    simp only [Instr.wf, Bool.and_eq_true] at hwf
    obtain ⟨⟨hsm, hrx⟩, hry⟩ := hwf
    obtain ⟨dm, hdm⟩ := exists_some_of_wf readFillMode_eq_none hsm
    rw [exec, execDrawOval, hdm] at h
    dsimp only at h
    rw [if_neg (not_neg_of_wfRadius hrx), if_neg (not_neg_of_wfRadius hry)] at h
    exact hkept h hrun
  | scroll dir =>
    obtain ⟨d, hd⟩ := exists_some_of_wf readSelector_eq_none hwf
    rw [exec, execScroll, hd] at h
    exact hkept h hrun
  | mirror dir =>
    obtain ⟨d, hd⟩ := exists_some_of_wf readSelector_eq_none hwf
    rw [exec, execMirror, hd] at h
    exact hkept h hrun
  | memFill addr count value => exact hprimitive h
  | memCopy dest src count => exact hprimitive h
  | txtMode m =>
    obtain ⟨d, hd⟩ := exists_some_of_wf readSelector_eq_none hwf
    rw [exec, execTxtMode, hd] at h
    exact hkept h hrun
  | txtByte b =>
    rw [exec, execTxtByte, isLead_eq, show wfChar b = true from hwf] at h
    exact hkept h ((TextEdit.addOne s b).status.trans hrun)
  | txtBytes addr count => exact absurd rfl (htext addr count)
  | render | testPoint | txtLoc | txtRender => exact hkept h hrun

/-- Settles O24, in its two directions. -/
theorem reservedOperandsAreRefused : Obligations.ReservedOperandsAreRefused := by
  refine fun i s => ⟨fun hwf => ?_, fun hwf hrun htext t h => ?_⟩
  · obtain ⟨info, h⟩ := exec_of_ill_formed (s := s) hwf
    exact ⟨_, h⟩
  · rcases status_of_well_formed hwf hrun htext h with e | e <;> simp [e]

/-! ### `ZEROSEG` and `CLS` (R101, R102) -/

theorem execMemFill_of_fits {addr count : Half} (value : Byte) (s : State) (hcount : count.toNat ≠ 0)
    (hfit : addr.toNat + count.toNat ≤ 65536) :
    execMemFill addr count value s =
      .next (s.setRam (s.ram.storeBytes addr.toNat (List.replicate count.toNat value))) := by
  rw [execMemFill, Memory.fill, if_neg hcount, if_neg (by omega)]
  rfl

theorem Memory.sameOutside_storeReplicate {m : Memory} (hm : m.wf = true) (a n : Nat) (v : Byte) :
    SameOutside m (m.storeBytes a (List.replicate n v)) a n := by
  simpa using Memory.sameOutside_storeBytes hm a (List.replicate n v)

/-- Every segment holds a byte and lies inside RAM, its base and its length in 16 bits (R10). -/
theorem SegmentName.segment_bounds {c : Params} (hc : c.Valid) (seg : SegmentName) :
    0 < (seg.segment c).length ∧ (seg.segment c).length < 65536 ∧
      (seg.segment c).base + (seg.segment c).length ≤ 65536 := by
  obtain ⟨hgraph, hbuf, htext, hlen, -, hgraphText, -⟩ := hc
  cases seg <;> simp only [SegmentName.segment, graphicsSegment, bufferSegment, textSegment] <;> omega

/-- Settles O49: the segment's base and length survive in the 16-bit operands of the fill. -/
theorem zeroSegClearsItsSegment : Obligations.ZeroSegClearsItsSegment := by
  intro seg s ⟨hm, hc⟩
  obtain ⟨hpos, hlen, hfit⟩ := seg.segment_bounds hc
  have hlen16 : (BitVec.ofNat 16 (seg.segment s.cfg).length).toNat = (seg.segment s.cfg).length :=
    Nat.mod_eq_of_lt (by omega)
  have hbase16 : (BitVec.ofNat 16 (seg.segment s.cfg).base).toNat = (seg.segment s.cfg).base :=
    Nat.mod_eq_of_lt (by omega)
  have hexec := execMemFill_of_fits (addr := BitVec.ofNat 16 (seg.segment s.cfg).base)
    (count := BitVec.ofNat 16 (seg.segment s.cfg).length) 0 s (by omega) (by omega)
  rw [hlen16, hbase16] at hexec
  refine ⟨_, hexec, fun i hi => ?_, Memory.sameOutside_storeReplicate hm _ _ _⟩
  rw [Memory.byteAt_storeReplicate hm _ _ hfit, if_pos (by omega)]

theorem State.targetBase_fits {s : State} (hc : s.cfg.Valid) : s.targetBase + 1600 ≤ 65536 := by
  obtain ⟨hgraph, hbuf, -⟩ := hc
  unfold State.targetBase
  split
  · exact hgraph
  · exact hbuf

/-- A bitmap all of whose pixels are clear holds 0x00 in every byte (R120, R121). -/
theorem Memory.byteAt_eq_zero_of_px {m : Memory} {B : Nat} (h : ∀ px py, px < 160 → py < 80 → m.px B px py = false) {i : Nat}
    (hi : i < 1600) : m.byteAt (B + i) = 0x00 := by
  refine byte_ext_pixels fun j hj => ?_
  have hpx := h (8 * (i % 20) + j) (i / 20) (by omega) (by omega)
  rw [Memory.px_eq, show B + 20 * (i / 20) + (8 * (i % 20) + j) / 8 = B + i by omega,
    show (8 * (i % 20) + j) % 8 = j by omega] at hpx
  rw [hpx]
  simp

theorem exec_cls (s : State) :
    exec cls s = .next (s.setRam
      (s.ram.plotSet s.targetBase (Box.corners 0 0 159 79) (inRect 0 0 159 79 true) .clear)) := rfl

/-- The rectangle of `CLS` holds every pixel of a bitmap. -/
theorem screen_in_clsRect {px py : Nat} (hx : px < 160) (hy : py < 80) :
    ((Box.corners 0 0 159 79).has px py && inRect 0 0 159 79 true px py) = true := by
  simp [Box.has, Box.corners, inRect]
  omega

/-- Settles O50: every pixel of the target lies in the rectangle and is cleared. -/
theorem clsClearsTheTarget : Obligations.ClsClearsTheTarget := by
  intro s ⟨hm, hc⟩
  refine ⟨_, exec_cls s, fun i hi => Memory.byteAt_eq_zero_of_px (fun px py hx hy => ?_) hi,
    fun a ha => Memory.byteAt_plotSet_outside hm _ _ _ _ ha⟩
  rw [Memory.px_plotSet hm (State.targetBase_fits hc) _ _ _ hx hy, screen_in_clsRect hx hy]
  rfl

end Sys2Proof.Machine
end

/-! # Control commands and what each command stores to (spec 40_control.md)

`StoresOnlyIn` says of an outcome that its next state differs from the old one in RAM only inside some ranges. Every command
is put together from a few outcomes (a fault, one store, a plotted set, a memory primitive, an edit of the text grid), each
with its own lemma, so that a command's frame follows the branches of its definition. -/

section
namespace Sys2Proof.Machine

/-! ### Packets of a wrong length (R91, R241) -/

theorem packetLength_of_decode_ok {op : Byte} {operands : List Byte} {i : Instr} (h : decode (op :: operands) = .ok i) :
    packetLength op = some (operands.length + 1) := by
  obtain ⟨_, _, row, hp, hrow, hlen, -⟩ := decode_ok_iff.mp h
  cases hp
  rw [packetLength, hrow, Option.map_some, ← hlen, List.length_cons]

/-- A malformed packet on the port of a running engine raises `E_OPCODE`. -/
theorem step_of_malformed {s : State} {op : Byte} {operands : List Byte} {rest : List HostAction} (hrun : s.status = 0)
    (hin : s.hasPacket op operands rest) (hlen : packetLength op ≠ some (operands.length + 1)) :
    step s = .next { s with inbox := rest, status := 1, faultInfo := op.setWidth 32 } := by
  have hdeliver : deliver op operands (s.setInbox rest) = runPacket op operands (s.setInbox rest) := if_pos (.inl hrun)
  rw [step_of_inbox hin, perform, hdeliver, runPacket]
  cases hdecode : decode (op :: operands) with
  | ok i => exact absurd (packetLength_of_decode_ok hdecode) hlen
  | error e =>
    rw [← BitVec.ofNat_toNat 32 op]
    rfl

theorem wrongLengthFaults {op : Byte} {len : Nat} (h : packetLength op = some len) : WrongLengthFaults op len := by
  intro s operands rest hrun hin hne
  exact step_of_malformed hrun hin fun hlen => hne (Option.some.inj (hlen.symm.trans h))

/-! ### `RESET` (R110, R272) -/

/-- What every address reads after `RESET`. -/
theorem State.byteAt_resetByCommand {s : State} (hs : s.Sound) (x : Nat) :
    s.resetByCommand.ram.byteAt x =
      if s.cfg.textBase ≤ x ∧ x < s.cfg.textBase + s.cfg.textLen then s.cfg.blank
      else if s.cfg.bufBase ≤ x ∧ x < s.cfg.bufBase + 1600 then 0x00
      else if s.cfg.graphBase ≤ x ∧ x < s.cfg.graphBase + 1600 then 0x00
      else if s.cfg.resetClearsRam then 0x00 else s.ram.byteAt x := by
  obtain ⟨hm, hc⟩ := hs
  rw [State.resetByCommand_ram]
  by_cases hclears : s.cfg.resetClearsRam = true
  · rw [if_pos hclears, if_pos hclears, byteAt_initSegments hc Memory.wf_empty]
    rfl
  · rw [if_neg hclears, if_neg hclears, byteAt_initSegments hc hm]

/-- Settles O17: the three segments are disjoint, so that each keeps what `RESET` puts into it. -/
theorem resetCommandResets : Obligations.ResetCommandResets := by
  refine ⟨rfl, wrongLengthFaults rfl, fun s hs => ⟨s.resetByCommand.ram, rfl, ?_⟩⟩
  obtain ⟨-, -, -, -, hgraphBuf, hgraphText, hbufText⟩ := hs.2
  refine ⟨fun i hi => ⟨?_, ?_⟩, fun i hi => ?_, fun a hgraph hbuf htext => ?_⟩ <;> rw [State.byteAt_resetByCommand hs]
  · rw [if_neg (by omega), if_neg (by omega), if_pos (by omega)]
  · rw [if_neg (by omega), if_pos (by omega)]
  · rw [if_pos (by omega)]
  · rw [if_neg (by omega), if_neg (by omega), if_neg (by omega)]

/-! ### `SETTARGET` (R111) -/

theorem execSetTarget_of_reserved {t : Byte} (ht : 2 ≤ t.toNat) (s : State) :
    execSetTarget t s = raiseFault .eOperand t.toNat s := by
  have hreserved : wfSelector t = false := decide_eq_false (by omega)
  rw [execSetTarget, readSelector_eq_none.mpr hreserved]

/-- Settles O26; that no other command changes `TARGET` is R26's column "written by". -/
theorem setTargetChoosesTheBitmap : Obligations.SetTargetChoosesTheBitmap := by
  refine ⟨fun _ => rfl, wrongLengthFaults rfl, fun t s => ⟨?_, ?_, fun ht => ?_, fun i u h hchanged => ?_⟩⟩
  · rintro rfl
    rfl
  · rintro rfl
    rfl
  · rw [exec, execSetTarget_of_reserved ht, ← BitVec.ofNat_toNat 32 t]
    rfl
  · by_cases hreset : i = .reset
    · exact .inl hreset
    · exact .inr ((registersChangeOnlyByTheirCommands i s u h hreset).1 hchanged)

/-! ### Bytes outside a range -/

theorem SameOutside.refl (m : Memory) (a n : Nat) : SameOutside m m a n := fun _ _ => rfl

theorem SameOutside.trans {m m' m'' : Memory} {a n : Nat} (h : SameOutside m m' a n) (h' : SameOutside m' m'' a n) :
    SameOutside m m'' a n := fun x hx => (h' x hx).trans (h x hx)

/-- A change inside a part of a range is one inside the range. -/
theorem SameOutside.mono {m m' : Memory} {a n b k : Nat} (h : SameOutside m m' b k) (hlo : a ≤ b) (hhi : b + k ≤ a + n) :
    SameOutside m m' a n := fun x hx => h x (by omega)

theorem Memory.sameOutside_storeLoad {m : Memory} (hm : m.wf = true) (dest src n : Nat) :
    SameOutside m (m.storeBytes dest (m.loadBytes src n)) dest n := by
  simpa using Memory.sameOutside_storeBytes hm dest (m.loadBytes src n)

@[simp] theorem length_savedBlock (m : Memory) (B : Nat) (x y : Int) (n ha : Nat) :
    (savedBlock m B x y n ha).length = n * ha := by simp [savedBlock]

theorem byteAt_clearBorder_outside (c : Params) (mode : BitVec 1) {m : Memory} (hm : m.wf = true) {x : Nat}
    (hx : x < c.graphBase ∨ c.graphBase + 1600 ≤ x) : (clearBorder c mode m).byteAt x = m.byteAt x := by
  unfold clearBorder
  split
  · exact Memory.byteAt_plotSet_outside hm _ _ _ _ hx
  · rfl

/-! ### The text grid -/

/-- An edit of the text engine that stores inside the grid alone (R206). -/
structure GridEdit (s t : State) : Prop extends TextEdit s t where
  outside : SameOutside s.ram t.ram s.cfg.textBase (s.rows * s.cols)

theorem TextEdit.rows {s t : State} (h : TextEdit s t) : t.rows = s.rows := by rw [State.rows, h.txtMode, State.rows]

theorem TextEdit.cols {s t : State} (h : TextEdit s t) : t.cols = s.cols := by rw [State.cols, h.txtMode, State.cols]

/-- `n` cells of one row lie inside the grid (R206). -/
theorem State.cell_bounds {s : State} {r c n : Nat} (hr : r < s.rows) (hc : c + n ≤ s.cols) :
    s.cfg.textBase ≤ s.cell r c ∧ s.cell r c + n ≤ s.cfg.textBase + s.rows * s.cols := by
  have hrow : (r + 1) * s.cols ≤ s.rows * s.cols := Nat.mul_le_mul_right _ hr
  rw [Nat.add_mul, Nat.one_mul] at hrow
  unfold State.cell
  omega

theorem State.sameOutside_scrollGrid {s : State} (hm : s.ram.wf = true) :
    SameOutside s.ram s.scrollGrid s.cfg.textBase (s.rows * s.cols) := by
  have hgrid := s.grid_cases
  have hmoved : (s.rows - 1) * s.cols ≤ s.rows * s.cols := Nat.mul_le_mul_right _ (by omega)
  obtain ⟨hlo, hhi⟩ := s.cell_bounds (r := s.rows - 1) (c := 0) (n := s.cols) (by omega) (by omega)
  exact ((Memory.sameOutside_storeLoad hm _ _ _).mono le_rfl (by omega)).trans
    ((Memory.sameOutside_storeReplicate (Memory.wf_storeBytes hm _ _) _ _ _).mono hlo hhi)

@[simp] theorem State.newLine_curCol (s : State) : s.newLine.curCol = 0 := by
  rcases s.newLine_cases with ⟨-, e⟩ | ⟨-, e⟩ <;> rw [e] <;> rfl

/-- A cell put into the last column wraps to the next line (R209). -/
theorem State.putCell_curCol_of_last {s : State} (h : s.curCol.toNat = s.cols - 1) (b : Byte) :
    (s.putCell b).curCol = 0 := by
  have hgrid := s.grid_cases
  have hfull : ¬ (s.setCell 0 b).curCol.toNat + 1 < (s.setCell 0 b).cols := by
    change ¬ s.curCol.toNat + 1 < s.cols
    omega
  rw [State.putCell, State.advance, if_neg hfull, State.newLine_curCol]

namespace GridEdit

variable {s t u : State}

theorem refl (s : State) : GridEdit s s := ⟨.refl s, .refl _ _ _⟩

theorem trans (h : GridEdit s t) (h' : GridEdit t u) : GridEdit s u :=
  ⟨h.toTextEdit.trans h'.toTextEdit, h.outside.trans (by simpa only [h.cfg, h.rows, h.cols] using h'.outside)⟩

/-- An edit that leaves RAM as it is. -/
theorem of_ram_eq (h : TextEdit s t) (hram : t.ram = s.ram) : GridEdit s t := ⟨h, by rw [hram]; exact .refl _ _ _⟩

theorem setCell (hm : s.ram.wf = true) (hs : s.InGrid) {i : Nat} (hi : s.curCol.toNat + i < s.cols) (b : Byte) :
    GridEdit s (s.setCell i b) := by
  obtain ⟨hlo, hhi⟩ := s.cell_bounds (n := 1) hs.1 hi
  exact ⟨.setCell s i b, (Memory.sameOutside_storeBytes hm _ [b]).mono hlo hhi⟩

theorem newLine (hm : s.ram.wf = true) : GridEdit s s.newLine := by
  rcases s.newLine_cases with ⟨-, e⟩ | ⟨-, e⟩
  · exact of_ram_eq (.newLine s) (by rw [e]; rfl)
  · exact ⟨.newLine s, by rw [e]; exact State.sameOutside_scrollGrid hm⟩

theorem advance (hm : s.ram.wf = true) (n : Nat) : GridEdit s (s.advance n) := by
  rcases s.advance_cases n with ⟨-, e⟩ | ⟨-, e⟩
  · exact of_ram_eq (.advance s n) (by rw [e]; rfl)
  · rw [e]
    exact newLine hm

theorem putCell (hm : s.ram.wf = true) (hs : s.InGrid) (b : Byte) : GridEdit s (s.putCell b) :=
  (setCell hm hs hs.2 b).trans (advance (State.wf_setCell hm 0 b) 1)

theorem addOne (hm : s.ram.wf = true) (hs : s.InGrid) (b : Byte) : GridEdit s (s.addOne b) := by
  rcases s.addOne_cases b with ⟨-, e⟩ | ⟨-, e⟩ | ⟨-, e⟩ | ⟨-, -, -, e⟩ <;> rw [e]
  · exact refl s
  · exact newLine hm
  · exact putCell hm hs _
  · exact putCell hm hs b

/-- The two cells of a pair, with the cursor before the last column. -/
theorem pairCells (hm : s.ram.wf = true) (hs : s.InGrid) (hcol : s.curCol.toNat + 1 < s.cols) (b1 b2 : Byte) :
    GridEdit s (((s.setCell 0 b1).setCell 1 b2).advance 2) := by
  have hfirst : GridEdit s (s.setCell 0 b1) := setCell hm hs hs.2 b1
  have hsecond : GridEdit (s.setCell 0 b1) ((s.setCell 0 b1).setCell 1 b2) :=
    setCell (hfirst.wf hm) (hfirst.inGrid hs) hcol b2
  exact (hfirst.trans hsecond).trans (advance (hsecond.wf (hfirst.wf hm)) 2)

/-- The padding space of R211 keeps the second half of a pair inside the row. -/
theorem addPair (hm : s.ram.wf = true) (hs : s.InGrid) (b1 b2 : Byte) : GridEdit s (s.addPair b1 b2) := by
  unfold State.addPair
  by_cases hlast : s.curCol.toNat = s.cols - 1
  · have hpad := putCell hm hs 0x20
    have hgrid := (s.putCell 0x20).grid_cases
    have hroom : (s.putCell 0x20).curCol.toNat + 1 < (s.putCell 0x20).cols := by
      rw [State.putCell_curCol_of_last hlast]
      change 0 + 1 < _
      omega
    rw [if_pos hlast]
    exact hpad.trans (pairCells (hpad.wf hm) (hpad.inGrid hs) hroom b1 b2)
  · have hcol := hs.2
    rw [if_neg hlast]
    exact pairCells hm hs (by omega) b1 b2

theorem addSeq (hm : s.ram.wf = true) (hs : s.InGrid) (bs : List Byte) : GridEdit s (s.addSeq bs) := by
  fun_induction State.addSeq s bs with
  | case1 s => exact refl s
  | case2 s b => exact addOne hm hs b
  | case3 s b b2 rest _ ih =>
    have hpair := addPair hm hs b b2
    exact hpair.trans (ih (hpair.wf hm) (hpair.inGrid hs))
  | case4 s b b2 rest _ ih =>
    have hone := addOne hm hs b
    exact hone.trans (ih (hone.wf hm) (hone.inGrid hs))

theorem freeText (hm : s.ram.wf = true) : GridEdit s s.freeText :=
  ⟨.freeText s, fun _ => Memory.byteAt_freeRange_outside hm _ _ _⟩

end GridEdit

/-! ### Outcomes and the ranges they store to -/

/-- In a next state every byte outside the ranges (first address, length) reads as in `s`. -/
def StoresOnlyIn (s : State) (ranges : List (Nat × Nat)) (o : StepOutcome) : Prop :=
  ∀ t, o = .next t → ∀ a, (∀ r ∈ ranges, a < r.1 ∨ r.1 + r.2 ≤ a) → t.ram.byteAt a = s.ram.byteAt a

namespace StoresOnlyIn

variable {s t : State} {ranges : List (Nat × Nat)} {a n : Nat}

/-- The next state's RAM is the old one: a fault, a command without effect, a command on registers. -/
theorem of_ram_eq (ranges : List (Nat × Nat)) (h : t.ram = s.ram) : StoresOnlyIn s ranges (.next t) := by
  rintro _ ⟨⟩ x -
  rw [h]

theorem of_raiseFault (s : State) (ranges : List (Nat × Nat)) (f : FaultCode) (info : Nat) :
    StoresOnlyIn s ranges (raiseFault f info s) := of_ram_eq ranges rfl

/-- A next state whose RAM differs inside the first of the ranges alone. -/
theorem of_sameOutside (h : SameOutside s.ram t.ram a n) : StoresOnlyIn s ((a, n) :: ranges) (.next t) := by
  rintro _ ⟨⟩ x hx
  exact h x (hx _ List.mem_cons_self)

theorem of_gridEdit (h : GridEdit s t) : StoresOnlyIn s [(s.cfg.textBase, s.rows * s.cols)] (.next t) :=
  of_sameOutside h.outside

theorem of_plotOnTarget (hm : s.ram.wf = true) (box : Box) (inS : Int → Int → Bool) (dm : DrawMode) :
    StoresOnlyIn s [(s.targetBase, 1600)] (plotOnTarget s box inS dm) :=
  of_sameOutside fun _ => Memory.byteAt_plotSet_outside hm _ _ _ _

theorem of_withAddressFault {r : Except AddressFault Memory} (h : ∀ m, r = .ok m → SameOutside s.ram m a n) :
    StoresOnlyIn s [(a, n)] (withAddressFault s r) := by
  cases r with
  | ok m => exact of_sameOutside (h m rfl)
  | error f => exact of_raiseFault _ _ _ _

/-! ### The commands -/

theorem reset (hs : s.Sound) : StoresOnlyIn s (footprint s .reset) (execReset s) := by
  rintro _ ⟨⟩ x hx
  by_cases hclears : s.cfg.resetClearsRam = true
  · have htop : 65536 ≤ x := by simpa [footprint, hclears] using hx
    have hm' : s.resetByCommand.ram.wf = true := CommandEffect.reset.wf hs.1
    rw [Memory.byteAt_of_ge hm' htop, Memory.byteAt_of_ge hs.1 htop]
  · obtain ⟨hgraph, hbuf, htext⟩ : (x < s.cfg.graphBase ∨ s.cfg.graphBase + 1600 ≤ x) ∧
        (x < s.cfg.bufBase ∨ s.cfg.bufBase + 1600 ≤ x) ∧
        (x < s.cfg.textBase ∨ s.cfg.textBase + s.cfg.textLen ≤ x) := by
      simpa [footprint, hclears] using hx
    rw [State.byteAt_resetByCommand hs, if_neg (by omega), if_neg (by omega), if_neg (by omega), if_neg hclears]

theorem setTarget (t : Byte) (ranges : List (Nat × Nat)) : StoresOnlyIn s ranges (execSetTarget t s) := by
  unfold execSetTarget
  split
  · exact of_raiseFault _ _ _ _
  · exact of_ram_eq _ rfl

theorem drawData (hm : s.ram.wf = true) (x y w h : Half) (addr : Addr24) (flags : Byte) :
    StoresOnlyIn s [(s.targetBase, 1600)] (execDrawData x y w h addr flags s) := by
  unfold execDrawData
  split
  · exact of_raiseFault _ _ _ _
  · dsimp only
    split_ifs
    · exact of_ram_eq _ rfl
    · exact of_raiseFault _ _ _ _
    · exact of_sameOutside fun _ => Memory.byteAt_freeRange_outside hm _ _ _
    · exact of_sameOutside fun _ => Memory.byteAt_blit_outside hm _ _ _

/-- The destination range, and in the unspecified case of R275 the target bitmap too. -/
theorem saveData (hm : s.ram.wf = true) (x y w h addr : Half) :
    StoresOnlyIn s (footprint s (.saveData x y w h addr)) (execSaveData x y w h addr s) := by
  unfold execSaveData
  dsimp only
  split_ifs with hempty hnone hpast hmeet
  · exact of_ram_eq _ rfl
  · exact of_ram_eq _ rfl
  · exact of_raiseFault _ _ _ _
  · rintro _ ⟨⟩ a ha
    rw [footprint, if_pos hmeet, List.forall_mem_cons, List.forall_mem_singleton] at ha
    obtain ⟨hdest, htarget⟩ := ha
    calc _ = (s.ram.freeRange s.draws addr.toNat (savedWidth w * savedHeight s.cfg h)).byteAt a :=
          Memory.byteAt_freeRange_outside (Memory.wf_freeRange hm _ _ _) _ _ _ htarget
      _ = s.ram.byteAt a := Memory.byteAt_freeRange_outside hm _ _ _ hdest
  · exact of_sameOutside (by
      simpa using Memory.sameOutside_storeBytes hm addr.toNat (savedBlock s.ram s.targetBase _ _ _ _))

theorem render (hm : s.ram.wf = true) : StoresOnlyIn s [(s.cfg.graphBase, 1600)] (execRender s) :=
  of_sameOutside (Memory.sameOutside_storeLoad hm _ _ _)

theorem drawPoint (hm : s.ram.wf = true) (x y : Half) (sm : Byte) :
    StoresOnlyIn s [(s.targetBase, 1600)] (execDrawPoint x y sm s) := by
  unfold execDrawPoint
  split
  · exact of_raiseFault _ _ _ _
  · exact of_plotOnTarget hm _ _ _

theorem drawLine (hm : s.ram.wf = true) (x0 y0 x1 y1 : Half) (sm : Byte) :
    StoresOnlyIn s [(s.targetBase, 1600)] (execDrawLine x0 y0 x1 y1 sm s) := by
  unfold execDrawLine
  split
  · exact of_raiseFault _ _ _ _
  · exact of_plotOnTarget hm _ _ _

theorem drawRect (hm : s.ram.wf = true) (x0 y0 x1 y1 : Half) (sm : Byte) :
    StoresOnlyIn s [(s.targetBase, 1600)] (execDrawRect x0 y0 x1 y1 sm s) := by
  unfold execDrawRect
  split
  · exact of_raiseFault _ _ _ _
  · exact of_plotOnTarget hm _ _ _

theorem drawOval (hm : s.ram.wf = true) (cx cy rx ry : Half) (sm : Byte) :
    StoresOnlyIn s [(s.targetBase, 1600)] (execDrawOval cx cy rx ry sm s) := by
  unfold execDrawOval
  split
  · exact of_raiseFault _ _ _ _
  · split_ifs
    · exact of_raiseFault _ _ _ _
    · exact of_raiseFault _ _ _ _
    · exact of_plotOnTarget hm _ _ _

theorem scroll (hm : s.ram.wf = true) (dir : Byte) : StoresOnlyIn s [(s.targetBase, 1600)] (execScroll dir s) := by
  unfold execScroll
  split
  · exact of_raiseFault _ _ _ _
  · exact of_sameOutside fun _ => Memory.byteAt_rewriteBitmap_outside hm _ _

theorem mirror (hm : s.ram.wf = true) (dir : Byte) : StoresOnlyIn s [(s.targetBase, 1600)] (execMirror dir s) := by
  unfold execMirror
  split
  · exact of_raiseFault _ _ _ _
  · exact of_sameOutside fun _ => Memory.byteAt_rewriteBitmap_outside hm _ _

theorem memFill (hm : s.ram.wf = true) (addr count : Half) (value : Byte) :
    StoresOnlyIn s [(addr.toNat, count.toNat)] (execMemFill addr count value s) := by
  refine of_withAddressFault fun m hr => ?_
  rcases Memory.fill_cases s.ram addr.toNat count.toNat value with ⟨-, e⟩ | ⟨-, -, e⟩ | ⟨-, -, e⟩ <;> rw [e] at hr <;> cases hr
  · exact .refl _ _ _
  · exact Memory.sameOutside_storeReplicate hm _ _ _

theorem memCopy (hm : s.ram.wf = true) (dest src count : Half) :
    StoresOnlyIn s [(dest.toNat, count.toNat)] (execMemCopy dest src count s) := by
  refine of_withAddressFault fun m hr => ?_
  rcases Memory.copy_cases s.ram dest.toNat src.toNat count.toNat with ⟨-, e⟩ | ⟨-, -, e⟩ | ⟨-, -, -, e⟩ | ⟨-, -, -, e⟩ <;>
    rw [e] at hr <;> cases hr
  · exact .refl _ _ _
  · exact Memory.sameOutside_storeLoad hm _ _ _

theorem txtMode (hm : s.ram.wf = true) (m : Byte) :
    StoresOnlyIn s [(s.cfg.textBase, s.cfg.textLen)] (execTxtMode m s) := by
  unfold execTxtMode
  split
  · exact of_raiseFault _ _ _ _
  · exact of_sameOutside (Memory.sameOutside_storeReplicate hm _ _ _)

theorem txtByte (hm : s.ram.wf = true) (hs : s.InGrid) (b : Byte) :
    StoresOnlyIn s [(s.cfg.textBase, s.rows * s.cols)] (execTxtByte b s) := by
  unfold execTxtByte
  split
  · exact of_raiseFault _ _ _ _
  · exact of_gridEdit (.addOne hm hs b)

theorem txtBytes (hm : s.ram.wf = true) (hs : s.InGrid) (addr count : Half) :
    StoresOnlyIn s [(s.cfg.textBase, s.rows * s.cols)] (execTxtBytes addr count s) := by
  unfold execTxtBytes
  split
  · exact of_ram_eq _ rfl
  split
  · exact of_raiseFault _ _ _ _
  split
  · exact of_raiseFault _ _ _ _
  split
  · exact of_gridEdit (.freeText hm)
  · exact of_gridEdit (.addSeq hm hs _)

theorem txtRender (hm : s.ram.wf = true) (mask : Half) :
    StoresOnlyIn s [(s.cfg.graphBase, 1600)] (execTxtRender mask s) :=
  of_sameOutside fun _ hx =>
    (byteAt_drawRows_outside _ _ _ _ _ (wf_clearBorder _ _ hm) hx).trans (byteAt_clearBorder_outside _ _ hm hx)

end StoresOnlyIn

theorem exec_storesOnlyIn_footprint (i : Instr) {s : State} (hs : s.Sound) (hgrid : s.InGrid) :
    StoresOnlyIn s (footprint s i) (exec i s) := by
  have hm := hs.1
  cases i with
  | reset => exact .reset hs
  | setTarget t => exact .setTarget t _
  | drawData x y w h addr flags => exact .drawData hm x y w h addr flags
  | saveData x y w h addr => exact .saveData hm x y w h addr
  | render => exact .render hm
  | drawPoint x y sm => exact .drawPoint hm x y sm
  | drawLine x0 y0 x1 y1 sm => exact .drawLine hm x0 y0 x1 y1 sm
  | drawRect x0 y0 x1 y1 sm => exact .drawRect hm x0 y0 x1 y1 sm
  | drawOval cx cy rx ry sm => exact .drawOval hm cx cy rx ry sm
  | testPoint x y => exact .of_ram_eq _ rfl
  | scroll dir => exact .scroll hm dir
  | mirror dir => exact .mirror hm dir
  | memFill addr count value => exact .memFill hm addr count value
  | memCopy dest src count => exact .memCopy hm dest src count
  | txtMode m => exact .txtMode hm m
  | txtLoc row col => exact .of_ram_eq _ rfl
  | txtByte b => exact .txtByte hm hgrid b
  | txtBytes addr count => exact .txtBytes hm hgrid addr count
  | txtRender mask => exact .txtRender hm mask

/-- Settles O25: each command stores only in its `footprint`; of R39's invariants the cursor's bounds are used, which keep
every cell inside the grid. -/
theorem commandsStoreOnlyInTheirRanges : Obligations.CommandsStoreOnlyInTheirRanges :=
  fun i s t hs hinv h => exec_storesOnlyIn_footprint i hs ((State.inv_iff s).mp hinv).1 t h

end Sys2Proof.Machine
end

/-! # Block transfer (spec 41_blit.md)

The byte datapath is compared with the pixel blit pixel by pixel: `BlitOp.getLsbD_newByte` says what one destination byte
holds, `BlitOp.byteAt_rowsFrom` where such bytes are stored, and `Memory.ext_bitmap` that pixels are enough. The commands are
put together from one equation for each way `DRAWDATA` and `SAVEDATA` can end. -/

section
namespace Sys2Proof.Machine

/-! ### Bytes and pixels of a bitmap (R120, R121) -/

/-- Two canonical memories with the same pixels in a bitmap and the same bytes outside it are equal. -/
theorem Memory.ext_bitmap {m m' : Memory} (hm : m.wf = true) (hm' : m'.wf = true) {B : Nat}
    (hout : SameOutside m m' B 1600) (hpx : ∀ px py, px < 160 → py < 80 → m.px B px py = m'.px B px py) : m = m' := by
  refine Memory.ext hm hm' fun a => ?_
  by_cases ha : a < B ∨ B + 1600 ≤ a
  · exact (hout a ha).symm
  · refine byte_ext_pixels fun j hj => ?_
    have h := hpx (8 * ((a - B) % 20) + j) ((a - B) / 20) (by omega) (by omega)
    rw [Memory.px_eq, Memory.px_eq, show B + 20 * ((a - B) / 20) + (8 * ((a - B) % 20) + j) / 8 = a by omega,
      show (8 * ((a - B) % 20) + j) % 8 = j by omega] at h
    exact h

/-- Bytes stored into columns `[k0, k0 + n)` of bitmap row `Y`, as they read in every row. -/
theorem Memory.byteAt_storeRow {m : Memory} (hm : m.wf = true) {B Y k0 n py k : Nat} (g : Nat → Byte)
    (hB : B + 1600 ≤ 65536) (hY : Y < 80) (hn : k0 + n ≤ 20) (hk : k < 20) :
    (m.storeBytes (B + 20 * Y + k0) ((List.range n).map g)).byteAt (B + 20 * py + k) =
      if py = Y ∧ k0 ≤ k ∧ k < k0 + n then g (k - k0) else m.byteAt (B + 20 * py + k) := by
  rw [Memory.byteAt_storeRange hm _ _ (by omega)]
  by_cases h : py = Y ∧ k0 ≤ k ∧ k < k0 + n
  · rw [if_pos (by omega), if_pos h, show B + 20 * py + k - (B + 20 * Y + k0) = k - k0 by omega]
  · rw [if_neg (by omega), if_neg h]

/-! ### One destination byte of the datapath (R126) -/

/-- The bits of the two shifted masks, for every shift. -/
theorem getLsbD_shiftedOnes : ∀ a < 8, ∀ j < 8,
    (((0xFF : Nat) >>> a : Nat) : Byte).getLsbD (7 - j) = decide (a ≤ j) ∧
      (((0xFF : Nat) <<< (7 - a) : Nat) : Byte).getLsbD (7 - j) = decide (j ≤ a) := by decide

theorem getLsbD_allOnes {j : Nat} (hj : j < 8) : (0xFF : Byte).getLsbD (7 - j) = true :=
  (getLsbD_shiftedOnes 0 (by decide) j hj).1

/-- The mask of a destination byte selects its pixels in the columns `[X0, X1)`. -/
theorem getLsbD_edgeMask {X0 X1 k j : Nat} (hX : X0 < X1) (hlo : X0 / 8 ≤ k) (hhi : k ≤ (X1 - 1) / 8) (hj : j < 8) :
    (edgeMask X0 X1 k).getLsbD (7 - j) = decide (X0 ≤ 8 * k + j ∧ 8 * k + j < X1) := by
  have hfirst : ((if k = X0 / 8 then 0xFF >>> (X0 % 8) else 0xFF : Nat) : Byte).getLsbD (7 - j) =
      decide (X0 ≤ 8 * k + j) := by
    split
    · rw [(getLsbD_shiftedOnes (X0 % 8) (by omega) j hj).1, decide_eq_decide]
      omega
    · exact (getLsbD_allOnes hj).trans (decide_eq_true (by omega)).symm
  have hlast : ((if k = (X1 - 1) / 8 then 0xFF <<< (7 - (X1 - 1) % 8) else 0xFF : Nat) : Byte).getLsbD (7 - j) =
      decide (8 * k + j < X1) := by
    split
    · rw [(getLsbD_shiftedOnes ((X1 - 1) % 8) (by omega) j hj).2, decide_eq_decide]
      omega
    · exact (getLsbD_allOnes hj).trans (decide_eq_true (by omega)).symm
  rw [edgeMask, BitVec.getLsbD_and, hfirst, hlast, Bool.decide_and]

theorem BlitMode.getLsbD_combineByte (mode : BlitMode) (old s : Byte) {j : Nat} (hj : j < 8) :
    (mode.combineByte old s).getLsbD (7 - j) = mode.combine (old.getLsbD (7 - j)) (s.getLsbD (7 - j)) := by
  cases mode <;>
    simp only [combineByte, combine, BitVec.getLsbD_xor, BitVec.getLsbD_or, BitVec.getLsbD_and, getLsbD_allOnes hj,
      Bool.xor_true]

namespace BlitOp

variable (b : BlitOp) (c : Params) (m : Memory)

/-- Bit of `S[q]` for column `col` of the block, mirrored where the flag is live (R125, R129). -/
theorem getLsbD_rowByte (r : Nat) {col : Nat} (hcol : col < b.w) :
    (b.rowByte c m r (col / 8 : Nat)).getLsbD (7 - col % 8) =
      srcBit (srcByte c m b.space) b.addr b.w r (b.column c.hmirrorLive col) := by
  have hin : 0 ≤ ((col / 8 : Nat) : Int) ∧ ((col / 8 : Nat) : Int) < strideOf b.w := by
    unfold strideOf
    omega
  rw [rowByte, if_pos hin, Int.toNat_natCast, column]
  split
  · rw [getLsbD_packPixels, show 7 - (7 - col % 8) = col % 8 by omega, show 8 * (col / 8) + col % 8 = col by omega]
    simp [hcol, show 7 - col % 8 < 8 by omega]
  · rfl

/-- Realignment: pixel `8k + j` of the destination takes the bit of its own column of the block. -/
theorem getLsbD_shifted (r : Nat) {k j : Nat} (hj : j < 8) (hlo : b.x ≤ (8 * k + j : Nat))
    (hhi : ((8 * k + j : Nat) : Int) < b.x + b.w) :
    (b.shifted c m r k).getLsbD (7 - j) =
      srcBit (srcByte c m b.space) b.addr b.w r (b.column c.hmirrorLive (((8 * k + j : Nat) : Int) - b.x).toNat) := by
  obtain ⟨col, hcol⟩ : ∃ col : Nat, ((8 * k + j : Nat) : Int) - b.x = col := ⟨_, (Int.toNat_of_nonneg (by omega)).symm⟩
  rw [hcol, Int.toNat_natCast, ← b.getLsbD_rowByte c m r (by omega), shifted, BitVec.getLsbD_or, BitVec.getLsbD_shiftLeft,
    BitVec.getLsbD_ushiftRight]
  by_cases hsh : (b.x % 8).toNat ≤ j
  · rw [show (k : Int) - b.x / 8 = (col / 8 : Nat) by omega, show (b.x % 8).toNat + (7 - j) = 7 - col % 8 by omega,
      decide_eq_true (show 7 - j < 8 - (b.x % 8).toNat by omega)]
    simp
  · rw [show (k : Int) - b.x / 8 - 1 = (col / 8 : Nat) by omega,
      show 7 - j - (8 - (b.x % 8).toNat) = 7 - col % 8 by omega,
      BitVec.getLsbD_of_ge _ ((b.x % 8).toNat + (7 - j)) (by omega),
      decide_eq_false (show ¬ 7 - j < 8 - (b.x % 8).toNat by omega)]
    simp [show 7 - j < 8 by omega]

/-- The realigned byte after the `inv` step. -/
theorem getLsbD_shifted_inv {k j py : Nat} (hj : j < 8) (hlo : b.x ≤ (8 * k + j : Nat))
    (hhi : ((8 * k + j : Nat) : Int) < b.x + b.w) :
    (if b.inv then b.shifted c m (py - b.y).toNat k ^^^ 0xFF else b.shifted c m (py - b.y).toNat k).getLsbD (7 - j) =
      b.source c m (8 * k + j) py := by
  rw [source, ← b.getLsbD_shifted c m _ hj hlo hhi]
  cases b.inv with
  | false => exact (Bool.xor_false _).symm
  | true => exact BitVec.getLsbD_xor.trans (by rw [getLsbD_allOnes hj])

/-- Pixel `8k + j` of a rewritten byte: combined with its source bit in the columns `[X0, X1)`, kept outside them. -/
theorem getLsbD_newByte {X0 X1 k j py : Nat} (hX : X0 < X1) (hX0 : b.x ≤ X0) (hX1 : X1 ≤ b.x + b.w)
    (hlo : X0 / 8 ≤ k) (hhi : k ≤ (X1 - 1) / 8) (hj : j < 8) (old : Byte) :
    (b.newByte c m X0 X1 (py - b.y).toNat k old).getLsbD (7 - j) =
      if X0 ≤ 8 * k + j ∧ 8 * k + j < X1 then
        b.mode.combine (old.getLsbD (7 - j)) (b.source c m (8 * k + j) py)
      else old.getLsbD (7 - j) := by
  rw [newByte, BitVec.getLsbD_or, BitVec.getLsbD_and, BitVec.getLsbD_and, BitVec.getLsbD_not, getLsbD_edgeMask hX hlo hhi hj,
    b.mode.getLsbD_combineByte _ _ hj]
  by_cases hpx : X0 ≤ 8 * k + j ∧ 8 * k + j < X1
  · rw [if_pos hpx, decide_eq_true hpx, b.getLsbD_shifted_inv c m hj (by omega) (by omega)]
    simp
  · rw [if_neg hpx, decide_eq_false hpx]
    simp [show 7 - j < 8 by omega]

/-! ### The rows of the datapath (R126) -/

theorem wf_rowsFrom {m : Memory} (hm : m.wf = true) (b : BlitOp) (c : Params) (old : Memory) (B X0 X1 rows r : Nat) :
    (b.rowsFrom c old B X0 X1 rows r m).wf = true := by
  induction rows generalizing r m with
  | zero => exact hm
  | succ rows ih => exact ih (Memory.wf_storeBytes hm _ _) _

/-- Every byte outside the bitmap is left alone. -/
theorem sameOutside_rowsFrom {m : Memory} (hm : m.wf = true) (b : BlitOp) (c : Params) (old : Memory) (B : Nat)
    {X0 X1 rows r : Nat} (hX : X0 < X1) (hX1 : X1 ≤ 160) (hbot : b.y + (r + rows : Nat) ≤ 80) :
    SameOutside m (b.rowsFrom c old B X0 X1 rows r m) B 1600 := by
  induction rows generalizing r m with
  | zero => exact .refl m B 1600
  | succ rows ih =>
    refine SameOutside.trans ?_ (ih (Memory.wf_storeBytes hm _ _) (by omega))
    refine (Memory.sameOutside_storeBytes hm _ _).mono (by omega) ?_
    simp only [List.length_map, List.length_range]
    omega

/-- Byte `k` of bitmap row `py` after `rows` rows from source row `r` on: rewritten once in those rows, between the first
and the last destination byte, and otherwise as before. -/
theorem byteAt_rowsFrom {m : Memory} (hm : m.wf = true) (b : BlitOp) (c : Params) (old : Memory) {B X0 X1 rows r py k : Nat}
    (hB : B + 1600 ≤ 65536) (hX : X0 < X1) (hX1 : X1 ≤ 160) (htop : 0 ≤ b.y + r) (hbot : b.y + (r + rows : Nat) ≤ 80)
    (hk : k < 20) :
    (b.rowsFrom c old B X0 X1 rows r m).byteAt (B + 20 * py + k) =
      if (b.y + r ≤ py ∧ py < b.y + (r + rows : Nat)) ∧ X0 / 8 ≤ k ∧ k ≤ (X1 - 1) / 8 then
        b.newByte c old X0 X1 (py - b.y).toNat k (m.byteAt (B + 20 * py + k))
      else m.byteAt (B + 20 * py + k) := by
  induction rows generalizing r m with
  | zero => rw [rowsFrom, if_neg (by omega)]
  | succ rows ih =>
    rw [rowsFrom, ih (Memory.wf_storeBytes hm _ _) (by omega) (by omega),
      Memory.byteAt_storeRow hm _ hB (by omega) (by omega) hk]
    by_cases hcol : X0 / 8 ≤ k ∧ k ≤ (X1 - 1) / 8
    · by_cases hrow : py = (b.y + r).toNat
      · rw [if_neg (by omega), if_pos (by omega), if_pos (by omega), show X0 / 8 + (k - X0 / 8) = k by omega,
          show ((py : Int) - b.y).toNat = r by omega, hrow,
          show B + 20 * (b.y + r).toNat + X0 / 8 + (k - X0 / 8) = B + 20 * (b.y + r).toNat + k by omega]
      · rw [if_neg (show ¬ (py = (b.y + r).toNat ∧ _) by omega)]
        congr 1
        rw [eq_iff_iff]
        omega
    · rw [if_neg (by omega), if_neg (by omega), if_neg (by omega)]

end BlitOp

/-! ### The datapath is the blit (R127) -/

theorem BlitOp.has_box_iff {b : BlitOp} {px py : Int} :
    b.box.has px py = true ↔ b.x ≤ px ∧ px < b.x + b.w ∧ b.y ≤ py ∧ py < b.y + b.h := by
  simp only [Box.has, Bool.and_eq_true, decide_eq_true_eq, and_assoc]
  rfl

/-- The visible pixels of the block are those of destination columns `[X0, X1)` and source rows `[r, r + rows)` (R126). -/
structure BlitOp.Clipped (b : BlitOp) (X0 X1 r rows : Nat) : Prop where
  nonempty : X0 < X1
  right : X1 ≤ 160
  left_mem : b.x ≤ X0
  right_mem : X1 ≤ b.x + b.w
  top : 0 ≤ b.y + r
  bottom : b.y + (r + rows : Nat) ≤ 80
  has_iff : ∀ px py : Nat, px < 160 → py < 80 →
    (b.box.has px py = true ↔ (b.y + r ≤ py ∧ py < b.y + (r + rows : Nat)) ∧ X0 ≤ px ∧ px < X1)

/-- The datapath leaves a block with no visible pixel alone, and otherwise rewrites its visible rows and columns. -/
theorem Memory.blitBytes_cases (m : Memory) (c : Params) (B : Nat) (b : BlitOp) :
    ((∀ px py : Nat, px < 160 → py < 80 → ¬ b.box.has px py = true) ∧ m.blitBytes c B b = m) ∨
    ∃ X0 X1 r rows, b.Clipped X0 X1 r rows ∧ m.blitBytes c B b = b.rowsFrom c m B X0 X1 rows r m := by
  unfold Memory.blitBytes
  dsimp only
  split
  · refine .inr ⟨_, _, _, _, ?_, rfl⟩
    constructor
    case has_iff =>
      intro px py hx hy
      rw [BlitOp.has_box_iff]
      omega
    all_goals omega
  · refine .inl ⟨fun px py hx hy => ?_, rfl⟩
    rw [BlitOp.has_box_iff]
    omega

/-- A pixel after the datapath has run. -/
theorem Memory.px_blitBytes {m : Memory} (hm : m.wf = true) (c : Params) {B : Nat} (hB : B + 1600 ≤ 65536) (b : BlitOp)
    {px py : Nat} (hx : px < 160) (hy : py < 80) :
    (m.blitBytes c B b).px B px py =
      if b.box.has px py then b.mode.combine (m.px B px py) (b.source c m px py) else m.px B px py := by
  rcases m.blitBytes_cases c B b with ⟨hnone, e⟩ | ⟨X0, X1, r, rows, hclip, e⟩
  · rw [e, if_neg (hnone px py hx hy)]
  · have hbyte := b.byteAt_rowsFrom hm c m (py := py) (k := px / 8) hB hclip.nonempty hclip.right hclip.top hclip.bottom
      (by omega)
    have hhas := hclip.has_iff px py hx hy
    rw [e, Memory.px_eq, Memory.px_eq, hbyte]
    by_cases hrow : (b.y + r ≤ py ∧ py < b.y + (r + rows : Nat)) ∧ X0 / 8 ≤ px / 8 ∧ px / 8 ≤ (X1 - 1) / 8
    · rw [if_pos hrow, b.getLsbD_newByte c m hclip.nonempty hclip.left_mem hclip.right_mem hrow.2.1 hrow.2.2
        (by omega), show 8 * (px / 8) + px % 8 = px by omega]
      simp only [hhas, hrow.1, true_and]
    · rw [if_neg hrow, if_neg (by rw [hhas]; omega)]

theorem Memory.sameOutside_blitBytes {m : Memory} (hm : m.wf = true) (c : Params) (B : Nat) (b : BlitOp) :
    SameOutside m (m.blitBytes c B b) B 1600 := by
  rcases m.blitBytes_cases c B b with ⟨-, e⟩ | ⟨X0, X1, r, rows, hclip, e⟩ <;> rw [e]
  · exact .refl m B 1600
  · exact b.sameOutside_rowsFrom hm c m B hclip.nonempty hclip.right hclip.bottom

theorem Memory.wf_blitBytes {m : Memory} (hm : m.wf = true) (c : Params) (B : Nat) (b : BlitOp) :
    (m.blitBytes c B b).wf = true := by
  rcases m.blitBytes_cases c B b with ⟨-, e⟩ | ⟨X0, X1, r, rows, -, e⟩ <;> rw [e]
  · exact hm
  · exact b.wf_rowsFrom hm c m B X0 X1 rows r

theorem Memory.sameOutside_blit {m : Memory} (hm : m.wf = true) (c : Params) (B : Nat) (b : BlitOp) :
    SameOutside m (m.blit c B b) B 1600 := fun _ => Memory.byteAt_blit_outside hm c B b

/-- Settles O30: both leave the same pixels in the bitmap and every other byte alone. -/
theorem byteDatapathIsTheBlit : Obligations.ByteDatapathIsTheBlit := by
  intro m c B b hm hB _ _
  refine Memory.ext_bitmap (Memory.wf_blitBytes hm c B b) (Memory.wf_blit hm c B b) (B := B) (fun a ha => ?_)
    fun px py hx hy => ?_
  · rw [Memory.sameOutside_blit hm c B b a ha, Memory.sameOutside_blitBytes hm c B b a ha]
  · rw [Memory.px_blitBytes hm c hB b hx hy, Memory.px_blit hm c hB b hx hy]

/-! ### Operands and ranges (R83, R84, R275) -/

/-- A positive `s16` operand is the unsigned number of the same bits. -/
theorem s16_eq_toNat {v : Half} (h : 0 < v.toInt) : s16 v = v.toNat :=
  BitVec.toInt_eq_toNat_of_msb (by rw [BitVec.msb_eq_toInt, decide_eq_false_iff_not]; omega)

theorem toNat_s16 {v : Half} (h : 0 < v.toInt) : (s16 v).toNat = v.toNat := by rw [s16_eq_toNat h, Int.toNat_natCast]

theorem toNat_ofNat_half {n : Nat} (hn : n < 2 ^ 15) : (BitVec.ofNat 16 n).toNat = n := Nat.mod_eq_of_lt (by omega)

theorem toInt_ofNat_half {n : Nat} (hn : n < 2 ^ 15) : (BitVec.ofNat 16 n).toInt = n := by
  rw [BitVec.toInt_eq_toNat_of_lt (by rw [toNat_ofNat_half hn]; omega), toNat_ofNat_half hn]

theorem rangesMeet_eq_false {a n b k : Nat} (h : apart a n b k) : rangesMeet a n b k = false :=
  decide_eq_false (by omega)

/-- A fault whose `FAULTINFO` is an operand. -/
theorem raiseFault_toNat (f : FaultCode) {n : Nat} (v : BitVec n) (s : State) :
    raiseFault f v.toNat s = .next { s with status := f.code, faultInfo := v.setWidth 32 } := by
  rw [← BitVec.ofNat_toNat 32 v]
  rfl

/-! ### `DRAWDATA` (R128) -/

section
variable {x y w h : Half} {addr : Addr24} {flags : Byte} {f : BlitFlags} {s : State}

theorem blitOpOf_w (hw : 0 < w.toInt) : (blitOpOf x y w h addr f).w = w.toNat := toNat_s16 hw

theorem blitOpOf_h (hh : 0 < h.toInt) : (blitOpOf x y w h addr f).h = h.toNat := toNat_s16 hh

theorem blitOpOf_size (hw : 0 < w.toInt) (hh : 0 < h.toInt) :
    (blitOpOf x y w h addr f).size = (w.toNat + 7) / 8 * h.toNat := by
  rw [BlitOp.size, blitOpOf_w hw, blitOpOf_h hh, strideOf]

theorem blitOpOf_has_box_iff (hw : 0 < w.toInt) (hh : 0 < h.toInt) {px py : Int} :
    (blitOpOf x y w h addr f).box.has px py = true ↔
      x.toInt ≤ px ∧ px < x.toInt + w.toInt ∧ y.toInt ≤ py ∧ py < y.toInt + h.toInt := by
  rw [BlitOp.has_box_iff, blitOpOf_w hw, blitOpOf_h hh, ← s16_eq_toNat hw, ← s16_eq_toNat hh]
  rfl

theorem blitOpOf_source (hw : 0 < w.toInt) (c : Params) (m : Memory) (px py : Nat) :
    (blitOpOf x y w h addr f).source c m px py =
      (srcBit (srcByte c m f.space) addr.toNat w.toNat (py - y.toInt).toNat
        (if f.hm = true ∧ c.hmirrorLive = true then w.toNat - 1 - (px - x.toInt).toNat
         else (px - x.toInt).toNat) ^^ f.inv) := by
  rw [BlitOp.source, BlitOp.column, blitOpOf_w hw]
  simp only [Bool.and_eq_true]
  rfl

theorem spaceLimit_eq (c : Params) (sp : Space) : spaceLimit c sp = if sp = .font then fontLen c else 65536 := by
  cases sp <;> rfl

theorem execDrawData_of_reserved (hflags : wfFlags flags = false) :
    execDrawData x y w h addr flags s = raiseFault .eOperand flags.toNat s := by
  rw [execDrawData, readFlags_eq_none.mpr hflags]

theorem execDrawData_of_empty (hf : readFlags flags = some f) (hempty : w.toInt ≤ 0 ∨ h.toInt ≤ 0) :
    execDrawData x y w h addr flags s = .next s := by
  rw [execDrawData, hf]
  exact if_pos hempty

/-- `DRAWDATA` with legal flags and a block that is not empty: the address check, then the overlap, then the blit. -/
theorem execDrawData_of_nonempty (hf : readFlags flags = some f) (hw : 0 < w.toInt) (hh : 0 < h.toInt) :
    execDrawData x y w h addr flags s =
      if addr.toNat + (w.toNat + 7) / 8 * h.toNat > spaceLimit s.cfg f.space then raiseFault .eAddr addr.toNat s
      else if f.space == .ram && rangesMeet addr.toNat ((w.toNat + 7) / 8 * h.toNat) s.targetBase 1600 then
        .next ((s.setRam (s.ram.freeRange s.draws s.targetBase 1600)).countDraw)
      else .next (s.setRam (s.ram.blit s.cfg s.targetBase (blitOpOf x y w h addr f))) := by
  have hnonempty : ¬ (s16 w ≤ 0 ∨ s16 h ≤ 0) := by
    unfold s16
    omega
  rw [← blitOpOf_size (x := x) (y := y) (addr := addr) (f := f) hw hh, execDrawData, hf]
  exact if_neg hnonempty

theorem execDrawData_of_past (hf : readFlags flags = some f) (hw : 0 < w.toInt) (hh : 0 < h.toInt)
    (hpast : spaceLimit s.cfg f.space < addr.toNat + (w.toNat + 7) / 8 * h.toNat) :
    execDrawData x y w h addr flags s = raiseFault .eAddr addr.toNat s := by
  rw [execDrawData_of_nonempty hf hw hh, if_pos hpast]

/-- A block inside its space and, for RAM, apart from the target bitmap is drawn. -/
theorem execDrawData_of_fits (hf : readFlags flags = some f) (hw : 0 < w.toInt) (hh : 0 < h.toInt)
    (hfit : addr.toNat + (w.toNat + 7) / 8 * h.toNat ≤ spaceLimit s.cfg f.space)
    (hapart : f.space = .ram → apart addr.toNat ((w.toNat + 7) / 8 * h.toNat) s.targetBase 1600) :
    execDrawData x y w h addr flags s =
      .next (s.setRam (s.ram.blit s.cfg s.targetBase (blitOpOf x y w h addr f))) := by
  have hmeets : ¬ (f.space == .ram && rangesMeet addr.toNat ((w.toNat + 7) / 8 * h.toNat) s.targetBase 1600) = true := by
    rw [Bool.and_eq_true, beq_iff_eq]
    rintro ⟨hram, hmeets⟩
    simp [rangesMeet_eq_false (hapart hram)] at hmeets
  rw [execDrawData_of_nonempty hf hw hh, if_neg (by omega), if_neg hmeets]

end

/-- Settles O28: one equation for each way the checks can end. -/
theorem drawDataChecksComeFirst : Obligations.DrawDataChecksComeFirst := by
  refine ⟨fun _ _ _ _ _ _ => rfl, wrongLengthFaults rfl, fun x y w h addr flags s => ⟨fun hreserved => ?_,
    fun hmin hmax hbits => ?_⟩⟩
  · have hflags : wfFlags flags = false := decide_eq_false (by omega)
    rw [exec, execDrawData_of_reserved hflags, raiseFault_toNat]
    rfl
  · have hflags : wfFlags flags = true := decide_eq_true ⟨hmin, hmax, hbits⟩
    have hf := readFlags_eq flags
    rw [if_pos hflags] at hf
    refine ⟨execDrawData_of_empty hf, fun hw hh hpast => ?_⟩
    rw [exec, execDrawData_of_past hf hw hh, raiseFault_toNat]
    · rfl
    · rw [spaceLimit_eq]
      cases hfont : flags.getLsbD 4 <;> rw [hfont] at hpast <;> exact hpast

/-- Settles O29: the command is the blit, and a blit is known pixel by pixel. -/
theorem drawDataBlitsTheBlock : Obligations.DrawDataBlitsTheBlock := by
  intro x y w h addr flags f s ⟨hm, hc⟩ hf hw hh hfit hapart
  rw [← spaceLimit_eq] at hfit
  refine ⟨_, execDrawData_of_fits hf hw hh hfit hapart, Memory.sameOutside_blit hm _ _ _, fun px py hx hy => ?_⟩
  rw [Memory.px_blit hm _ (State.targetBase_fits hc) _ hx hy, blitOpOf_source hw]
  exact if_congr (blitOpOf_has_box_iff hw hh) rfl rfl

/-! ### `SAVEDATA` (R132, R133) -/

theorem savedWidth_eq_zero_iff {w : Half} : savedWidth w = 0 ↔ w.toInt < 8 := by
  unfold savedWidth s16
  omega

theorem savedHeight_eq_zero_iff {c : Params} {h : Half} :
    savedHeight c h = 0 ↔ h.toInt ≤ 0 ∨ c.saveTruncHeight = true ∧ h.toInt < 8 := by
  unfold savedHeight s16
  by_cases htrunc : c.saveTruncHeight = true
  · rw [if_pos htrunc, and_iff_right htrunc]
    omega
  · rw [if_neg htrunc, or_iff_left fun hlow => htrunc hlow.1]
    omega

theorem savedWidth_eq {w : Half} (hw : 0 < w.toInt) : savedWidth w = w.toNat / 8 := by
  rw [savedWidth, toNat_s16 hw]

theorem savedHeight_eq (c : Params) {h : Half} (hh : 0 < h.toInt) :
    savedHeight c h = if c.saveTruncHeight then 8 * (h.toNat / 8) else h.toNat := by
  rw [savedHeight, toNat_s16 hh]

theorem savedWidth_lt (w : Half) : 8 * savedWidth w < 2 ^ 15 := by
  have hlt := w.toInt_lt
  unfold savedWidth s16
  omega

theorem savedHeight_lt (c : Params) (h : Half) : savedHeight c h < 2 ^ 15 := by
  have hlt := h.toInt_lt
  unfold savedHeight s16
  split <;> omega

section
variable {x y w h addr : Half} {s : State}

theorem execSaveData_of_empty (hempty : savedWidth w = 0 ∨ savedHeight s.cfg h = 0) :
    execSaveData x y w h addr s = .next s := by
  unfold execSaveData
  split
  · rfl
  · exact if_pos hempty

/-- `SAVEDATA` of a region that is not empty: the address check, then the overlap, then the store. -/
theorem execSaveData_of_nonempty (hn : 1 ≤ savedWidth w) (hha : 1 ≤ savedHeight s.cfg h) :
    execSaveData x y w h addr s =
      if addr.toNat + savedWidth w * savedHeight s.cfg h > 65536 then raiseFault .eAddr addr.toNat s
      else if rangesMeet addr.toNat (savedWidth w * savedHeight s.cfg h) s.targetBase 1600 then
        .next ((s.setRam ((s.ram.freeRange s.draws addr.toNat (savedWidth w * savedHeight s.cfg h)).freeRange s.draws
          s.targetBase 1600)).countDraw)
      else .next (s.setRam (s.ram.storeBytes addr.toNat
        (savedBlock s.ram s.targetBase (s16 x) (s16 y) (savedWidth w) (savedHeight s.cfg h)))) := by
  have hw := mt savedWidth_eq_zero_iff.mpr (by omega : savedWidth w ≠ 0)
  have hh := mt savedHeight_eq_zero_iff.mpr (by omega : savedHeight s.cfg h ≠ 0)
  have hnonempty : ¬ (s16 w ≤ 0 ∨ s16 h ≤ 0) := by
    unfold s16
    omega
  rw [execSaveData, if_neg hnonempty, if_neg (by omega)]

theorem execSaveData_of_past (hn : 1 ≤ savedWidth w) (hha : 1 ≤ savedHeight s.cfg h)
    (hpast : 65536 < addr.toNat + savedWidth w * savedHeight s.cfg h) :
    execSaveData x y w h addr s = raiseFault .eAddr addr.toNat s := by
  rw [execSaveData_of_nonempty hn hha, if_pos hpast]

/-- A block inside RAM and apart from the target bitmap is stored. -/
theorem execSaveData_of_fits (hn : 1 ≤ savedWidth w) (hha : 1 ≤ savedHeight s.cfg h)
    (hfit : addr.toNat + savedWidth w * savedHeight s.cfg h ≤ 65536)
    (hapart : apart addr.toNat (savedWidth w * savedHeight s.cfg h) s.targetBase 1600) :
    execSaveData x y w h addr s = .next (s.setRam (s.ram.storeBytes addr.toNat
      (savedBlock s.ram s.targetBase (s16 x) (s16 y) (savedWidth w) (savedHeight s.cfg h)))) := by
  rw [execSaveData_of_nonempty hn hha, if_neg (by omega), rangesMeet_eq_false hapart]
  rfl

end

theorem Memory.sameOutside_storeSavedBlock {m : Memory} (hm : m.wf = true) (old : Memory) (B : Nat) (x y : Int)
    (a n ha : Nat) : SameOutside m (m.storeBytes a (savedBlock old B x y n ha)) a (n * ha) := by
  simpa using Memory.sameOutside_storeBytes hm a (savedBlock old B x y n ha)

/-- Byte `i` of row `r` lies inside a block of `ha` rows of `n` bytes. -/
theorem blockOffset_lt {n ha r i : Nat} (hr : r < ha) (hi : i < n) : r * n + i < n * ha := by
  have hrow : (r + 1) * n ≤ ha * n := Nat.mul_le_mul_right n hr
  rw [Nat.add_mul, Nat.one_mul, Nat.mul_comm ha] at hrow
  omega

/-- Byte `i` of row `r` of a stored block. -/
theorem Memory.byteAt_storeSavedBlock {m : Memory} (hm : m.wf = true) (old : Memory) (B : Nat) (x y : Int)
    {a n ha r i : Nat} (hfit : a + n * ha ≤ 65536) (hr : r < ha) (hi : i < n) :
    (m.storeBytes a (savedBlock old B x y n ha)).byteAt (a + r * n + i) = savedByte old B (x / 8 + i) (y + r) := by
  have hoffset := blockOffset_lt hr hi
  rw [savedBlock, Memory.byteAt_storeRange hm _ _ hfit, if_pos (by omega), Nat.add_assoc, Nat.add_sub_cancel_left,
    Nat.mul_comm r n, Nat.mul_add_mod_self_left, Nat.mod_eq_of_lt hi, Nat.mul_add_div (by omega), Nat.div_eq_of_lt hi,
    Nat.add_zero]

/-- Settles O31: the early ends are an empty width or an empty height. -/
theorem saveDataChecksComeFirst : Obligations.SaveDataChecksComeFirst := by
  refine ⟨fun _ _ _ _ _ => rfl, wrongLengthFaults rfl, fun x y w h addr s => ⟨fun hempty => ?_, fun htrunc hlow => ?_,
    fun hw hh htrunc hpast => ?_⟩⟩
  · exact execSaveData_of_empty (hempty.imp savedWidth_eq_zero_iff.mpr fun hh => savedHeight_eq_zero_iff.mpr (.inl hh))
  · exact execSaveData_of_empty (.inr (savedHeight_eq_zero_iff.mpr (.inr ⟨htrunc, hlow⟩)))
  · have hwidth : savedWidth w ≠ 0 := mt savedWidth_eq_zero_iff.mp (by omega)
    have hheight : savedHeight s.cfg h ≠ 0 := by
      rw [Ne, savedHeight_eq_zero_iff]
      rintro (hneg | ⟨ht, hlow⟩)
      · omega
      · exact absurd (htrunc ht) (by omega)
    rw [← savedWidth_eq (by omega), ← savedHeight_eq _ hh] at hpast
    rw [exec, execSaveData_of_past (by omega) (by omega) hpast, raiseFault_toNat]
    rfl

/-- Settles O32: the bytes of the stored block. -/
theorem saveDataCopiesTheRegion : Obligations.SaveDataCopiesTheRegion := by
  intro x y w h addr s n ha hs hn hha hw hh hwidth hheight hfit hapart
  have hm := hs.1
  rw [← savedWidth_eq hw] at hn
  rw [← savedHeight_eq _ hh] at hha
  subst hn hha
  refine ⟨_, execSaveData_of_fits hwidth hheight hfit hapart, ?_, fun r i hr hi => ?_⟩
  · exact Memory.sameOutside_storeSavedBlock hm s.ram s.targetBase _ _ _ _ _
  · exact Memory.byteAt_storeSavedBlock hm s.ram s.targetBase _ _ hfit hr hi

/-- A block that holds the saved bytes has the pixels they were read from (R123, R132). -/
theorem srcBit_of_saved {rd : Nat → Byte} {m : Memory} {B a n ha : Nat} {x y : Int}
    (hrd : ∀ r i : Nat, r < ha → i < n → rd (a + r * n + i) = savedByte m B (x / 8 + i) (y + r)) {px py : Nat}
    (hx : px < 160) (hy : py < 80) (hleft : 8 * (x / 8) ≤ px) (hright : px < 8 * (x / 8) + 8 * n) (htop : y ≤ py)
    (hbottom : py < y + ha) :
    srcBit rd a (8 * n) (py - y).toNat (px - 8 * (x / 8)).toNat = m.px B px py := by
  rw [srcBit, strideOf, show (8 * n + 7) / 8 = n by omega, hrd _ _ (by omega) (by omega), savedByte, if_pos (by omega),
    Memory.px_eq]
  congr 2 <;> omega

/-- What a `SAVEDATA` that stored its block left in it. -/
theorem byteAt_of_saveData {x y w h addr : Half} {s t : State} (hm : s.ram.wf = true) (hn : 1 ≤ savedWidth w)
    (hha : 1 ≤ savedHeight s.cfg h) (hfit : addr.toNat + savedWidth w * savedHeight s.cfg h ≤ 65536)
    (hapart : apart addr.toNat (savedWidth w * savedHeight s.cfg h) s.targetBase 1600)
    (hexec : execSaveData x y w h addr s = .next t) {r i : Nat} (hr : r < savedHeight s.cfg h) (hi : i < savedWidth w) :
    t.ram.byteAt (addr.toNat + r * savedWidth w + i) = savedByte s.ram s.targetBase (x.toInt / 8 + i) (y.toInt + r) := by
  rw [execSaveData_of_fits hn hha hfit hapart] at hexec
  cases hexec
  exact Memory.byteAt_storeSavedBlock hm _ _ _ _ hfit hr hi

/-- Settles O33: the block drawn back is the block saved, and its pixels are those of `s`. -/
theorem savedBlockDrawsBack : Obligations.SavedBlockDrawsBack := by
  intro x y w h addr s t u hs _ _ hn hha hfit hapart hexec hu hcfg htarget hblock
  have hbase : u.targetBase = s.targetBase := by rw [State.targetBase, htarget, hcfg, State.targetBase]
  have hsaved : ∀ r i : Nat, r < savedHeight s.cfg h → i < savedWidth w →
      u.ram.byteAt (addr.toNat + r * savedWidth w + i) =
        savedByte s.ram s.targetBase (x.toInt / 8 + i) (y.toInt + r) := by
    intro r i hr hi
    rw [← byteAt_of_saveData hs.1 hn hha hfit hapart hexec hr hi, Nat.add_assoc, hblock _ (blockOffset_lt hr hi)]
  have hxa : (BitVec.ofInt 16 (8 * (x.toInt / 8))).toInt = 8 * (x.toInt / 8) := by
    have hlo := x.le_toInt
    have hhi := x.toInt_lt
    exact BitVec.toInt_ofInt_eq_self (by decide) (by omega) (by omega)
  have hwidth := savedWidth_lt w
  have hheight := savedHeight_lt s.cfg h
  have haddr : (addr.setWidth 24).toNat = addr.toNat := BitVec.toNat_setWidth_of_le (by decide)
  have hsize : ((BitVec.ofNat 16 (8 * savedWidth w)).toNat + 7) / 8 * (BitVec.ofNat 16 (savedHeight s.cfg h)).toNat =
      savedWidth w * savedHeight s.cfg h := by
    rw [toNat_ofNat_half hwidth, toNat_ofNat_half hheight, show (8 * savedWidth w + 7) / 8 = savedWidth w by omega]
  obtain ⟨m', hdraw, -, hpx⟩ := drawDataBlitsTheBlock (BitVec.ofInt 16 (8 * (x.toInt / 8))) y
    (BitVec.ofNat 16 (8 * savedWidth w)) (BitVec.ofNat 16 (savedHeight s.cfg h)) (addr.setWidth 24) 0x01
    { mode := .copy, inv := false, space := .ram, hm := false } u hu rfl
    (by rw [toInt_ofNat_half hwidth]; omega) (by rw [toInt_ofNat_half hheight]; omega)
    (by rwa [hsize, haddr]) (fun _ => by rwa [hsize, haddr, hbase])
  refine ⟨m', hdraw, fun px py hx hy hleft hright htop hbottom => ?_⟩
  have hdrawn := hpx px py hx hy
  rw [hbase, hxa, toInt_ofNat_half hwidth, toInt_ofNat_half hheight, if_pos (by omega), haddr,
    toNat_ofNat_half hwidth] at hdrawn
  exact hdrawn.trans ((Bool.xor_false _).trans (srcBit_of_saved hsaved hx hy hleft hright htop hbottom))

/-! ### `RENDER` (R134) -/

/-- Settles O34: both commands store the bytes loaded from the buffer. -/
theorem renderCopiesBufferToGraphics : Obligations.RenderCopiesBufferToGraphics := by
  refine ⟨rfl, wrongLengthFaults rfl, fun s hs => ?_⟩
  obtain ⟨hm, hgraph, hbuf, -⟩ := hs
  refine ⟨_, rfl, fun i hi => ?_, Memory.sameOutside_storeLoad hm _ _ _, ?_⟩
  · rw [Memory.byteAt_storeLoad hm _ hgraph, if_pos (by omega), Nat.add_sub_cancel_left]
  · have hgraph16 : (BitVec.ofNat 16 s.cfg.graphBase).toNat = s.cfg.graphBase := Nat.mod_eq_of_lt (by omega)
    have hbuf16 : (BitVec.ofNat 16 s.cfg.bufBase).toNat = s.cfg.bufBase := Nat.mod_eq_of_lt (by omega)
    have hcopy := s.ram.copy_of_fits (dest := s.cfg.graphBase) (src := s.cfg.bufBase) (count := 1600) (by decide) hbuf hgraph
    show execMemCopy _ _ _ s = _
    rw [execMemCopy, hgraph16, hbuf16, show (1600 : Half).toNat = 1600 from rfl, hcopy]
    rfl

end Sys2Proof.Machine
end

/-! # Shapes (spec 42_shapes.md)

Each shape command either refuses its operands or is one `plotOnTarget`; `plotsOnTarget_of_exec` says what that leaves. What
remains of a command is that its test of a point decides its pixel set. Lines go through `majorPts`, the points of R153 by
their major coordinate, for both orientations at once; ovals through `OvalRun`, a run of quadrant points from `(x, y)` down to
`qy = 0`. -/

section
namespace Sys2Proof.Machine

/-! ### The mode byte (R87, R150) -/

theorem DrawMode.ofByte_of_lt {sm : Byte} (h : sm.toNat % 4 < 3) :
    DrawMode.ofByte sm = some ([.clear, .normal, .invert].getD (sm.toNat % 4) .clear) := by
  unfold DrawMode.ofByte
  generalize sm.toNat % 4 = mode at h ⊢
  match mode with
  | 0 | 1 | 2 => rfl
  | mode + 3 => omega

theorem readPlainMode_of_lt {sm : Byte} (h : sm.toNat < 3) :
    readPlainMode sm = some ([.clear, .normal, .invert].getD sm.toNat .clear) := by
  rw [readPlainMode, if_pos (by omega), DrawMode.ofByte_of_lt (by omega), Nat.mod_eq_of_lt (by omega)]

theorem readFillMode_of_lt {sm : Byte} (hmode : sm.toNat % 4 < 3) (hbits : sm.toNat < 8) :
    readFillMode sm = some ([.clear, .normal, .invert].getD (sm.toNat % 4) .clear, sm.getLsbD 2) := by
  rw [readFillMode, if_pos (by omega), DrawMode.ofByte_of_lt hmode]
  rfl

theorem readPlainMode_of_ge {sm : Byte} (h : 3 ≤ sm.toNat) : readPlainMode sm = none :=
  readPlainMode_eq_none.mpr (decide_eq_false (by omega))

theorem readFillMode_of_reserved {sm : Byte} (h : sm.toNat % 4 = 3 ∨ 8 ≤ sm.toNat) : readFillMode sm = none :=
  readFillMode_eq_none.mpr (decide_eq_false (by omega))

/-! ### The shape commands, once their mode byte has been read -/

theorem exec_drawPoint_of_mode {x y : Half} {sm : Byte} {dm : DrawMode} (h : readPlainMode sm = some dm) (s : State) :
    exec (.drawPoint x y sm) s = plotOnTarget s (Box.corners x.toInt y.toInt x.toInt y.toInt)
      (fun px py => decide (px = x.toInt ∧ py = y.toInt)) dm := by
  rw [exec, execDrawPoint, h]
  rfl

theorem exec_drawLine_of_mode {x0 y0 x1 y1 : Half} {sm : Byte} {dm : DrawMode} (h : readPlainMode sm = some dm) (s : State) :
    exec (.drawLine x0 y0 x1 y1 sm) s = plotOnTarget s (Box.corners x0.toInt y0.toInt x1.toInt y1.toInt)
      (onLine x0.toInt y0.toInt x1.toInt y1.toInt) dm := by
  rw [exec, execDrawLine, h]
  rfl

theorem exec_drawRect_of_mode {x0 y0 x1 y1 : Half} {sm : Byte} {dm : DrawMode} {fill : Bool}
    (h : readFillMode sm = some (dm, fill)) (s : State) :
    exec (.drawRect x0 y0 x1 y1 sm) s = plotOnTarget s (Box.corners x0.toInt y0.toInt x1.toInt y1.toInt)
      (inRect x0.toInt y0.toInt x1.toInt y1.toInt fill) dm := by
  rw [exec, execDrawRect, h]
  rfl

/-- A radius that is not negative is the unsigned number of its bits. -/
theorem toNat_s16_of_nonneg {v : Half} (h : 0 ≤ v.toInt) : (s16 v).toNat = v.toNat := by
  obtain hzero | hpos := h.eq_or_lt
  · have hv : v = 0 := BitVec.eq_of_toInt_eq hzero.symm
    rw [hv]
    rfl
  · exact toNat_s16 hpos

theorem exec_drawOval_of_mode {cx cy rx ry : Half} {sm : Byte} {dm : DrawMode} {fill : Bool}
    (h : readFillMode sm = some (dm, fill)) (hrx : 0 ≤ rx.toInt) (hry : 0 ≤ ry.toInt) (s : State) :
    exec (.drawOval cx cy rx ry sm) s = plotOnTarget s (ovalRows cy.toInt ry.toNat)
      (inOval (ovalQuad rx.toNat ry.toNat) cx.toInt cy.toInt fill) dm := by
  rw [← toNat_s16_of_nonneg hrx, ← toNat_s16_of_nonneg hry, exec, execDrawOval, h]
  exact (if_neg (not_lt.mpr hrx)).trans (if_neg (not_lt.mpr hry))

/-! ### Plotting a set of points (R151) -/

/-- A command that plots the points of `box` with `inS` plots the set `S`, if those are its visible points. -/
theorem plotsOnTarget_of_exec {i : Instr} {s : State} {dm : DrawMode} {S : Int → Int → Prop} {box : Box}
    {inS : Int → Int → Bool} (hs : s.Sound) (h : exec i s = plotOnTarget s box inS dm)
    (hS : ∀ px py : Nat, px < 160 → py < 80 → ((box.has px py && inS px py) = true ↔ S px py)) :
    PlotsOnTarget i s dm S := by
  obtain ⟨hm, hc⟩ := hs
  refine ⟨_, h, fun _ => Memory.byteAt_plotSet_outside hm _ _ _ _, fun px py hx hy => ?_⟩
  rw [Memory.px_plotSet hm (State.targetBase_fits hc) _ _ _ hx hy]
  exact ⟨fun hin => if_pos ((hS px py hx hy).mpr hin), fun hout => if_neg (mt (hS px py hx hy).mp hout)⟩

theorem Box.has_iff {b : Box} {px py : Int} :
    b.has px py = true ↔ (b.left ≤ px ∧ px < b.right) ∧ (b.top ≤ py ∧ py < b.bottom) := by
  simp only [Box.has, Bool.and_eq_true, decide_eq_true_eq, and_assoc]

theorem Box.has_corners_iff {x0 y0 x1 y1 px py : Int} :
    (Box.corners x0 y0 x1 y1).has px py = true ↔
      (min x0 x1 ≤ px ∧ px ≤ max x0 x1) ∧ (min y0 y1 ≤ py ∧ py ≤ max y0 y1) := by
  rw [Box.has_iff, Box.corners]
  dsimp only
  omega

/-! ### `DRAWPOINT` (R152) -/

/-- Settles O36: the one point of the set is its own bounding box. -/
theorem drawPointPlotsOnePoint : Obligations.DrawPointPlotsOnePoint := by
  refine ⟨fun _ _ _ => rfl, wrongLengthFaults rfl, fun x y sm s => ⟨fun hreserved => ?_, ?_⟩⟩
  · rw [exec, execDrawPoint, readPlainMode_of_ge hreserved]
    exact raiseFault_toNat _ _ _
  · rintro dm hs hsm rfl
    refine plotsOnTarget_of_exec hs (exec_drawPoint_of_mode (readPlainMode_of_lt hsm) s) fun px py _ _ => ?_
    rw [Bool.and_eq_true, Box.has_corners_iff, decide_eq_true_eq]
    omega

/-! ### Lines (R153, R154) -/

/-- The point of a line after `i` steps of the major coordinate, which stands first. -/
def majorPoint (dmaj dmin sa sb a b : Int) (i : Nat) : Int × Int := (a + sa * i, b + sb * minorStep dmaj dmin i)

/-- The points of a line by their major coordinate, which stands first in each pair. -/
def majorPts (dmaj dmin : Nat) (sa sb a b : Int) : List (Int × Int) :=
  (List.range (dmaj + 1)).map (majorPoint dmaj dmin sa sb a b)

/-- Both orientations of `LinePts`; the single point is the x-major line of no step. -/
theorem linePts_eq (x0 y0 x1 y1 : Int) :
    linePts x0 y0 x1 y1 =
      if (y1 - y0).natAbs ≤ (x1 - x0).natAbs then
        majorPts (x1 - x0).natAbs (y1 - y0).natAbs (x1 - x0).sign (y1 - y0).sign x0 y0
      else (majorPts (y1 - y0).natAbs (x1 - x0).natAbs (y1 - y0).sign (x1 - x0).sign y0 x0).map Prod.swap := by
  unfold linePts
  dsimp only
  split
  · rename_i hpoint
    rw [if_pos (by omega), hpoint.1, hpoint.2, Int.natAbs_eq_zero.mp hpoint.2]
    simp [majorPts, majorPoint, minorStep]
  · simp only [bind_pure_comp, List.map_eq_map, List.map_map, majorPts]
    rfl

section
variable {dmaj dmin : Nat} {i : Int}

@[simp] theorem minorStep_zero (dmaj : Nat) (dmin : Int) : minorStep dmaj dmin 0 = 0 := by
  rw [minorStep, mul_zero, zero_mul, zero_add]
  obtain rfl | hpos := Nat.eq_zero_or_pos dmaj
  · rfl
  · exact Int.ediv_eq_zero_of_lt (by omega) (by omega)

/-- After all its steps the minor coordinate has moved by `dmin`. -/
theorem minorStep_self (hpos : 0 < dmaj) : minorStep dmaj dmin dmaj = dmin := by
  rw [minorStep, show (2 * dmaj * dmin + dmaj : Int) = dmaj + dmin * (2 * dmaj) by ring,
    Int.add_mul_ediv_right _ _ (by omega), Int.ediv_eq_zero_of_lt (by omega) (by omega), zero_add]

theorem minorStep_mono (hpos : 0 < dmaj) (dmin : Nat) {j : Int} (hij : i ≤ j) :
    minorStep dmaj dmin i ≤ minorStep dmaj dmin j := by
  have hprod : i * dmin ≤ j * dmin := Int.mul_le_mul_of_nonneg_right hij (by omega)
  unfold minorStep
  rw [Int.mul_assoc, Int.mul_assoc]
  exact Int.ediv_le_ediv (by omega) (by omega)

theorem minorStep_nonneg (hpos : 0 < dmaj) (hi : 0 ≤ i) : 0 ≤ minorStep dmaj dmin i :=
  (minorStep_zero dmaj dmin).ge.trans (minorStep_mono hpos dmin hi)

theorem minorStep_le (hpos : 0 < dmaj) (hi : i ≤ dmaj) : minorStep dmaj dmin i ≤ dmin :=
  (minorStep_mono hpos dmin hi).trans (minorStep_self hpos).le

end

/-! #### The incremental form -/

/-- The error term of the incremental form at step `i`: how far the numerator of `minorStep` at `i + 1` reaches past the value
at which the minor coordinate stands one further than at `i` (R153). -/
def lineError (dmaj dmin i : Int) : Int := 2 * (i + 1) * dmin - dmaj - 2 * dmaj * minorStep dmaj dmin i

/-- The minor coordinate moves, by one, exactly where the error term is not negative. -/
theorem minorStep_succ {dmaj dmin : Nat} (hpos : 0 < dmaj) (hle : dmin ≤ dmaj) (i : Int) :
    minorStep dmaj dmin (i + 1) = minorStep dmaj dmin i + if 0 ≤ lineError dmaj dmin i then 1 else 0 := by
  have hsplit := Int.mul_ediv_add_emod (2 * i * dmin + dmaj) (2 * dmaj)
  have hlow := Int.emod_nonneg (2 * i * dmin + dmaj) (show (2 * dmaj : Int) ≠ 0 by omega)
  have hhigh := Int.emod_lt_of_pos (2 * i * dmin + dmaj) (show (0 : Int) < 2 * dmaj by omega)
  have herror : lineError dmaj dmin i = (2 * i * dmin + dmaj) % (2 * dmaj) + 2 * dmin - 2 * dmaj := by
    unfold lineError minorStep
    linarith
  have hnext : 2 * (i + 1) * dmin + dmaj =
      (lineError dmaj dmin i + 2 * dmaj) + minorStep dmaj dmin i * (2 * dmaj) := by
    unfold lineError
    ring
  rw [minorStep, hnext, Int.add_mul_ediv_right _ _ (by omega), add_comm]
  congr 1
  split
  · rw [Int.ediv_eq_iff_of_pos (by omega)]
    omega
  · exact Int.ediv_eq_zero_of_lt (by omega) (by omega)

theorem lineError_succ {dmaj dmin : Nat} (hpos : 0 < dmaj) (hle : dmin ≤ dmaj) (i : Int) :
    lineError dmaj dmin (i + 1) =
      if 0 ≤ lineError dmaj dmin i then lineError dmaj dmin i - 2 * dmaj + 2 * dmin
      else lineError dmaj dmin i + 2 * dmin := by
  have hstep := minorStep_succ hpos hle i
  by_cases he : 0 ≤ lineError dmaj dmin i
  · rw [if_pos he] at hstep ⊢
    rw [lineError, hstep, lineError]
    ring
  · rw [if_neg he] at hstep ⊢
    rw [lineError, hstep, lineError]
    ring

/-- The walk from step `i` on, its error term being the one of step `i`. -/
theorem bresenhamWalk_eq {dmaj dmin : Nat} (hpos : 0 < dmaj) (hle : dmin ≤ dmaj) (sa sb a b : Int) (n i : Nat) :
    bresenhamWalk dmaj dmin sa sb n (lineError dmaj dmin i) (a + sa * i) (b + sb * minorStep dmaj dmin i) =
      (List.range' i n).map (majorPoint dmaj dmin sa sb a b) := by
  induction n generalizing i with
  | zero => rfl
  | succ n ih =>
    have hrest := ih (i + 1)
    rw [Nat.cast_add_one, lineError_succ hpos hle, minorStep_succ hpos hle] at hrest
    rw [List.range'_succ, List.map_cons, ← hrest, bresenhamWalk]
    by_cases he : 0 ≤ lineError dmaj dmin i
    · rw [if_pos he, if_pos he, if_pos he, mul_add, mul_add, mul_one, mul_one, ← add_assoc, ← add_assoc]
      rfl
    · rw [if_neg he, if_neg he, if_neg he, add_zero, mul_add, mul_one, ← add_assoc]
      rfl

theorem bresenhamWalk_eq_majorPts {dmaj dmin : Nat} (hle : dmin ≤ dmaj) (sa sb a b : Int) :
    bresenhamWalk dmaj dmin sa sb (dmaj + 1) (2 * dmin - dmaj) a b = majorPts dmaj dmin sa sb a b := by
  obtain rfl | hpos := Nat.eq_zero_or_pos dmaj
  · simp [bresenhamWalk, majorPts, majorPoint, minorStep]
  · have hwalk := bresenhamWalk_eq hpos hle sa sb a b (dmaj + 1) 0
    rw [← List.range_eq_range'] at hwalk
    simpa [lineError, majorPts] using hwalk

theorem bresenhamPts_eq_linePts (x0 y0 x1 y1 : Int) : bresenhamPts x0 y0 x1 y1 = linePts x0 y0 x1 y1 := by
  rw [linePts_eq]
  by_cases hmajor : (y1 - y0).natAbs ≤ (x1 - x0).natAbs
  · rw [if_pos hmajor]
    exact (if_pos hmajor).trans (bresenhamWalk_eq_majorPts hmajor _ _ _ _)
  · rw [if_neg hmajor, ← bresenhamWalk_eq_majorPts (by omega)]
    exact if_neg hmajor

/-! #### Length and end points -/

@[simp] theorem length_majorPts (dmaj dmin : Nat) (sa sb a b : Int) : (majorPts dmaj dmin sa sb a b).length = dmaj + 1 := by
  simp [majorPts]

@[simp] theorem head?_majorPts (dmaj dmin : Nat) (sa sb a b : Int) :
    (majorPts dmaj dmin sa sb a b).head? = some (a, b) := by
  simp [majorPts, majorPoint, List.range_succ_eq_map]

theorem getLast?_majorPts {dmaj dmin : Nat} (hle : dmin ≤ dmaj) (sa sb a b : Int) :
    (majorPts dmaj dmin sa sb a b).getLast? = some (a + sa * dmaj, b + sb * dmin) := by
  have hlast : minorStep dmaj dmin dmaj = dmin := by
    obtain rfl | hpos := Nat.eq_zero_or_pos dmaj
    · simp [Nat.le_zero.mp hle, minorStep]
    · exact minorStep_self hpos
  simp [majorPts, majorPoint, List.range_succ, hlast]

/-- The whole way from one number to another, in the direction of its sign. -/
theorem add_sign_mul_natAbs_sub (v w : Int) : v + (w - v).sign * (w - v).natAbs = w := by
  rw [Int.sign_mul_natAbs]
  omega

/-- Settles O38: the walk keeps `lineError`, and the closed form starts and ends at the end points. -/
theorem incrementalLineIsTheClosedForm : Obligations.IncrementalLineIsTheClosedForm := by
  intro x0 y0 x1 y1
  refine ⟨bresenhamPts_eq_linePts x0 y0 x1 y1, ?_⟩
  rw [linePts_eq]
  split
  · rename_i hmajor
    rw [length_majorPts, head?_majorPts, getLast?_majorPts hmajor, add_sign_mul_natAbs_sub, add_sign_mul_natAbs_sub]
    exact ⟨by omega, rfl, rfl⟩
  · rename_i hmajor
    rw [List.length_map, List.head?_map, List.getLast?_map, length_majorPts, head?_majorPts, getLast?_majorPts (by omega),
      add_sign_mul_natAbs_sub, add_sign_mul_natAbs_sub]
    exact ⟨by omega, rfl, rfl⟩

/-! #### The test of a point -/

/-- A point lies on the line exactly where the step that reaches its major coordinate reaches it. -/
theorem mem_majorPts_iff {dmaj dmin : Nat} {sa sb a b p q : Int} (hsa : sa * sa = 1) :
    (p, q) ∈ majorPts dmaj dmin sa sb a b ↔
      0 ≤ sa * (p - a) ∧ sa * (p - a) ≤ dmaj ∧ q = b + sb * minorStep dmaj dmin (sa * (p - a)) := by
  simp only [majorPts, majorPoint, List.mem_map, List.mem_range, Prod.mk.injEq]
  constructor
  · rintro ⟨i, hi, rfl, rfl⟩
    have hstep : sa * (a + sa * i - a) = i := by
      rw [add_sub_cancel_left, ← mul_assoc, hsa, one_mul]
    rw [hstep]
    omega
  · rintro ⟨hlow, hhigh, rfl⟩
    obtain ⟨i, hi⟩ := Int.eq_ofNat_of_zero_le hlow
    refine ⟨i, by omega, ?_, by rw [hi]⟩
    rw [← hi, ← mul_assoc, hsa, one_mul]
    omega

theorem sign_mul_sign_of_ne_zero {v : Int} (h : v.natAbs ≠ 0) : v.sign * v.sign = 1 := by
  rw [← Int.sign_mul, Int.sign_eq_one_iff_pos]
  exact mul_self_pos.mpr (Int.natAbs_ne_zero.mp h)

theorem onLine_iff_mem_linePts {x0 y0 x1 y1 px py : Int} :
    onLine x0 y0 x1 y1 px py = true ↔ (px, py) ∈ linePts x0 y0 x1 y1 := by
  by_cases hpoint : (x1 - x0).natAbs = 0 ∧ (y1 - y0).natAbs = 0
  · simp only [onLine, linePts, if_pos hpoint, decide_eq_true_eq, List.mem_singleton, Prod.mk.injEq]
  · rw [linePts_eq, onLine]
    dsimp only
    rw [if_neg hpoint]
    split
    · rw [decide_eq_true_eq, mem_majorPts_iff (sign_mul_sign_of_ne_zero (by omega))]
    · rw [decide_eq_true_eq, List.mem_map_swap, mem_majorPts_iff (sign_mul_sign_of_ne_zero (by omega))]

/-- Part of the way from `v` to `w` lies between them. -/
theorem between_of_steps {v w k : Int} (hlow : 0 ≤ k) (hhigh : k ≤ (w - v).natAbs) :
    min v w ≤ v + (w - v).sign * k ∧ v + (w - v).sign * k ≤ max v w := by
  rcases lt_trichotomy (w - v) 0 with h | h | h
  · rw [Int.sign_eq_neg_one_of_neg h]
    omega
  · rw [h, Int.sign_zero]
    omega
  · rw [Int.sign_eq_one_of_pos h]
    omega

/-- The points of a line lie in the rectangle of its end points. -/
theorem between_of_mem_majorPts {a b a' b' p q : Int}
    (h : (p, q) ∈ majorPts (a' - a).natAbs (b' - b).natAbs (a' - a).sign (b' - b).sign a b) :
    (min a a' ≤ p ∧ p ≤ max a a') ∧ (min b b' ≤ q ∧ q ≤ max b b') := by
  simp only [majorPts, majorPoint, List.mem_map, List.mem_range, Prod.mk.injEq] at h
  obtain ⟨i, hi, rfl, rfl⟩ := h
  refine ⟨between_of_steps (by omega) (by omega), ?_⟩
  obtain hzero | hpos := Nat.eq_zero_or_pos (a' - a).natAbs
  · have hi0 : i = 0 := by omega
    rw [hi0, Nat.cast_zero, minorStep_zero]
    exact between_of_steps le_rfl (by omega)
  · exact between_of_steps (minorStep_nonneg hpos (by omega)) (minorStep_le hpos (by omega))

theorem has_corners_of_mem_linePts {x0 y0 x1 y1 px py : Int} (h : (px, py) ∈ linePts x0 y0 x1 y1) :
    (Box.corners x0 y0 x1 y1).has px py = true := by
  rw [Box.has_corners_iff]
  rw [linePts_eq] at h
  split at h
  · exact between_of_mem_majorPts h
  · exact (between_of_mem_majorPts ((List.mem_map_swap py px _).mp h)).symm

/-- Settles O37: the test of `exec` decides the points of `LinePts`, and all of them lie in its rectangle. -/
theorem drawLinePlotsTheLine : Obligations.DrawLinePlotsTheLine := by
  refine ⟨fun _ _ _ _ _ => rfl, wrongLengthFaults rfl, fun x0 y0 x1 y1 sm s => ⟨fun hreserved => ?_, ?_⟩⟩
  · rw [exec, execDrawLine, readPlainMode_of_ge hreserved]
    exact raiseFault_toNat _ _ _
  · rintro dm hs hsm rfl
    refine plotsOnTarget_of_exec hs (exec_drawLine_of_mode (readPlainMode_of_lt hsm) s) fun px py _ _ => ?_
    rw [Bool.and_eq_true, onLine_iff_mem_linePts]
    exact and_iff_right_of_imp has_corners_of_mem_linePts

/-! ### Rectangles (R155, R156) -/

theorem inRect_iff {x0 y0 x1 y1 px py : Int} {fill : Bool} :
    inRect x0 y0 x1 y1 fill px py = true ↔ RectSet x0 y0 x1 y1 fill px py := by
  simp only [inRect, RectSet, Bool.and_eq_true, Bool.or_eq_true, decide_eq_true_eq]

/-- Settles O39: the rectangle's points lie between its corners, outline or filled. -/
theorem drawRectPlotsTheRectangle : Obligations.DrawRectPlotsTheRectangle := by
  refine ⟨fun _ _ _ _ _ => rfl, wrongLengthFaults rfl, fun x0 y0 x1 y1 sm s => ⟨fun hreserved => ?_, ?_⟩⟩
  · rw [exec, execDrawRect, readFillMode_of_reserved hreserved]
    exact raiseFault_toNat _ _ _
  · rintro dm hs hmode hbits rfl
    refine plotsOnTarget_of_exec hs (exec_drawRect_of_mode (readFillMode_of_lt hmode hbits) s) fun px py _ _ => ?_
    rw [Bool.and_eq_true, inRect_iff, Box.has_corners_iff]
    refine and_iff_right_of_imp fun hin => ?_
    obtain ⟨⟨hleft, hright, htop, hbottom⟩, -⟩ := hin
    exact ⟨⟨hleft, hright⟩, htop, hbottom⟩

/-! ### Quadrant points of an oval (R157) -/

/-- One quadrant point to the next: `qx` grows by 0 or 1 and `qy` falls by 0 or 1. -/
def OvalStep (p q : Nat × Nat) : Prop := p.1 ≤ q.1 ∧ q.1 ≤ p.1 + 1 ∧ q.2 ≤ p.2 ∧ p.2 ≤ q.2 + 1

/-- A run of quadrant points by single steps, from `(x, y)` down to `qy = 0`. -/
structure OvalRun (x y : Nat) (Q : List (Nat × Nat)) : Prop where
  head : Q.head? = some (x, y)
  last : ∃ x', Q.getLast? = some (x', 0)
  chain : Q.IsChain OvalStep
  below : ∀ q ∈ Q, q.2 ≤ y

theorem OvalRun.single (x : Nat) : OvalRun x 0 [(x, 0)] := ⟨rfl, ⟨x, rfl⟩, .singleton _, by simp⟩

theorem OvalRun.cons {x y x' y' : Nat} {Q : List (Nat × Nat)} (h : OvalRun x' y' Q) (hstep : OvalStep (x, y) (x', y')) :
    OvalRun x y ((x, y) :: Q) := by
  obtain ⟨hhead, ⟨z, hlast⟩, hchain, hbelow⟩ := h
  have hfall : y' ≤ y := by
    obtain ⟨-, -, hfall, -⟩ := hstep
    exact hfall
  refine ⟨rfl, ⟨z, ?_⟩, List.isChain_cons.mpr ⟨fun q hq => ?_, hchain⟩,
    List.forall_mem_cons.mpr ⟨le_rfl, fun q hq => (hbelow q hq).trans hfall⟩⟩
  · rw [List.getLast?_cons, hlast]
    rfl
  · rw [hhead] at hq
    cases hq
    exact hstep

theorem ovalRun_ovalPass2 (a2 b2 : Int) (y x : Nat) (d : Int) : OvalRun x y (ovalPass2 a2 b2 y x d) := by
  induction y generalizing x d with
  | zero => exact .single x
  | succ y ih =>
    rw [ovalPass2]
    split
    · exact (ih x _).cons (by simp [OvalStep])
    · exact (ih (x + 1) _).cons (by simp [OvalStep])

theorem ovalRun_ovalPass1 (a2 b2 : Int) (n x y : Nat) (d : Int) : OvalRun x y (ovalPass1 a2 b2 n x y d) := by
  induction n generalizing x y d with
  | zero => exact ovalRun_ovalPass2 a2 b2 y x _
  | succ n ih =>
    rw [ovalPass1]
    split
    · split
      · exact (ih (x + 1) y _).cons (by simp [OvalStep])
      · exact (ih (x + 1) (y - 1) _).cons (by simp only [OvalStep]; omega)
    · exact ovalRun_ovalPass2 a2 b2 y x _

/-- The quadrant of the oval without width: straight down. -/
theorem ovalRun_vertical (b : Nat) : OvalRun 0 b ((List.range (b + 1)).map fun i => (0, b - i)) := by
  induction b with
  | zero => exact .single 0
  | succ b ih =>
    rw [List.range_succ_eq_map, List.map_cons, List.map_map]
    simpa [Function.comp_def] using ih.cons (x := 0) (y := b + 1) (by simp [OvalStep])

/-- A run on the axis `qy = 0`. -/
theorem ovalRun_horizontal (x a : Nat) : OvalRun x 0 ((List.range' x (a + 1)).map fun i => (i, 0)) := by
  induction a generalizing x with
  | zero => exact .single x
  | succ a ih => exact (ih (x + 1)).cons (by simp [OvalStep])

theorem ovalRun_ovalQuad (a b : Nat) : OvalRun 0 b (ovalQuad a b) := by
  unfold ovalQuad
  split
  · exact ovalRun_vertical b
  · split
    · rename_i hb
      rw [hb, List.range_eq_range']
      exact ovalRun_horizontal 0 a
    · exact ovalRun_ovalPass1 _ _ _ _ _ _

/-- Pass 1 ends by its own test before `x` comes to `a * a`. -/
theorem pass1_test_fails {a b x y : Nat} (hb : 1 ≤ b) (hx : a * a ≤ x) (hy : y ≤ b) :
    ¬ (b * b : Int) * x < (a * a : Int) * y := by
  have hbound : a * a * y ≤ b * b * x := calc
    a * a * y ≤ x * b := Nat.mul_le_mul hx hy
    _ ≤ x * (b * b) := Nat.mul_le_mul_left x (Nat.le_mul_of_pos_left b hb)
    _ = b * b * x := Nat.mul_comm _ _
  exact_mod_cast not_lt.mpr hbound

/-- A step more than pass 1 needs changes nothing. -/
theorem ovalPass1_succ {a b n x y : Nat} (hb : 1 ≤ b) (hn : a * a ≤ n + x) (hy : y ≤ b) (d : Int) :
    ovalPass1 (a * a) (b * b) (n + 1) x y d = ovalPass1 (a * a) (b * b) n x y d := by
  induction n generalizing x y d with
  | zero =>
    exact if_neg (pass1_test_fails hb (by omega) hy)
  | succ n ih =>
    rw [ovalPass1, ih (by omega) hy, ih (by omega) (by omega)]
    rfl

/-- Settles O41: a quadrant is a run from `(0, b)`, and the steps allowed to pass 1 are enough. -/
theorem ovalQuadrantPointsDescend : Obligations.OvalQuadrantPointsDescend := by
  intro a b
  obtain ⟨hhead, hlast, hchain, -⟩ := ovalRun_ovalQuad a b
  refine ⟨hhead, hlast, hchain, fun ha hb n hn => ?_⟩
  rw [ovalQuad, if_neg (by omega), if_neg (by omega)]
  induction n, hn using Nat.le_induction with
  | base => rfl
  | succ n hn ih => exact (ovalPass1_succ hb (by omega) le_rfl _).trans ih

/-! ### Ovals (R158, R159) -/

theorem inOval_iff {cx cy px py : Int} {a b : Nat} {fill : Bool} :
    inOval (ovalQuad a b) cx cy fill px py = true ↔ OvalSet cx cy a b fill px py := by
  simp only [inOval, OvalSet, List.any_eq_true, Bool.and_eq_true, decide_eq_true_eq]
  refine exists_congr fun q => and_congr_right fun _ => and_congr_right fun _ => ?_
  cases fill with
  | false => simp
  | true =>
    simp only [↓reduceIte, decide_eq_true_eq]
    exact ⟨fun h => ⟨px - cx, by omega, by omega, by omega⟩, fun ⟨t, _, _, _⟩ => by omega⟩

theorem has_ovalRows_of_ovalSet {cx cy : Int} {a b px py : Nat} {fill : Bool} (hx : px < 160)
    (h : OvalSet cx cy a b fill px py) : (ovalRows cy b).has px py = true := by
  obtain ⟨q, hq, hrow, -⟩ := h
  have hle := (ovalRun_ovalQuad a b).below q hq
  rw [Box.has_iff, ovalRows]
  dsimp only
  omega

/-- Settles O40: the checks in their order; then the rows of the box hold every row of the quadrant points. -/
theorem drawOvalPlotsTheOval : Obligations.DrawOvalPlotsTheOval := by
  refine ⟨fun _ _ _ _ _ => rfl, wrongLengthFaults rfl, fun cx cy rx ry sm s => ⟨fun hreserved => ?_,
    fun hmode hbits => ⟨fun hrx => ?_, fun hrx hry => ?_, ?_⟩⟩⟩
  · rw [exec, execDrawOval, readFillMode_of_reserved hreserved]
    exact raiseFault_toNat _ _ _
  · rw [exec, execDrawOval, readFillMode_of_lt hmode hbits]
    exact (if_pos hrx).trans (raiseFault_toNat _ _ _)
  · rw [exec, execDrawOval, readFillMode_of_lt hmode hbits]
    exact (if_neg (not_lt.mpr hrx)).trans ((if_pos hry).trans (raiseFault_toNat _ _ _))
  · rintro dm hs hrx hry rfl
    refine plotsOnTarget_of_exec hs (exec_drawOval_of_mode (readFillMode_of_lt hmode hbits) hrx hry s) fun px py hx _ => ?_
    rw [Bool.and_eq_true, inOval_iff]
    exact and_iff_right_of_imp (has_ovalRows_of_ovalSet hx)

/-! ### Invert (R151) -/

/-- A shape command in Invert mode plots one set, the same in every state. -/
theorem exists_plot_of_invertShape {i : Instr} (h : invertShape i = true) :
    ∃ box inS, ∀ s, exec i s = plotOnTarget s box inS .invert := by
  have hfill : ∀ {sm : Byte}, sm = 2 ∨ sm = 6 → ∃ fill, readFillMode sm = some (.invert, fill) := by
    rintro sm (rfl | rfl)
    · exact ⟨false, rfl⟩
    · exact ⟨true, rfl⟩
  cases i with
  | drawPoint x y sm =>
    obtain rfl := of_decide_eq_true h
    exact ⟨_, _, exec_drawPoint_of_mode rfl⟩
  | drawLine x0 y0 x1 y1 sm =>
    obtain rfl := of_decide_eq_true h
    exact ⟨_, _, exec_drawLine_of_mode rfl⟩
  | drawRect x0 y0 x1 y1 sm =>
    obtain ⟨fill, hmode⟩ := hfill (of_decide_eq_true h)
    exact ⟨_, _, exec_drawRect_of_mode hmode⟩
  | drawOval cx cy rx ry sm =>
    simp only [invertShape, Bool.and_eq_true] at h
    obtain ⟨⟨hsm, hrx⟩, hry⟩ := h
    obtain ⟨fill, hmode⟩ := hfill (of_decide_eq_true hsm)
    exact ⟨_, _, exec_drawOval_of_mode hmode (of_decide_eq_true hrx) (of_decide_eq_true hry)⟩
  | _ => cases h

theorem Memory.plotSet_invert_twice {m : Memory} (hm : m.wf = true) {B : Nat} (hB : B + 1600 ≤ 65536) (box : Box)
    (inS : Int → Int → Bool) : (m.plotSet B box inS .invert).plotSet B box inS .invert = m := by
  have hm' := Memory.wf_plotSet hm B box inS .invert
  refine Memory.ext_bitmap (Memory.wf_plotSet hm' B box inS .invert) hm (B := B) (fun a ha => ?_) fun px py hx hy => ?_
  · rw [Memory.byteAt_plotSet_outside hm' _ _ _ _ ha, Memory.byteAt_plotSet_outside hm _ _ _ _ ha]
  · rw [Memory.px_plotSet hm' hB _ _ _ hx hy, Memory.px_plotSet hm hB _ _ _ hx hy]
    split
    · exact Bool.not_not _
    · rfl

/-- Settles O42: the second drawing plots the same set, and a pixel inverted twice is as it was. -/
theorem invertShapeTwiceRestores : Obligations.InvertShapeTwiceRestores := by
  intro i s t ⟨hm, hc⟩ hi h
  obtain ⟨box, inS, hexec⟩ := exists_plot_of_invertShape hi
  rw [hexec] at h
  cases h
  rw [hexec, plotOnTarget, State.targetBase_setRam, State.setRam_ram, State.setRam_setRam,
    Memory.plotSet_invert_twice hm (State.targetBase_fits hc), State.setRam_self]

/-! ### `TESTPOINT` (R160) -/

/-- Settles O43: the bounds and the pixel of `testedPixel`, taken apart. -/
theorem testPointReadsGraphics : Obligations.TestPointReadsGraphics := by
  refine ⟨fun _ _ => rfl, wrongLengthFaults rfl, fun x y s => ?_⟩
  rw [exec, execTestPoint, testedPixel, s16, s16]
  by_cases hin : 0 ≤ x.toInt ∧ x.toInt < 160 ∧ 0 ≤ y.toInt ∧ y.toInt < 80
  · rw [decide_eq_true hin, Bool.true_and, if_pos hin]
    rfl
  · rw [decide_eq_false hin, Bool.false_and, if_neg hin]
    rfl

end Sys2Proof.Machine
end

/-! # Whole-bitmap operations (spec 43_transform.md)

Both commands are one `Memory.rewriteBitmap`; `Memory.px_rewriteBitmap` leaves the pixels of a new byte, which are old pixels
by `getLsbD_scrolled` and `getLsbD_mirrored`. `rev8` is `packPixels` of a byte's own bits. -/

section
namespace Sys2Proof.Machine

/-! ### `rev8` (R182) -/

/-- The bits of a byte, counted from bit 0, become its pixels from the left. -/
theorem rev8_eq_packPixels (v : Byte) : rev8 v = packPixels v.getLsbD := rfl

theorem getLsbD_rev8 (v : Byte) {i : Nat} (hi : i < 8) : (rev8 v).getLsbD i = v.getLsbD (7 - i) := by
  rw [rev8_eq_packPixels, getLsbD_packPixels, decide_eq_true hi, Bool.true_and]

theorem rev8_rev8 (v : Byte) : rev8 (rev8 v) = v := by
  apply BitVec.eq_of_getLsbD_eq
  intro i hi
  rw [getLsbD_rev8 _ hi, getLsbD_rev8 _ (by omega), show 7 - (7 - i) = i by omega]

/-- The leftmost pixel has the greatest weight (R51). -/
theorem toNat_packPixels (f : Nat → Bool) :
    (packPixels f).toNat = ((List.range 8).map fun j => (f j).toNat * 2 ^ (7 - j)).sum := by
  rw [packPixels, BitVec.toNat_ofFnLE]
  simp only [Nat.ofBits_succ, Nat.ofBits_zero, Function.comp_apply, Fin.val_succ, Fin.val_zero, List.range_succ,
    List.range_zero, List.nil_append, List.cons_append, List.map_cons, List.map_nil, List.sum_cons, List.sum_nil,
    Nat.reduceAdd, Nat.reduceSub]
  omega

/-- Settles O46: `rev8` is `packPixels` of the byte's bits, so that their weights are those of pixels. -/
theorem rev8ReversesBits : Obligations.Rev8ReversesBits := fun v =>
  ⟨fun _ hi => getLsbD_rev8 v hi, toNat_packPixels v.getLsbD, rev8_rev8 v⟩

/-! ### Rewriting the bitmap -/

/-- Pixel `px` of a bitmap whose bytes have been replaced. -/
theorem Memory.px_rewriteBitmap {m : Memory} (hm : m.wf = true) {B : Nat} (hB : B + 1600 ≤ 65536)
    (f : Nat → Nat → Byte) {px py : Nat} (hx : px < 160) (hy : py < 80) :
    (m.rewriteBitmap B f).px B px py = (f py (px / 8)).getLsbD (7 - px % 8) := by
  rw [Memory.px_eq, Memory.byteAt_rewriteBitmap hm hB f hy (by omega)]

/-- Replacing the bytes and then putting the old ones back restores RAM. -/
theorem Memory.rewriteBitmap_restore {m : Memory} (hm : m.wf = true) {B : Nat} (hB : B + 1600 ≤ 65536)
    {f g : Nat → Nat → Byte} (hg : ∀ r k, r < 80 → k < 20 → g r k = m.byteAt (B + 20 * r + k)) :
    (m.rewriteBitmap B f).rewriteBitmap B g = m := by
  have hm' := Memory.wf_rewriteBitmap hm B f
  refine Memory.ext (Memory.wf_rewriteBitmap hm' B g) hm fun a => ?_
  by_cases ha : a < B ∨ B + 1600 ≤ a
  · rw [Memory.byteAt_rewriteBitmap_outside hm' _ _ ha, Memory.byteAt_rewriteBitmap_outside hm _ _ ha]
  · have hrow : (a - B) / 20 < 80 := by omega
    have hcol : (a - B) % 20 < 20 := by omega
    have haddr : B + 20 * ((a - B) / 20) + (a - B) % 20 = a := by omega
    have hbyte := Memory.byteAt_rewriteBitmap hm' hB g hrow hcol
    rwa [hg _ _ hrow hcol, haddr] at hbyte

/-- A command that replaces the bytes of the target bitmap, by the pixels `new` of the new bytes. -/
theorem rewritesTarget_of_exec {i : Instr} {s : State} {f : Nat → Nat → Byte} {new : Nat → Nat → Bool} (hs : s.Sound)
    (h : exec i s = .next (s.setRam (s.ram.rewriteBitmap s.targetBase f)))
    (hnew : ∀ px py, px < 160 → py < 80 → (f py (px / 8)).getLsbD (7 - px % 8) = new px py) :
    ∃ m', exec i s = .next { s with ram := m' } ∧ SameOutside s.ram m' s.targetBase 1600 ∧
      ∀ px py : Nat, px < 160 → py < 80 → m'.px s.targetBase px py = new px py := by
  obtain ⟨hm, hc⟩ := hs
  refine ⟨_, h, fun _ => Memory.byteAt_rewriteBitmap_outside hm _ _, fun px py hx hy => ?_⟩
  rw [Memory.px_rewriteBitmap hm (State.targetBase_fits hc) f hx hy, hnew px py hx hy]

/-! ### The direction (R88) -/

theorem readSelector_of_ge {v : Byte} (h : 2 ≤ v.toNat) : readSelector v = none :=
  readSelector_eq_none.mpr (decide_eq_false (by omega))

theorem eq_zero_or_one_of_lt {v : Byte} (h : v.toNat < 2) : v = 0 ∨ v = 1 := by bv_omega

/-! ### `SCROLL` (R180) -/

/-- What `SCROLL` makes of byte `k` of row `r`, by its direction. -/
def scrolled (dir : Byte) (m : Memory) (B r k : Nat) : Byte :=
  if dir = 0 then scrolledLeft m B r k else scrolledRight m B r k

theorem exec_scroll_of_lt {dir : Byte} (h : dir.toNat < 2) (s : State) :
    exec (.scroll dir) s = .next (s.setRam (s.ram.rewriteBitmap s.targetBase (scrolled dir s.ram s.targetBase))) := by
  obtain rfl | rfl := eq_zero_or_one_of_lt h <;> rfl

/-- Bit `i` of a byte moved one pixel left, with the leftmost pixel of `beside` moved in. -/
theorem getLsbD_movedLeft (b beside : Byte) {i : Nat} (hi : i < 8) :
    (b <<< 1 ||| beside >>> 7).getLsbD i = if i = 0 then beside.getLsbD 7 else b.getLsbD (i - 1) := by
  rw [BitVec.getLsbD_or, BitVec.getLsbD_shiftLeft, BitVec.getLsbD_ushiftRight]
  split
  case isTrue hlast => simp [hlast]
  case isFalse hinner => simp [hi, hinner, BitVec.getLsbD_of_ge beside (7 + i) (by omega)]

/-- Bit `i` of a byte moved one pixel right, with the rightmost pixel of `beside` moved in. -/
theorem getLsbD_movedRight (b beside : Byte) {i : Nat} (hi : i < 8) :
    (b >>> 1 ||| (beside &&& 1) <<< 7).getLsbD i = if i = 7 then beside.getLsbD 0 else b.getLsbD (i + 1) := by
  rw [BitVec.getLsbD_or, BitVec.getLsbD_shiftLeft, BitVec.getLsbD_ushiftRight]
  split
  case isTrue hfirst => simp [hfirst]
  case isFalse hinner => simp [show i < 7 by omega, Nat.add_comm]

theorem scrolledLeft_eq (m : Memory) (B r k : Nat) :
    scrolledLeft m B r k =
      (m.byteAt (B + 20 * r + k) <<< 1 ||| (if k < 19 then m.byteAt (B + 20 * r + (k + 1)) else 0) >>> 7) := by
  unfold scrolledLeft
  split <;> rfl

theorem scrolledRight_eq (m : Memory) (B r k : Nat) :
    scrolledRight m B r k =
      (m.byteAt (B + 20 * r + k) >>> 1 ||| ((if 0 < k then m.byteAt (B + 20 * r + (k - 1)) else 0) &&& 1) <<< 7) := by
  unfold scrolledRight
  split <;> rfl

theorem getLsbD_scrolledLeft (m : Memory) (B py : Nat) {px : Nat} (hx : px < 160) :
    (scrolledLeft m B py (px / 8)).getLsbD (7 - px % 8) = (decide (px < 159) && m.px B (px + 1) py) := by
  rw [scrolledLeft_eq, getLsbD_movedLeft _ _ (by omega), Memory.px_eq]
  by_cases hlast : px % 8 = 7
  · rw [if_pos (by omega), show (px + 1) / 8 = px / 8 + 1 by omega, show (px + 1) % 8 = 0 by omega]
    by_cases hrow : px < 159
    · rw [if_pos (by omega), decide_eq_true hrow, Bool.true_and]
    · rw [if_neg (by omega), decide_eq_false hrow]
      rfl
  · rw [if_neg (by omega), decide_eq_true (by omega), Bool.true_and, show (px + 1) / 8 = px / 8 by omega,
      show 7 - (px + 1) % 8 = 7 - px % 8 - 1 by omega]

theorem getLsbD_scrolledRight (m : Memory) (B py px : Nat) :
    (scrolledRight m B py (px / 8)).getLsbD (7 - px % 8) = (decide (0 < px) && m.px B (px - 1) py) := by
  rw [scrolledRight_eq, getLsbD_movedRight _ _ (by omega), Memory.px_eq]
  by_cases hfirst : px % 8 = 0
  · rw [if_pos (by omega)]
    by_cases hrow : 0 < px
    · rw [if_pos (by omega), decide_eq_true hrow, Bool.true_and, show (px - 1) / 8 = px / 8 - 1 by omega,
        show 7 - (px - 1) % 8 = 0 by omega]
    · rw [if_neg (by omega), decide_eq_false hrow]
      rfl
  · rw [if_neg (by omega), decide_eq_true (by omega), Bool.true_and, show (px - 1) / 8 = px / 8 by omega,
      show 7 - (px - 1) % 8 = 7 - px % 8 + 1 by omega]

theorem getLsbD_scrolled (dir : Byte) (m : Memory) (B : Nat) {px : Nat} (py : Nat) (hx : px < 160) :
    (scrolled dir m B py (px / 8)).getLsbD (7 - px % 8) =
      if dir = 0 then decide (px < 159) && m.px B (px + 1) py else decide (0 < px) && m.px B (px - 1) py := by
  unfold scrolled
  split
  · exact getLsbD_scrolledLeft m B py hx
  · exact getLsbD_scrolledRight m B py px

/-- Settles O44: every bit of a new byte is the old pixel beside it, of the same byte or the next. -/
theorem scrollMovesOnePixel : Obligations.ScrollMovesOnePixel := by
  refine ⟨fun _ => rfl, wrongLengthFaults rfl, fun dir s => ⟨fun hreserved => ?_, fun hs hdir => ?_⟩⟩
  · rw [exec, execScroll, readSelector_of_ge hreserved]
    exact raiseFault_toNat _ _ _
  · exact rewritesTarget_of_exec hs (exec_scroll_of_lt hdir s) fun _ py hx _ => getLsbD_scrolled dir _ _ py hx

/-! ### `MIRROR` (R181) -/

/-- What `MIRROR` makes of byte `k` of row `r`, by its direction. -/
def mirrored (dir : Byte) (m : Memory) (B r k : Nat) : Byte :=
  if dir = 0 then mirroredHoriz m B r k else mirroredVert m B r k

theorem exec_mirror_of_lt {dir : Byte} (h : dir.toNat < 2) (s : State) :
    exec (.mirror dir) s = .next (s.setRam (s.ram.rewriteBitmap s.targetBase (mirrored dir s.ram s.targetBase))) := by
  obtain rfl | rfl := eq_zero_or_one_of_lt h <;> rfl

theorem getLsbD_mirrored (dir : Byte) (m : Memory) (B : Nat) {px : Nat} (py : Nat) (hx : px < 160) :
    (mirrored dir m B py (px / 8)).getLsbD (7 - px % 8) =
      if dir = 0 then m.px B (159 - px) py else m.px B px (79 - py) := by
  unfold mirrored
  split
  · rw [mirroredHoriz, getLsbD_rev8 _ (by omega), Memory.px_eq, show (159 - px) / 8 = 19 - px / 8 by omega,
      show (159 - px) % 8 = 7 - px % 8 by omega]
  · rfl

/-- Byte `k` of row `r` comes back from where the first mirror has put it. -/
theorem mirrored_rewriteBitmap {m : Memory} (hm : m.wf = true) {B : Nat} (hB : B + 1600 ≤ 65536) (dir : Byte) {r k : Nat}
    (hr : r < 80) (hk : k < 20) :
    mirrored dir (m.rewriteBitmap B (mirrored dir m B)) B r k = m.byteAt (B + 20 * r + k) := by
  by_cases hdir : dir = 0
  · rw [mirrored, if_pos hdir, mirroredHoriz, Memory.byteAt_rewriteBitmap hm hB _ hr (by omega), mirrored, if_pos hdir,
      mirroredHoriz, rev8_rev8, show 19 - (19 - k) = k by omega]
  · rw [mirrored, if_neg hdir, mirroredVert, Memory.byteAt_rewriteBitmap hm hB _ (by omega) hk, mirrored, if_neg hdir,
      mirroredVert, show 79 - (79 - r) = r by omega]

/-- Settles O45: the second mirror puts every byte of the bitmap back, so that no register and no byte differs. -/
theorem mirrorReversesTheBitmap : Obligations.MirrorReversesTheBitmap := by
  refine ⟨fun _ => rfl, wrongLengthFaults rfl,
    fun dir s => ⟨fun hreserved => ?_, fun hs hdir => ?_, fun ⟨hm, hc⟩ hdir t h => ?_⟩⟩
  · rw [exec, execMirror, readSelector_of_ge hreserved]
    exact raiseFault_toNat _ _ _
  · exact rewritesTarget_of_exec hs (exec_mirror_of_lt hdir s) fun _ py hx _ => getLsbD_mirrored dir _ _ py hx
  · have hB := State.targetBase_fits hc
    rw [exec_mirror_of_lt hdir] at h
    cases h
    rw [exec_mirror_of_lt hdir, State.targetBase_setRam, State.setRam_ram, State.setRam_setRam,
      Memory.rewriteBitmap_restore hm hB fun r k hr hk => mirrored_rewriteBitmap hm hB dir hr hk, State.setRam_self]

end Sys2Proof.Machine
end

/-! # Memory commands (spec 44_memops.md)

Each command hands its operands to one primitive, `Fill` or `Copy`, and `withAddressFault` makes the primitive's answer a next
state. So every case of a command is a case of its primitive, and the bytes are those of the one store it makes. -/

section
namespace Sys2Proof.Machine

theorem toNat_half_ne_zero {count : Half} (h : count ≠ 0) : count.toNat ≠ 0 := BitVec.toNat_ne.mp h

theorem withAddressFault_of_ok {r : Except AddressFault Memory} {m : Memory} (s : State) (h : r = .ok m) :
    withAddressFault s r = .next { s with ram := m } := by
  rw [h]
  rfl

/-- A primitive that refuses an operand's address raises `E_ADDR` with that operand (R240). -/
theorem withAddressFault_of_error {r : Except AddressFault Memory} {addr : Half} (s : State)
    (h : r = .error { addr := addr.toNat }) :
    withAddressFault s r = .next { s with status := 3, faultInfo := addr.setWidth 32 } := by
  rw [h]
  exact raiseFault_toNat .eAddr addr s

/-! ### `MEMFILL` (R190) -/

theorem Memory.fill_zero (m : Memory) (addr : Nat) (value : Byte) : m.fill addr 0 value = .ok m := if_pos rfl

theorem Memory.fill_of_past {addr count : Nat} (m : Memory) (value : Byte) (h : count ≠ 0) (hpast : 65536 < addr + count) :
    m.fill addr count value = .error { addr } := by
  rw [Memory.fill, if_neg h, if_pos hpast]

/-- Settles O47: the cases of `Fill`, whose store reads back as `value` and leaves the rest alone. -/
theorem memFillFillsTheRange : Obligations.MemFillFillsTheRange := by
  refine ⟨fun _ _ _ => rfl, wrongLengthFaults rfl, fun addr count value s => ⟨fun hzero => ?_, fun hcount hpast => ?_,
    fun hm hcount hfit => ⟨_, execMemFill_of_fits value s (toNat_half_ne_zero hcount) hfit, fun i hi => ?_,
      Memory.sameOutside_storeReplicate hm _ _ _⟩⟩⟩
  · subst hzero
    exact withAddressFault_of_ok s (s.ram.fill_zero addr.toNat value)
  · exact withAddressFault_of_error s (s.ram.fill_of_past value (toNat_half_ne_zero hcount) hpast)
  · rw [Memory.byteAt_storeReplicate hm _ _ hfit, if_pos (by omega)]

/-! ### `MEMCOPY` (R191) -/

theorem Memory.copy_zero (m : Memory) (dest src : Nat) : m.copy dest src 0 = .ok m := if_pos rfl

/-- Settles O48: the cases of `Copy`; where both ranges fit, `copyIsSafeForOverlap` gives the bytes, overlapping or not. -/
theorem memCopyMovesTheRange : Obligations.MemCopyMovesTheRange := by
  refine ⟨fun _ _ _ => rfl, wrongLengthFaults rfl, fun dest src count s => ⟨fun hzero => ?_, fun hcount hsrc => ?_,
    fun hcount hsrc hdest => ?_, fun hm hcount hsrc hdest => ?_⟩⟩
  · subst hzero
    exact withAddressFault_of_ok s (s.ram.copy_zero dest.toNat src.toNat)
  · exact withAddressFault_of_error s (s.ram.copy_of_src_past (toNat_half_ne_zero hcount) hsrc)
  · exact withAddressFault_of_error s (s.ram.copy_of_dest_past (toNat_half_ne_zero hcount) hsrc hdest)
  · obtain ⟨-, -, -, hmoves⟩ := copyIsSafeForOverlap s.ram dest.toNat src.toNat count.toNat hm
    obtain ⟨hcopy, hbytes, houtside⟩ := hmoves (toNat_half_ne_zero hcount) hsrc hdest
    exact ⟨_, withAddressFault_of_ok s hcopy, rfl, hbytes, houtside⟩

end Sys2Proof.Machine
end

/-! # The text engine (spec 45_text.md R204 to R216)

A row's cells are consecutive bytes of RAM (`State.cell_add_col`), and rows follow each other (`State.cell_succ_row`), so that
the scroll moves every cell by `s.cols`. `PutCell` and `AddPair` are an edit of RAM and then `State.advance`, whose two ends
`State.advance_setRam` states once. A character sequence is taken unit by unit by the two recursions over it. -/

section
namespace Sys2Proof.Machine

/-! ### The cells of the grid (R205, R206) -/

theorem State.cell_add_col (s : State) (r c n : Nat) : s.cell r (c + n) = s.cell r c + n := (Nat.add_assoc _ c n).symm

theorem State.cell_succ_row (s : State) (r c : Nat) : s.cell (r + 1) c = s.cell r c + s.cols := by
  rw [State.cell, State.cell, Nat.add_mul]
  omega

/-- A cell lies before the first cell of every later row. -/
theorem State.cell_lt_row {s : State} {r r' c : Nat} (hr : r < r') (hc : c < s.cols) : s.cell r c < s.cell r' 0 := by
  have hrows : (r + 1) * s.cols ≤ r' * s.cols := Nat.mul_le_mul_right _ hr
  rw [Nat.add_mul] at hrows
  unfold State.cell
  omega

theorem grid_size_le (mode : BitVec 1) : rowsOf mode * colsOf mode ≤ 156 := by
  rcases colsOf_cases mode with ⟨hcols, hrows⟩ | ⟨hcols, hrows⟩ <;> simp [hcols, hrows]

theorem State.grid_fits {s : State} (hc : s.cfg.Valid) : s.cfg.textBase + s.rows * s.cols ≤ 65536 := by
  obtain ⟨-, -, htext, hlen, -⟩ := hc
  have hsize : s.rows * s.cols ≤ 156 := grid_size_le s.txtMode
  omega

theorem State.cell_fits {s : State} (hv : s.cfg.Valid) {r c : Nat} (hr : r < s.rows) (hc : c < s.cols) :
    s.cell r c < 65536 := by
  have hgrid := State.grid_fits hv
  obtain ⟨-, hhi⟩ := s.cell_bounds (n := 1) hr hc
  omega

/-! ### `NewLine` (R208) -/

theorem State.newLine_of_room {s : State} (h : s.curRow.toNat + 1 < s.rows) :
    s.newLine = s.setCursor (s.curRow.toNat + 1) 0 := if_pos h

theorem State.newLine_of_last {s : State} (h : s.rows ≤ s.curRow.toNat + 1) :
    s.newLine = (s.setRam s.scrollGrid).setCursor (s.rows - 1) 0 := if_neg (by omega)

theorem State.setCursor_curRow_self (s : State) (c : Nat) :
    s.setCursor s.curRow.toNat c = { s with curCol := BitVec.ofNat 5 c } := by
  rw [State.setCursor, BitVec.ofNat_toNat, BitVec.setWidth_eq]

/-- The rows of the grid but the last after a scroll. -/
theorem State.byteAt_scrollGrid_moved {s : State} (hs : s.Sound) {r c : Nat} (hr : r + 1 < s.rows) (hc : c < s.cols) :
    s.scrollGrid.byteAt (s.cell r c) = s.ram.byteAt (s.cell (r + 1) c) := by
  obtain ⟨hm, hv⟩ := hs
  have hbefore : s.cell r c < s.cell (s.rows - 1) 0 := State.cell_lt_row (by omega) hc
  have htop : s.cell (s.rows - 1) 0 < 65536 := State.cell_fits hv (by omega) (by omega)
  have hlo : s.cfg.textBase ≤ s.cell r c := (s.cell_bounds (n := 1) (by omega) hc).1
  rw [State.scrollGrid, Memory.byteAt_storeBytes_outside (Memory.wf_storeBytes hm _ _) (.inl hbefore),
    Memory.byteAt_storeLoad hm (n := (s.rows - 1) * s.cols) _ htop.le, if_pos ⟨hlo, hbefore⟩, State.cell_succ_row]
  congr 1
  omega

/-- The last row of the grid after a scroll. -/
theorem State.byteAt_scrollGrid_last {s : State} (hs : s.Sound) {c : Nat} (hc : c < s.cols) :
    s.scrollGrid.byteAt (s.cell (s.rows - 1) c) = s.cfg.blank := by
  obtain ⟨hm, hv⟩ := hs
  have hgrid := s.grid_cases
  have hfits := State.grid_fits hv
  obtain ⟨-, hhi⟩ := s.cell_bounds (r := s.rows - 1) (c := 0) (n := s.cols) (by omega) (by omega)
  have hcell : s.cell (s.rows - 1) c = s.cell (s.rows - 1) 0 + c := by rw [← State.cell_add_col, Nat.zero_add]
  rw [State.scrollGrid, Memory.byteAt_storeReplicate (Memory.wf_storeBytes hm _ _) _ _ (by omega), if_pos (by omega)]

/-- Settles O51: the two ends of `NewLine`; on the last row the cursor's row stays and the cells move up. -/
theorem newLineAdvancesOrScrolls : Obligations.NewLineAdvancesOrScrolls := by
  intro s hs _
  refine ⟨State.newLine_of_room, fun hlast => ⟨s.scrollGrid, ?_, fun r c => State.byteAt_scrollGrid_moved hs,
    fun c => State.byteAt_scrollGrid_last hs, State.sameOutside_scrollGrid hs.1⟩⟩
  rw [State.newLine_of_last hlast.ge, show s.rows - 1 = s.curRow.toNat by omega]
  exact (s.setRam s.scrollGrid).setCursor_curRow_self 0

/-! ### `PutCell` and `AddPair` (R209, R211) -/

/-- The eager wrap after an edit of RAM (R207, R209). -/
theorem State.advance_setRam (s : State) (m : Memory) (n : Nat) :
    (s.curCol.toNat + n < s.cols →
      (s.setRam m).advance n = { s with ram := m, curCol := BitVec.ofNat 5 (s.curCol.toNat + n) }) ∧
    (s.curCol.toNat + n = s.cols → (s.setRam m).advance n = ({ s with ram := m } : State).newLine) := by
  refine ⟨fun hroom => ?_, fun hfull => if_neg ?_⟩
  · exact (if_pos hroom).trans ((s.setRam m).setCursor_curRow_self _)
  · exact hfull.not_lt

theorem State.byteAt_setCell {s : State} (hm : s.ram.wf = true) (i : Nat) (b : Byte) {a : Nat} (ha : a < 65536) :
    (s.setCell i b).ram.byteAt a =
      if a = s.cell s.curRow.toNat (s.curCol.toNat + i) then b else s.ram.byteAt a := by
  rw [State.setCell, State.setRam_ram, Memory.byteAt_setByte hm]
  simp only [ha, and_true]

theorem State.sameOutside_setCell {s : State} (hm : s.ram.wf = true) (i : Nat) (b : Byte) :
    SameOutside s.ram (s.setCell i b).ram (s.cell s.curRow.toNat (s.curCol.toNat + i)) 1 :=
  Memory.sameOutside_storeBytes hm _ [b]

/-- Settles O52: one cell is stored, and then the eager wrap. -/
theorem putCellStoresAndAdvances : Obligations.PutCellStoresAndAdvances := by
  intro s b ⟨hm, hv⟩ hinv
  have hcell := State.cell_fits hv hinv.1 hinv.2.1
  exact ⟨(s.setCell 0 b).ram, (State.byteAt_setCell hm 0 b hcell).trans (if_pos rfl), State.sameOutside_setCell hm 0 b,
    s.advance_setRam _ 1⟩

theorem State.addPair_of_room {s : State} (h : s.curCol.toNat ≠ s.cols - 1) (b1 b2 : Byte) :
    s.addPair b1 b2 = ((s.setCell 0 b1).setCell 1 b2).advance 2 := by rw [State.addPair, if_neg h]

/-- After the padding space the cursor stands in column 0, so that the pair needs no padding again. -/
theorem State.addPair_of_last {s : State} (h : s.curCol.toNat = s.cols - 1) (b1 b2 : Byte) :
    s.addPair b1 b2 = (s.putCell 0x20).addPair b1 b2 := by
  have hgrid := (s.putCell 0x20).grid_cases
  have hcol : (s.putCell 0x20).curCol.toNat = 0 := by
    rw [State.putCell_curCol_of_last h]
    rfl
  rw [State.addPair_of_room (s := s.putCell 0x20) (by omega), State.addPair, if_pos h]

theorem State.byteAt_pairCells {s : State} (hm : s.ram.wf = true) (b1 b2 : Byte) {a : Nat} (ha : a < 65536) :
    ((s.setCell 0 b1).setCell 1 b2).ram.byteAt a =
      if a = s.cell s.curRow.toNat (s.curCol.toNat + 1) then b2
      else if a = s.cell s.curRow.toNat s.curCol.toNat then b1 else s.ram.byteAt a := by
  refine (State.byteAt_setCell (State.wf_setCell hm 0 b1) 1 b2 ha).trans ?_
  rw [State.byteAt_setCell hm 0 b1 ha]
  rfl

theorem State.sameOutside_pairCells {s : State} (hm : s.ram.wf = true) (b1 b2 : Byte) :
    SameOutside s.ram ((s.setCell 0 b1).setCell 1 b2).ram (s.cell s.curRow.toNat s.curCol.toNat) 2 := by
  have hfirst : SameOutside s.ram (s.setCell 0 b1).ram (s.cell s.curRow.toNat s.curCol.toNat) 1 :=
    State.sameOutside_setCell hm 0 b1
  have hsecond : SameOutside (s.setCell 0 b1).ram ((s.setCell 0 b1).setCell 1 b2).ram
      (s.cell s.curRow.toNat s.curCol.toNat + 1) 1 := State.sameOutside_setCell (State.wf_setCell hm 0 b1) 1 b2
  exact (hfirst.mono le_rfl (by omega)).trans (hsecond.mono (by omega) le_rfl)

/-- Settles O53: outside the last column both cells are in the cursor's row. -/
theorem addPairKeepsPairsTogether : Obligations.AddPairKeepsPairsTogether := by
  intro s b1 b2 ⟨hm, hv⟩ ⟨hrow, hcol, _⟩
  refine ⟨fun hlast => ⟨State.addPair_of_last hlast b1 b2, State.putCell_curCol_of_last hlast _⟩, fun hroom => ?_⟩
  have hfirst := State.cell_fits hv hrow hcol
  have hsecond : s.cell s.curRow.toNat (s.curCol.toNat + 1) < 65536 := State.cell_fits hv hrow (by omega)
  have hne : s.cell s.curRow.toNat s.curCol.toNat ≠ s.cell s.curRow.toNat (s.curCol.toNat + 1) := by
    rw [State.cell_add_col]
    omega
  rw [State.addPair_of_room hroom]
  refine ⟨((s.setCell 0 b1).setCell 1 b2).ram, ?_, ?_, State.sameOutside_pairCells hm b1 b2, s.advance_setRam _ 2⟩
  · rw [State.byteAt_pairCells hm b1 b2 hfirst, if_neg hne, if_pos rfl]
  · rw [State.byteAt_pairCells hm b1 b2 hsecond, if_pos rfl]

/-! ### `TXTMODE` and `TXTLOC` (R213, R214) -/

theorem readSelector_of_lt {v : Byte} (h : v.toNat < 2) : readSelector v = some (BitVec.ofNat 1 v.toNat) := by
  obtain rfl | rfl := eq_zero_or_one_of_lt h <;> rfl

/-- Settles O54: the whole segment is one store of `BLANK`. -/
theorem txtModeBlanksTheGrid : Obligations.TxtModeBlanksTheGrid := by
  refine ⟨fun _ => rfl, wrongLengthFaults rfl, fun m s => ⟨fun hreserved => ?_, fun ⟨hm, hv⟩ hlt => ?_⟩⟩
  · rw [exec, execTxtMode, readSelector_of_ge hreserved]
    exact raiseFault_toNat _ _ _
  · obtain ⟨-, -, htext, -⟩ := hv
    refine ⟨blankText s.cfg s.ram, ?_, fun i hi => ?_, Memory.sameOutside_storeReplicate hm _ _ _⟩
    · rw [exec, execTxtMode, readSelector_of_lt hlt]
      rfl
    · rw [blankText, Memory.byteAt_storeReplicate hm _ _ htext, if_pos (by omega)]

theorem clampBelow_eq (v : Int) {n : Nat} (hn : 1 ≤ n) : (clampBelow v n : Int) = min (max v 0) (n - 1) := by
  unfold clampBelow
  omega

/-- Settles O55: both registers are wide enough for the grid, so that the clamped numbers are held as they are. -/
theorem txtLocClampsTheCursor : Obligations.TxtLocClampsTheCursor := by
  refine ⟨fun _ _ => rfl, wrongLengthFaults rfl, fun row col s => ⟨_, _, rfl, ?_, ?_⟩⟩
  all_goals
    have hgrid := s.grid_cases
    rw [BitVec.toNat_ofNat, Nat.mod_eq_of_lt (by unfold clampBelow; omega)]
    exact clampBelow_eq _ (by omega)

/-! ### `TXTBYTE` (R210, R215) -/

theorem isLead_iff {b : Byte} : isLead b = true ↔ 0x80 ≤ b.toNat := decide_eq_true_iff

theorem exec_txtByte_of_lead {b : Byte} (h : 0x80 ≤ b.toNat) (s : State) :
    exec (.txtByte b) s = .next { s with status := 2, faultInfo := b.setWidth 32 } := by
  rw [exec, execTxtByte, if_pos (isLead_iff.mpr h)]
  exact raiseFault_toNat _ _ _

theorem exec_txtByte_of_char {b : Byte} (h : b.toNat < 0x80) (s : State) : exec (.txtByte b) s = .next (s.addOne b) :=
  if_neg (by rw [isLead_iff]; omega)

/-- Settles O56: every character is one branch of `AddOne`. -/
theorem txtByteAppendsOneCharacter : Obligations.TxtByteAppendsOneCharacter := by
  refine ⟨fun _ => rfl, wrongLengthFaults rfl, fun b s => ⟨fun hlead => exec_txtByte_of_lead hlead s, ?_, ?_, ?_,
    fun hchar hcr hlf htab => ?_⟩⟩
  · rintro rfl
    rfl
  · rintro rfl
    rfl
  · rintro rfl
    rfl
  · rw [exec_txtByte_of_char hchar, State.addOne, if_neg hcr, if_neg hlf, if_neg htab]

/-! ### `TXTBYTES` (R212, R216) -/

/-- The scan passes over a unit. -/
theorem loneLead_bytes_append {u : TextToken} (hu : u.ok = true) (rest : List Byte) :
    loneLead (u.bytes ++ rest) = loneLead rest := by
  cases u with
  | one b =>
    have hb : ¬ isLead b = true := by simpa [TextToken.ok] using hu
    cases rest with
    | nil => exact if_neg hb
    | cons b2 rest => exact if_neg hb
  | pair b1 b2 => exact if_pos hu

theorem loneLead_units_append {units : List TextToken} (hok : ∀ u ∈ units, u.ok = true) (rest : List Byte) :
    loneLead (units.flatMap TextToken.bytes ++ rest) = loneLead rest := by
  induction units with
  | nil => rfl
  | cons u units ih =>
    obtain ⟨hu, hunits⟩ := List.forall_mem_cons.mp hok
    rw [List.flatMap_cons, List.append_assoc, loneLead_bytes_append hu, ih hunits]

/-- `AddSeq` takes a unit as a whole. -/
theorem State.addSeq_bytes_append {u : TextToken} (hu : u.ok = true) (s : State) (rest : List Byte) :
    s.addSeq (u.bytes ++ rest) = (u.add s).addSeq rest := by
  cases u with
  | one b =>
    have hb : ¬ isLead b = true := by simpa [TextToken.ok] using hu
    cases rest with
    | nil => rfl
    | cons b2 rest => exact if_neg hb
  | pair b1 b2 => exact if_pos hu

theorem State.addSeq_units {units : List TextToken} (hok : ∀ u ∈ units, u.ok = true) (s : State) :
    s.addSeq (units.flatMap TextToken.bytes) = units.foldl TextToken.add s := by
  induction units generalizing s with
  | nil => rfl
  | cons u units ih =>
    obtain ⟨hu, hunits⟩ := List.forall_mem_cons.mp hok
    rw [List.flatMap_cons, State.addSeq_bytes_append hu, ih hunits]
    rfl

section
variable {addr count : Half} {s : State}

theorem execTxtBytes_of_lone {b : Byte} (hcount : count ≠ 0) (hfit : addr.toNat + count.toNat ≤ 65536)
    (hscan : loneLead (s.ram.loadBytes addr.toNat count.toNat) = some b) :
    execTxtBytes addr count s = raiseFault .eOperand b.toNat s := by
  rw [execTxtBytes, if_neg (toNat_half_ne_zero hcount), if_neg (by omega), hscan]

/-- A sequence the scan passes, apart from the grid. -/
theorem execTxtBytes_of_apart (hcount : count ≠ 0) (hfit : addr.toNat + count.toNat ≤ 65536)
    (hscan : loneLead (s.ram.loadBytes addr.toNat count.toNat) = none)
    (hapart : apart addr.toNat count.toNat s.cfg.textBase (s.rows * s.cols)) :
    execTxtBytes addr count s = .next (s.addSeq (s.ram.loadBytes addr.toNat count.toNat)) := by
  rw [execTxtBytes, if_neg (toNat_half_ne_zero hcount), if_neg (by omega), hscan, rangesMeet_eq_false hapart]
  rfl

end

/-- Settles O57: the scan and `AddSeq` both cut the sequence into its units. -/
theorem txtBytesAppendsTheSequence : Obligations.TxtBytesAppendsTheSequence := by
  refine ⟨fun _ _ => rfl, wrongLengthFaults rfl, fun addr count s => ⟨?_, fun hcount hpast => ?_,
    fun hcount hfit units hok => ⟨fun hbytes hapart => ?_, fun b hlead hbytes => ?_⟩⟩⟩
  · rintro rfl
    rfl
  · rw [exec, execTxtBytes, if_neg (toNat_half_ne_zero hcount), if_pos hpast]
    exact raiseFault_toNat _ _ _
  · have hscan : loneLead (s.ram.loadBytes addr.toNat count.toNat) = none := by
      simpa [hbytes, loneLead] using loneLead_units_append hok []
    rw [exec, execTxtBytes_of_apart hcount hfit hscan hapart, hbytes, State.addSeq_units hok]
  · have hscan : loneLead (s.ram.loadBytes addr.toNat count.toNat) = some b := by
      rw [hbytes, loneLead_units_append hok]
      exact if_pos (isLead_iff.mpr hlead)
    rw [exec, execTxtBytes_of_lone hcount hfit hscan]
    exact raiseFault_toNat _ _ _

end Sys2Proof.Machine
end

/-! # The glyph compositor (spec 45_text.md R203, R220 to R224)

The scan of a row is one case: `cellSpan` cells from column `col` on show the glyph `glyphAt` (`drawCells_succ`). What is drawn
from a column on stays in the row's cells from that column on (`px_drawCells_outside`), so that no later cell and no later row
(`InCells`) changes what a cell shows. -/

section
namespace Sys2Proof.Machine

/-! ### Glyph offsets (R201, R203) -/

theorem glyphOff1_eq_some {c : Params} {mode : BitVec 1} {b : Byte} {off : Nat} (h : glyphOff1 c mode b = some off) :
    b.toNat < 0x80 ∧ b.toNat < c.nA ∧ off = if mode = 0 then offA16 c + 16 * b.toNat else offA12 c + 12 * b.toNat := by
  unfold glyphOff1 at h
  split at h
  case isTrue => cases h
  case isFalse hin =>
    rw [← apply_ite some] at h
    exact ⟨by omega, by omega, (Option.some.inj h).symm⟩

theorem glyphOff2_eq_some {c : Params} {mode : BitVec 1} {b1 b2 : Byte} {off : Nat} (h : glyphOff2 c mode b1 b2 = some off) :
    (0xA1 ≤ b1.toNat ∧ b1.toNat ≤ 0xFE ∧ 0xA1 ≤ b2.toNat ∧ b2.toNat ≤ 0xFE) ∧ gbIndex b1 b2 < c.nG ∧
      off = if mode = 0 then offG16 c + 32 * gbIndex b1 b2 else offG12 c + 24 * gbIndex b1 b2 := by
  unfold glyphOff2 at h
  split at h
  case isTrue => cases h
  case isFalse hbytes =>
    split at h
    case isTrue => cases h
    case isFalse hin =>
      rw [← apply_ite some] at h
      exact ⟨by omega, by omega, (Option.some.inj h).symm⟩

/-- Settles O58: an index below the number of glyphs of a blob has its glyph inside the blob. -/
theorem glyphsLieInsideTheFont : Obligations.GlyphsLieInsideTheFont := by
  intro c mode b b1 b2 off
  refine ⟨fun h => ?_, fun h => ?_⟩
  · obtain ⟨hchar, hglyph, hoff⟩ := glyphOff1_eq_some h
    refine ⟨hchar, ?_⟩
    unfold offA16 offA12 at hoff
    unfold fontLen
    split_ifs at hoff ⊢ <;> omega
  · obtain ⟨hbytes, hglyph, hoff⟩ := glyphOff2_eq_some h
    refine ⟨hbytes, ?_⟩
    unfold offG16 offG12 at hoff
    unfold fontLen
    split_ifs at hoff ⊢ <;> omega

/-! ### Cells in the bitmap (R220) -/

/-- The first pixel column of the cells of column `col`. -/
def cellX (mode : BitVec 1) (col : Nat) : Nat := gridOrigin mode + cellWidth mode * col

/-- The first pixel row of the cells of text row `r`. -/
def cellY (mode : BitVec 1) (r : Nat) : Nat := gridOrigin mode + rowPitch mode * r

/-- The pixel lies in one of the cells `[a, b)` of text row `r`. -/
def InCells (mode : BitVec 1) (r a b px py : Nat) : Prop :=
  (cellX mode a ≤ px ∧ px < cellX mode b) ∧ cellY mode r ≤ py ∧ py < cellY mode r + glyphHeight mode

theorem cellX_add (mode : BitVec 1) (a n : Nat) : cellX mode (a + n) = cellX mode a + n * cellWidth mode := by
  rw [cellX, cellX, Nat.mul_add, Nat.mul_comm _ n]
  omega

theorem cellX_mono (mode : BitVec 1) {a b : Nat} (h : a ≤ b) : cellX mode a ≤ cellX mode b :=
  Nat.add_le_add_left (Nat.mul_le_mul_left _ h) _

/-- A text row ends above the next one. -/
theorem cellY_add_height_le {mode : BitVec 1} {r r' : Nat} (h : r < r') : cellY mode r + glyphHeight mode ≤ cellY mode r' := by
  have hpitch : glyphHeight mode ≤ rowPitch mode := by
    unfold glyphHeight rowPitch
    split <;> decide
  have hrows : rowPitch mode * (r + 1) ≤ rowPitch mode * r' := Nat.mul_le_mul_left _ h
  rw [Nat.mul_add] at hrows
  unfold cellY
  omega

theorem InCells.of_offset {mode : BitVec 1} {col n dx dy : Nat} (r : Nat) (hx : dx < n * cellWidth mode)
    (hy : dy < glyphHeight mode) : InCells mode r col (col + n) (cellX mode col + dx) (cellY mode r + dy) := by
  rw [InCells, cellX_add]
  omega

theorem InCells.mono {mode : BitVec 1} {r a b a' b' px py : Nat} (h : InCells mode r a b px py) (ha : a' ≤ a) (hb : b ≤ b') :
    InCells mode r a' b' px py := by
  obtain ⟨⟨hlo, hhi⟩, hrow⟩ := h
  exact ⟨⟨(cellX_mono mode ha).trans hlo, hhi.trans_le (cellX_mono mode hb)⟩, hrow⟩

/-- The grid lies in the bitmap. -/
theorem InCells.bounds {mode : BitVec 1} {r px py : Nat} (hr : r < rowsOf mode) (h : InCells mode r 0 (colsOf mode) px py) :
    px < 160 ∧ py < 80 := by
  have hright : cellX mode (colsOf mode) ≤ 160 := by
    unfold cellX gridOrigin cellWidth colsOf
    split_ifs <;> decide
  have hbottom : cellY mode r + glyphHeight mode ≤ 80 := by
    unfold rowsOf at hr
    unfold cellY gridOrigin rowPitch glyphHeight
    split_ifs at hr ⊢ <;> omega
  unfold InCells at h
  omega

theorem InCells.not_right {mode : BitVec 1} {r a b b' px py : Nat} (h : InCells mode r a b px py) :
    ¬ InCells mode r b b' px py := by
  unfold InCells at *
  omega

theorem InCells.not_other_row {mode : BitVec 1} {r r' a b a' b' px py : Nat} (hne : r ≠ r') (h : InCells mode r a b px py) :
    ¬ InCells mode r' a' b' px py := by
  unfold InCells at *
  rcases (Nat.lt_or_gt_of_ne hne).imp (cellY_add_height_le (mode := mode)) (cellY_add_height_le (mode := mode)) with
    habove | hbelow <;> omega

/-! ### One glyph (R223) -/

theorem glyphBlit_x (mode : BitVec 1) (r col n : Nat) (off : Option Nat) :
    (glyphBlit mode r col n off).x = cellX mode col := rfl

theorem glyphBlit_y (mode : BitVec 1) (r col n : Nat) (off : Option Nat) :
    (glyphBlit mode r col n off).y = cellY mode r := rfl

theorem glyphBlit_has_iff {mode : BitVec 1} {r col n : Nat} {off : Option Nat} {px py : Nat} :
    (glyphBlit mode r col n off).box.has px py = true ↔ InCells mode r col (col + n) px py := by
  rw [BlitOp.has_box_iff, InCells, cellX_add, glyphBlit_x, glyphBlit_y]
  unfold glyphBlit
  dsimp only
  omega

/-- The rows of a glyph of one or two cells take as many bytes. -/
theorem strideOf_cells (mode : BitVec 1) {n : Nat} (hn : n = 1 ∨ n = 2) : strideOf (n * cellWidth mode) = n := by
  unfold strideOf cellWidth
  split <;> omega

theorem glyphBlit_source (c : Params) (m : Memory) (mode : BitVec 1) (r col : Nat) {n : Nat} (hn : n = 1 ∨ n = 2)
    (off : Option Nat) (dx dy : Nat) :
    (glyphBlit mode r col n off).source c m (cellX mode col + dx) (cellY mode r + dy) = glyphPixel c off n dx dy := by
  have hx : ((cellX mode col + dx : Nat) - (cellX mode col : Int)).toNat = dx := by omega
  have hy : ((cellY mode r + dy : Nat) - (cellY mode r : Int)).toNat = dy := by omega
  have hstride : strideOf (glyphBlit mode r col n off).w = n := strideOf_cells mode hn
  rw [BlitOp.source, srcBit, hstride, glyphBlit_x, glyphBlit_y, hx, hy]
  cases off <;> simp [glyphBlit, glyphPixel, BlitOp.column, srcByte]

section
variable {m : Memory} (hm : m.wf = true) {c : Params} (hv : c.Valid) (mode : BitVec 1) (r : Nat)
include hm hv

theorem px_glyphBlit_outside {col n : Nat} (off : Option Nat) {px py : Nat} (hx : px < 160) (hy : py < 80)
    (hout : ¬ InCells mode r col (col + n) px py) :
    (m.blit c c.graphBase (glyphBlit mode r col n off)).px c.graphBase px py = m.px c.graphBase px py := by
  rw [Memory.px_blit hm c hv.1 _ hx hy, if_neg (by rwa [glyphBlit_has_iff])]

theorem px_glyphBlit {col n : Nat} (hn : n = 1 ∨ n = 2) (hr : r < rowsOf mode) (hcol : col + n ≤ colsOf mode) (off : Option Nat)
    {dx dy : Nat} (hx : dx < n * cellWidth mode) (hy : dy < glyphHeight mode) :
    (m.blit c c.graphBase (glyphBlit mode r col n off)).px c.graphBase (cellX mode col + dx) (cellY mode r + dy) =
      glyphPixel c off n dx dy := by
  have hin := InCells.of_offset (mode := mode) (col := col) r hx hy
  obtain ⟨hx', hy'⟩ := (hin.mono (Nat.zero_le _) hcol).bounds hr
  rw [Memory.px_blit hm c hv.1 _ hx' hy', if_pos (glyphBlit_has_iff.mpr hin), glyphBlit_source c m mode r col hn]
  rfl

end

/-! ### The scan of a row (R223) -/

/-- Text row `r` holds `bytes` (R206). -/
def HoldsRow (c : Params) (mode : BitVec 1) (r : Nat) (bytes : Nat → Byte) (m : Memory) : Prop :=
  ∀ col < colsOf mode, m.byteAt (c.textBase + r * colsOf mode + col) = bytes col

/-- The text grid lies outside the graphics bitmap (R10). -/
theorem HoldsRow.of_sameOutside {c : Params} (hv : c.Valid) {mode : BitVec 1} {r : Nat} (hr : r < rowsOf mode)
    {bytes : Nat → Byte} {m m' : Memory} (h : HoldsRow c mode r bytes m) (hout : SameOutside m m' c.graphBase 1600) :
    HoldsRow c mode r bytes m' := by
  intro col hcol
  obtain ⟨-, -, -, hlen, -, hapart, -⟩ := hv
  have hrow : (r + 1) * colsOf mode ≤ rowsOf mode * colsOf mode := Nat.mul_le_mul_right _ hr
  have hsize := grid_size_le mode
  rw [Nat.add_mul] at hrow
  rw [hout _ (by omega), h col hcol]

/-- How many cells the scan takes at column `col`: two for a pair. -/
def cellSpan (bytes : Nat → Byte) (cols col : Nat) : Nat := if pairAt bytes cols col then 2 else 1

/-- The glyph the scan draws at column `col`, if there is one. -/
def glyphAt (c : Params) (mode : BitVec 1) (bytes : Nat → Byte) (col : Nat) : Option Nat :=
  if pairAt bytes (colsOf mode) col then glyphOff2 c mode (bytes col) (bytes (col + 1)) else glyphOff1 c mode (bytes col)

theorem cellSpan_eq_or (bytes : Nat → Byte) (cols col : Nat) : cellSpan bytes cols col = 1 ∨ cellSpan bytes cols col = 2 := by
  unfold cellSpan
  split
  · exact .inr rfl
  · exact .inl rfl

theorem pairAt_iff {bytes : Nat → Byte} {cols col : Nat} :
    pairAt bytes cols col = true ↔ isLead (bytes col) = true ∧ col + 1 < cols := by
  rw [pairAt, Bool.and_eq_true, decide_eq_true_iff]

theorem add_cellSpan_le {bytes : Nat → Byte} {cols col : Nat} (h : col < cols) : col + cellSpan bytes cols col ≤ cols := by
  unfold cellSpan
  split
  case isTrue hpair => exact (pairAt_iff.mp hpair).2
  case isFalse => exact h

theorem startsCell_succ (bytes : Nat → Byte) (cols col : Nat) :
    startsCell bytes cols (col + 1) = !(startsCell bytes cols col && pairAt bytes cols col) := by
  rw [startsCell, pairAt, Bool.and_assoc]

/-- The scan goes on behind the cells it has taken. -/
theorem startsCell_add_cellSpan {bytes : Nat → Byte} {cols col : Nat} (h : startsCell bytes cols col = true) :
    startsCell bytes cols (col + cellSpan bytes cols col) = true := by
  unfold cellSpan
  split
  case isTrue hpair => simp only [startsCell_succ, h, hpair, Bool.and_true, Bool.not_true, Bool.false_and, Bool.not_false]
  case isFalse hone => simp only [startsCell_succ, Bool.eq_false_iff.mpr hone, Bool.and_false, Bool.not_false]

/-- No cell starts inside a pair. -/
theorem add_cellSpan_le_of_startsCell {bytes : Nat → Byte} {cols col col' : Nat} (h : startsCell bytes cols col = true)
    (h' : startsCell bytes cols col' = true) (hlt : col < col') : col + cellSpan bytes cols col ≤ col' := by
  unfold cellSpan
  split
  case isTrue hpair =>
    have hne : col' ≠ col + 1 := by
      rintro rfl
      rw [startsCell_succ, h, hpair] at h'
      cases h'
    omega
  case isFalse => exact hlt

theorem drawCells_succ {c : Params} {mode : BitVec 1} {r col : Nat} {bytes : Nat → Byte} {m : Memory}
    (hrow : HoldsRow c mode r bytes m) (hcol : col < colsOf mode) (n : Nat) :
    drawCells c mode r (n + 1) col m =
      drawCells c mode r n (col + cellSpan bytes (colsOf mode) col)
        (m.blit c c.graphBase
          (glyphBlit mode r col (cellSpan bytes (colsOf mode) col) (glyphAt c mode bytes col))) := by
  rw [drawCells, if_pos hcol]
  dsimp only
  rw [hrow col hcol]
  by_cases hpair : pairAt bytes (colsOf mode) col = true
  · obtain ⟨hlead, hnext⟩ := pairAt_iff.mp hpair
    rw [if_pos ⟨hlead, hnext⟩, cellSpan, glyphAt, if_pos hpair, if_pos hpair, ← hrow (col + 1) hnext]
    rfl
  · rw [if_neg (fun h => hpair (pairAt_iff.mpr h)), cellSpan, glyphAt, if_neg hpair, if_neg hpair]

theorem drawCells_of_ge {c : Params} {mode : BitVec 1} {col : Nat} (hcol : colsOf mode ≤ col) (r n : Nat) (m : Memory) :
    drawCells c mode r n col m = m := by
  cases n with
  | zero => rfl
  | succ n => rw [drawCells, if_neg (by omega)]

/-- What is drawn from column `col` on stays in the cells from `col` on. -/
theorem px_drawCells_outside {c : Params} (hv : c.Valid) (mode : BitVec 1) (r n col : Nat) {m : Memory} (hm : m.wf = true)
    {px py : Nat} (hx : px < 160) (hy : py < 80) (hout : ¬ InCells mode r col (colsOf mode) px py) :
    (drawCells c mode r n col m).px c.graphBase px py = m.px c.graphBase px py := by
  induction n generalizing col m with
  | zero => rfl
  | succ n ih =>
    by_cases hcol : col < colsOf mode
    · have hrow : HoldsRow c mode r (fun k => m.byteAt (c.textBase + r * colsOf mode + k)) m := fun _ _ => rfl
      have hspan := add_cellSpan_le (bytes := fun k => m.byteAt (c.textBase + r * colsOf mode + k)) hcol
      rw [drawCells_succ hrow hcol, ih _ (Memory.wf_blit hm _ _ _) fun h => hout (h.mono (by omega) le_rfl),
        px_glyphBlit_outside hm hv mode r _ hx hy fun h => hout (h.mono le_rfl hspan)]
    · rw [drawCells_of_ge (by omega)]

/-- The cells at column `col` of text row `r`, which holds `bytes`, show their glyph. -/
def ShowsGlyph (c : Params) (mode : BitVec 1) (bytes : Nat → Byte) (r col : Nat) (m : Memory) : Prop :=
  ∀ dx dy, dx < cellSpan bytes (colsOf mode) col * cellWidth mode → dy < glyphHeight mode →
    m.px c.graphBase (cellX mode col + dx) (cellY mode r + dy) =
      glyphPixel c (glyphAt c mode bytes col) (cellSpan bytes (colsOf mode) col) dx dy

theorem ShowsGlyph.pair {c : Params} {mode : BitVec 1} {bytes : Nat → Byte} {r col : Nat} {m : Memory}
    (h : ShowsGlyph c mode bytes r col m) (hpair : pairAt bytes (colsOf mode) col = true) :
    ∀ dx dy, dx < 2 * cellWidth mode → dy < glyphHeight mode →
      m.px c.graphBase (cellX mode col + dx) (cellY mode r + dy) =
        glyphPixel c (glyphOff2 c mode (bytes col) (bytes (col + 1))) 2 dx dy := by
  rwa [ShowsGlyph, cellSpan, glyphAt, if_pos hpair, if_pos hpair] at h

theorem ShowsGlyph.one {c : Params} {mode : BitVec 1} {bytes : Nat → Byte} {r col : Nat} {m : Memory}
    (h : ShowsGlyph c mode bytes r col m) (hone : pairAt bytes (colsOf mode) col = false) :
    ∀ dx dy, dx < cellWidth mode → dy < glyphHeight mode →
      m.px c.graphBase (cellX mode col + dx) (cellY mode r + dy) = glyphPixel c (glyphOff1 c mode (bytes col)) 1 dx dy := by
  have hnot : ¬ pairAt bytes (colsOf mode) col = true := Bool.eq_false_iff.mp hone
  rwa [ShowsGlyph, cellSpan, glyphAt, if_neg hnot, if_neg hnot, Nat.one_mul] at h

/-- A change of the bitmap outside the row's cells keeps what they show. -/
theorem ShowsGlyph.of_px_eq {c : Params} {mode : BitVec 1} {bytes : Nat → Byte} {r col : Nat} {m m' : Memory}
    (h : ShowsGlyph c mode bytes r col m)
    (hpx : ∀ px py, InCells mode r col (col + cellSpan bytes (colsOf mode) col) px py →
      m'.px c.graphBase px py = m.px c.graphBase px py) : ShowsGlyph c mode bytes r col m' :=
  fun dx dy hx hy => (hpx _ _ (.of_offset r hx hy)).trans (h dx dy hx hy)

/-- Every cell and pair the scan meets from column `col` on shows its glyph: nothing drawn after it reaches it. -/
theorem showsGlyph_drawCells {c : Params} (hv : c.Valid) {mode : BitVec 1} {r n col k : Nat} {bytes : Nat → Byte} {m : Memory}
    (hr : r < rowsOf mode) (hm : m.wf = true) (hrow : HoldsRow c mode r bytes m) (hfuel : colsOf mode ≤ n + col)
    (hstart : startsCell bytes (colsOf mode) col = true) (hk : startsCell bytes (colsOf mode) k = true) (hle : col ≤ k)
    (hlt : k < colsOf mode) : ShowsGlyph c mode bytes r k (drawCells c mode r n col m) := by
  induction n generalizing col m with
  | zero => omega
  | succ n ih =>
    have hcol : col < colsOf mode := by omega
    have hspan := add_cellSpan_le (bytes := bytes) hcol
    have hone := cellSpan_eq_or bytes (colsOf mode) col
    have hm' := Memory.wf_blit hm c c.graphBase
      (glyphBlit mode r col (cellSpan bytes (colsOf mode) col) (glyphAt c mode bytes col))
    rw [drawCells_succ hrow hcol]
    rcases Nat.eq_or_lt_of_le hle with rfl | hafter
    · have hshown := fun dx dy => px_glyphBlit hm hv mode r (dx := dx) (dy := dy) hone hr hspan (glyphAt c mode bytes col)
      refine ShowsGlyph.of_px_eq hshown fun px py hin => ?_
      obtain ⟨hx, hy⟩ := (hin.mono (Nat.zero_le _) hspan).bounds hr
      exact px_drawCells_outside hv mode r n _ hm' hx hy hin.not_right
    · exact ih hm' (hrow.of_sameOutside hv hr (Memory.sameOutside_blit hm c _ _)) (by omega)
        (startsCell_add_cellSpan hstart) (add_cellSpan_le_of_startsCell hstart hk hafter)

/-! ### The rows (R222, R224) -/

/-- The rows from `r` on change no pixel outside the cells of those that are not skipped. -/
theorem px_drawRows_outside {c : Params} (hv : c.Valid) (mode : BitVec 1) (mask : Half) (n r : Nat) {m : Memory}
    (hm : m.wf = true) {px py : Nat} (hx : px < 160) (hy : py < 80)
    (hout : ∀ r', r ≤ r' → r' < r + n → rowSkipped c mask r' = false → ¬ InCells mode r' 0 (colsOf mode) px py) :
    (drawRows c mode mask n r m).px c.graphBase px py = m.px c.graphBase px py := by
  induction n generalizing r m with
  | zero => rfl
  | succ n ih =>
    have hlater : ∀ r', r + 1 ≤ r' → r' < r + 1 + n → rowSkipped c mask r' = false →
        ¬ InCells mode r' 0 (colsOf mode) px py := fun r' hle hlt => hout r' (by omega) (by omega)
    rw [drawRows]
    by_cases hskip : rowSkipped c mask r = true
    · rw [if_pos hskip, ih _ hm hlater]
    · rw [if_neg hskip, drawTextRow, ih _ (wf_drawCells c mode r _ _ hm) hlater,
        px_drawCells_outside hv mode r _ _ hm hx hy (hout r le_rfl (by omega) (Bool.eq_false_iff.mpr hskip))]

theorem showsGlyph_drawRows {c : Params} (hv : c.Valid) {mode : BitVec 1} {mask : Half} {n r r' k : Nat} {bytes : Nat → Byte}
    {m : Memory} (hm : m.wf = true) (hrow : HoldsRow c mode r' bytes m) (hr : r' < rowsOf mode) (hle : r ≤ r')
    (hlt : r' < r + n) (hdrawn : rowSkipped c mask r' = false) (hk : startsCell bytes (colsOf mode) k = true)
    (hcol : k < colsOf mode) : ShowsGlyph c mode bytes r' k (drawRows c mode mask n r m) := by
  induction n generalizing r m with
  | zero => omega
  | succ n ih =>
    have hm' : (drawTextRow c mode r m).wf = true := wf_drawCells c mode r _ _ hm
    rw [drawRows]
    rcases Nat.eq_or_lt_of_le hle with rfl | hafter
    · have hshown : ShowsGlyph c mode bytes r k (drawTextRow c mode r m) :=
        showsGlyph_drawCells hv hr hm hrow le_rfl rfl hk (Nat.zero_le _) hcol
      rw [if_neg (Bool.eq_false_iff.mp hdrawn)]
      refine hshown.of_px_eq fun px py hin => ?_
      obtain ⟨hx, hy⟩ := (hin.mono (Nat.zero_le _) (add_cellSpan_le hcol)).bounds hr
      exact px_drawRows_outside hv mode mask n _ hm' hx hy fun r'' hlater _ _ => hin.not_other_row (by omega)
    · by_cases hskip : rowSkipped c mask r = true
      · rw [if_pos hskip]
        exact ih hm hrow hafter (by omega)
      · rw [if_neg hskip]
        exact ih hm' (hrow.of_sameOutside hv hr fun _ => byteAt_drawCells_outside c mode r _ _ hm) hafter (by omega)

/-! ### `TXTRENDER` (R221, R224) -/

theorem inBorder_iff {px py : Nat} (hy : py < 80) :
    inBorder px py = true ↔ px = 0 ∨ px = 159 ∨ py = 79 ∨ py % 13 = 0 := by
  rw [inBorder, decide_eq_true_iff]
  omega

theorem px_clearBorder {c : Params} (hv : c.Valid) (mode : BitVec 1) {m : Memory} (hm : m.wf = true) {px py : Nat}
    (hx : px < 160) (hy : py < 80) :
    (clearBorder c mode m).px c.graphBase px py =
      if mode = 1 ∧ (px = 0 ∨ px = 159 ∨ py = 79 ∨ py % 13 = 0) then false else m.px c.graphBase px py := by
  have hscreen : Box.screen.has px py = true := by
    rw [Box.has_iff, Box.screen]
    dsimp only
    omega
  by_cases hmode : mode = 1
  · rw [clearBorder, if_pos hmode, Memory.px_plotSet hm hv.1 _ _ _ hx hy, hscreen, Bool.true_and]
    simp only [inBorder_iff hy, hmode, true_and]
    rfl
  · rw [clearBorder, if_neg hmode, if_neg (fun h => hmode h.1)]

/-- RAM after `TXTRENDER`. -/
def rendered (mask : Half) (s : State) : Memory :=
  drawRows s.cfg s.txtMode mask s.rows 0 (clearBorder s.cfg s.txtMode s.ram)

theorem exec_txtRender (mask : Half) (s : State) : exec (.txtRender mask) s = .next { s with ram := rendered mask s } := rfl

theorem sameOutside_rendered (mask : Half) {s : State} (hm : s.ram.wf = true) :
    SameOutside s.ram (rendered mask s) s.cfg.graphBase 1600 := fun _ hx =>
  (byteAt_drawRows_outside _ _ _ _ _ (wf_clearBorder _ _ hm) hx).trans (byteAt_clearBorder_outside _ _ hm hx)

theorem showsGlyph_rendered {mask : Half} {s : State} (hs : s.Sound) {r col : Nat} (hr : r < s.rows) (hcol : col < s.cols)
    (hdrawn : rowSkipped s.cfg mask r = false)
    (hstart : startsCell (fun k => s.ram.byteAt (s.cell r k)) s.cols col = true) :
    ShowsGlyph s.cfg s.txtMode (fun k => s.ram.byteAt (s.cell r k)) r col (rendered mask s) := by
  obtain ⟨hm, hv⟩ := hs
  have hrow : HoldsRow s.cfg s.txtMode r (fun k => s.ram.byteAt (s.cell r k)) s.ram := fun _ _ => rfl
  exact showsGlyph_drawRows hv (wf_clearBorder _ _ hm)
    (hrow.of_sameOutside hv hr fun _ => byteAt_clearBorder_outside _ _ hm) hr (Nat.zero_le r) (by omega) hdrawn hstart hcol

/-- Settles O59: a pair takes two cells and its glyph two bytes a row, a one-byte character one of each. -/
theorem txtRenderDrawsEveryGlyph : Obligations.TxtRenderDrawsEveryGlyph := by
  refine ⟨fun _ => rfl, wrongLengthFaults rfl, fun mask s hs => ⟨rendered mask s, exec_txtRender mask s,
    sameOutside_rendered mask hs.1, fun r col hr hcol hdrawn => ?_⟩⟩
  intro row X Y hstart
  have hshown : ShowsGlyph s.cfg s.txtMode row r col (rendered mask s) := showsGlyph_rendered hs hr hcol hdrawn hstart
  exact ⟨hshown.pair, hshown.one⟩

/-- Settles O60: the border is cleared first, and the glyphs stay in their cells. -/
theorem txtRenderKeepsOtherPixels : Obligations.TxtRenderKeepsOtherPixels := by
  refine fun mask s ⟨hm, hv⟩ => ⟨rendered mask s, exec_txtRender mask s, fun px py hx hy hout => ?_⟩
  have hcells : ∀ r, 0 ≤ r → r < 0 + s.rows → rowSkipped s.cfg mask r = false →
      ¬ InCells s.txtMode r 0 (colsOf s.txtMode) px py := by
    intro r _ hr hdrawn hin
    obtain ⟨⟨hlo, hhi⟩, htop, hbottom⟩ := hin
    exact hout r (by omega) hdrawn ⟨hlo, hhi, htop, hbottom⟩
  rw [rendered, px_drawRows_outside hv _ _ _ _ (wf_clearBorder _ _ hm) hx hy hcells, px_clearBorder hv _ hm hx hy]

end Sys2Proof.Machine
end

/-! # Exceptions (spec 60_exceptions.md R240 to R252)

Every outcome is a next state: `exec_completes` follows the branches of each command's definition. What that state is, is
already said by `exec_effect`. -/

section
namespace Sys2Proof.Machine

/-! ### Precise faults (R243, R249) -/

theorem withAddressFault_completes (s : State) (r : Except AddressFault Memory) : ∃ t, withAddressFault s r = .next t := by
  cases r with
  | ok m => exact ⟨_, rfl⟩
  | error f => exact ⟨_, rfl⟩

theorem execDrawData_completes (x y w h : Half) (addr : Addr24) (flags : Byte) (s : State) :
    ∃ t, execDrawData x y w h addr flags s = .next t := by
  unfold execDrawData
  cases readFlags flags with
  | none => exact ⟨_, rfl⟩
  | some f =>
    dsimp only
    split_ifs <;> exact ⟨_, rfl⟩

theorem execSaveData_completes (x y w h addr : Half) (s : State) : ∃ t, execSaveData x y w h addr s = .next t := by
  unfold execSaveData
  dsimp only
  split_ifs <;> exact ⟨_, rfl⟩

theorem execDrawOval_completes (cx cy rx ry : Half) (sm : Byte) (s : State) :
    ∃ t, execDrawOval cx cy rx ry sm s = .next t := by
  unfold execDrawOval
  cases readFillMode sm with
  | none => exact ⟨_, rfl⟩
  | some mode =>
    dsimp only
    split_ifs <;> exact ⟨_, rfl⟩

theorem execTxtBytes_completes (addr count : Half) (s : State) : ∃ t, execTxtBytes addr count s = .next t := by
  unfold execTxtBytes
  cases loneLead (s.ram.loadBytes addr.toNat count.toNat) with
  | none => split_ifs <;> exact ⟨_, rfl⟩
  | some b => split_ifs <;> exact ⟨_, rfl⟩

/-- No command is without a meaning, for any operand in any state. -/
theorem exec_completes (i : Instr) (s : State) : ∃ t, exec i s = .next t := by
  cases i with
  | reset | render | testPoint | txtLoc | txtRender => exact ⟨_, rfl⟩
  | setTarget v =>
    rw [exec, execSetTarget]
    cases readSelector v <;> exact ⟨_, rfl⟩
  | drawData x y w h addr flags => exact execDrawData_completes x y w h addr flags s
  | saveData x y w h addr => exact execSaveData_completes x y w h addr s
  | drawPoint x y sm =>
    rw [exec, execDrawPoint]
    cases readPlainMode sm <;> exact ⟨_, rfl⟩
  | drawLine x0 y0 x1 y1 sm =>
    rw [exec, execDrawLine]
    cases readPlainMode sm <;> exact ⟨_, rfl⟩
  | drawRect x0 y0 x1 y1 sm =>
    rw [exec, execDrawRect]
    cases readFillMode sm <;> exact ⟨_, rfl⟩
  | drawOval cx cy rx ry sm => exact execDrawOval_completes cx cy rx ry sm s
  | scroll dir =>
    rw [exec, execScroll]
    cases readSelector dir <;> exact ⟨_, rfl⟩
  | mirror dir =>
    rw [exec, execMirror]
    cases readSelector dir <;> exact ⟨_, rfl⟩
  | memFill addr count value => exact withAddressFault_completes s _
  | memCopy dest src count => exact withAddressFault_completes s _
  | txtMode m =>
    rw [exec, execTxtMode]
    cases readSelector m <;> exact ⟨_, rfl⟩
  | txtByte b =>
    rw [exec, execTxtByte]
    split_ifs <;> exact ⟨_, rfl⟩
  | txtBytes addr count => exact execTxtBytes_completes addr count s

/-- The port answers a next state to every packet: `E_OPCODE`, the command's state, or the packet discarded. -/
theorem deliver_completes (op : Byte) (operands : List Byte) (s : State) : ∃ t, deliver op operands s = .next t := by
  rw [deliver, runPacket]
  split
  · cases decode (op :: operands) with
    | ok i => exact exec_completes i s
    | error e => exact ⟨_, rfl⟩
  · exact ⟨_, rfl⟩

/-- The one effect of a command that stops a running engine is a fault. -/
theorem CommandEffect.running_or_raised {s t : State} {i : Instr} (h : CommandEffect s i t) (hrun : s.status = 0) :
    t.status = 0 ∨ ∃ f info, t = s.raise f info := by
  cases h with
  | fault _ f info => exact .inr ⟨f, info, rfl⟩
  | reset => exact .inl rfl
  | ram | setTarget | testPoint | txtMode => exact .inl hrun
  | txtLoc _ _ ht | txtByte _ ht | txtBytes _ _ ht => exact .inl (ht.status.trans hrun)

/-- Settles O23: a packet is malformed or runs a command, and either keeps the engine running or raises one fault. -/
theorem faultsArePrecise : Obligations.FaultsArePrecise := by
  intro op operands s hrun
  obtain ⟨t, ht⟩ := deliver_completes op operands s
  have hcases : t.status = 0 ∨ ∃ f info, t = s.raise f info := by
    rcases deliver_cases ht with rfl | rfl | ⟨i, -, hi⟩
    · exact .inl hrun
    · exact .inr ⟨_, _, rfl⟩
    · exact (exec_effect hi).running_or_raised hrun
  refine ⟨t, ht, hcases.imp_right ?_⟩
  rintro ⟨f, info, rfl⟩
  rfl

/-! ### Malformed packets (R85, R241) -/

/-- The opcodes with a packet length are the nineteen of the map. -/
theorem packetLength_eq_none_iff (op : Byte) : packetLength op = none ↔
    op.toNat ∉ [0x01, 0x02, 0x10, 0x11, 0x12, 0x20, 0x21, 0x22, 0x23, 0x24, 0x30, 0x31, 0x38, 0x39, 0x40, 0x41, 0x42,
      0x43, 0x44] := by
  unfold packetLength opcodeRow
  split
  case h_20 => simp_all
  all_goals
    rename_i hnum
    simp [hnum]

/-- Settles O5: the opcodes by the map, the fault by `step_of_malformed`. -/
theorem malformedPacketRaisesOpcodeFault : Obligations.MalformedPacketRaisesOpcodeFault :=
  ⟨packetLength_eq_none_iff, fun _ _ _ _ hrun hin hlen => step_of_malformed hrun hin hlen⟩

/-! ### The FAULTED state (R246, R247, R250) -/

theorem deliver_of_faulted {s : State} {op : Byte} {operands : List Byte} (hfaulted : s.status ≠ 0)
    (hpacket : op :: operands ≠ [0x01]) : deliver op operands s = .next s := by
  refine if_neg ?_
  rintro (hrun | hreset)
  · exact hfaulted hrun
  · obtain ⟨rfl, rfl⟩ := of_decide_eq_true hreset
    exact hpacket rfl

theorem deliver_reset (s : State) : deliver 0x01 [] s = exec .reset s := if_pos (.inr rfl)

/-- Settles O8: the port's test for a packet, `hostWrite_eq` and `hostRead_eq` for a host access. -/
theorem faultedEngineDiscardsPackets : Obligations.FaultedEngineDiscardsPackets := by
  intro s rest hfaulted
  have hstill : (s.setInbox rest).status ≠ 0 := hfaulted
  refine ⟨fun op operands hin hpacket => ?_, fun hin => ?_, fun addr w v hin => ?_, fun addr w hin => ?_⟩ <;>
    rw [step_of_inbox hin, perform]
  · exact deliver_of_faulted hstill hpacket
  · exact deliver_reset _
  · rw [hostWrite_eq, if_neg hstill]
    exact ⟨fun hfit => ⟨_, Memory.memWrite_of_fits _ v hfit, congrArg _ (if_pos hfit)⟩,
      fun hpast => congrArg _ (if_neg (by omega))⟩
  · rw [hostRead_eq, if_neg hstill, ite_self]
    rfl

/-- Settles O9: a discarded packet and a host access that fits keep `STATUS`, and a fault's code is not 0. -/
theorem onlyResetLeavesFaulted : Obligations.OnlyResetLeavesFaulted := by
  intro s t hfaulted h hrun
  cases hin : s.inbox with
  | nil =>
    cases (idleEngineWaits s hin).symm.trans h
    exact absurd hrun hfaulted
  | cons a rest =>
    rw [step_of_inbox hin] at h
    have haccess : ∀ addr w, ¬ (a = .read addr w ∨ ∃ v, a = .write addr w v) := by
      intro addr w ha
      rcases hostAccess_cases ha h with ⟨-, m, -, rfl⟩ | ⟨-, rfl | rfl⟩
      · exact hfaulted hrun
      · exact hfaulted hrun
      · exact FaultCode.code_ne_zero .eAddr hrun
    cases a with
    | packet op operands =>
      by_cases hpacket : op :: operands = [0x01]
      · cases hpacket
        exact ⟨rest, hin⟩
      · cases (deliver_of_faulted (s := s.setInbox rest) hfaulted hpacket).symm.trans h
        exact absurd hrun hfaulted
    | write addr w v => exact absurd (.inr ⟨v, rfl⟩) (haccess addr w)
    | read addr w => exact absurd (.inl rfl) (haccess addr w)

end Sys2Proof.Machine
end

/-! # Unspecified overlaps (spec 70_reset_and_hazards.md R275)

Ranges that hold at least one address each meet unless they are apart. Each of the three commands then ends in the branch
of its definition that lays free ranges over RAM, and a free range leaves every other byte alone. -/

section
namespace Sys2Proof.Machine

theorem rangesMeet_eq_true {a n b k : Nat} (hn : 1 ≤ n) (hk : 1 ≤ k) (h : ¬ apart a n b k) : rangesMeet a n b k = true :=
  decide_eq_true (by omega)

theorem toNat_pos_of_toInt_pos {v : Half} (h : 0 < v.toInt) : 0 < v.toNat := by
  rw [← toNat_s16 h]
  exact Int.pos_iff_toNat_pos.mp h

theorem Memory.sameOutside_freeRange {m : Memory} (hm : m.wf = true) (draw a n : Nat) :
    SameOutside m (m.freeRange draw a n) a n := fun _ => Memory.byteAt_freeRange_outside hm draw a n

/-! ### `DRAWDATA` -/

theorem execDrawData_of_meets {x y w h : Half} {addr : Addr24} {flags : Byte} {f : BlitFlags} {s : State}
    (hf : readFlags flags = some f) (hram : f.space = .ram) (hw : 0 < w.toInt) (hh : 0 < h.toInt)
    (hfit : addr.toNat + (w.toNat + 7) / 8 * h.toNat ≤ 65536)
    (hmeet : ¬ apart addr.toNat ((w.toNat + 7) / 8 * h.toNat) s.targetBase 1600) :
    execDrawData x y w h addr flags s = .next ((s.setRam (s.ram.freeRange s.draws s.targetBase 1600)).countDraw) := by
  have hstride : 0 < (w.toNat + 7) / 8 := by
    have hw' := toNat_pos_of_toInt_pos hw
    omega
  have hsize : 0 < (w.toNat + 7) / 8 * h.toNat := Nat.mul_pos hstride (toNat_pos_of_toInt_pos hh)
  have hspace : spaceLimit s.cfg f.space = 65536 := by rw [hram]; rfl
  rw [execDrawData_of_nonempty hf hw hh, hspace, if_neg (by omega), rangesMeet_eq_true hsize (by omega) hmeet, hram]
  rfl

/-! ### `SAVEDATA` -/

theorem execSaveData_of_meets {x y w h addr : Half} {s : State} (hpos : 1 ≤ savedWidth w * savedHeight s.cfg h)
    (hfit : addr.toNat + savedWidth w * savedHeight s.cfg h ≤ 65536)
    (hmeet : ¬ apart addr.toNat (savedWidth w * savedHeight s.cfg h) s.targetBase 1600) :
    execSaveData x y w h addr s = .next ((s.setRam ((s.ram.freeRange s.draws addr.toNat
      (savedWidth w * savedHeight s.cfg h)).freeRange s.draws s.targetBase 1600)).countDraw) := by
  rw [execSaveData_of_nonempty (Nat.pos_of_mul_pos_right hpos) (Nat.pos_of_mul_pos_left hpos), if_neg (by omega),
    rangesMeet_eq_true hpos (by omega) hmeet, if_pos rfl]

/-! ### `TXTBYTES` -/

theorem State.grid_size_pos (s : State) : 1 ≤ s.rows * s.cols := by
  rcases s.grid_cases with ⟨hcols, hrows⟩ | ⟨hcols, hrows⟩ <;> rw [hcols, hrows] <;> decide

theorem execTxtBytes_of_meets {addr count : Half} {s : State} (hcount : 0 < count.toNat)
    (hfit : addr.toNat + count.toNat ≤ 65536) (hscan : loneLead (s.ram.loadBytes addr.toNat count.toNat) = none)
    (hmeet : ¬ apart addr.toNat count.toNat s.cfg.textBase (s.rows * s.cols)) :
    execTxtBytes addr count s = .next s.freeText := by
  rw [execTxtBytes, if_neg (by omega), if_neg (by omega), hscan, rangesMeet_eq_true hcount s.grid_size_pos hmeet]
  rfl

/-- The free cursor is inside the grid wherever the old one was. -/
theorem State.inGrid_freeText (s : State) : s.freeText.InGrid := by
  have hgrid := s.grid_cases
  exact State.inGrid_setCursor (s := s.setRam _) (Nat.mod_lt _ (by omega : 0 < s.rows)) (Nat.mod_lt _ (by omega : 0 < s.cols))

/-- Settles O35: each command takes its overlap branch, whose state differs from the old one in the free ranges, the
cursor of `TXTBYTES` and the count of draws. -/
theorem overlapLeavesOnlyItsRangesOpen : Obligations.OverlapLeavesOnlyItsRangesOpen := by
  refine ⟨?drawData, ?saveData, ?txtBytes⟩
  case drawData =>
    intro x y w h addr flags f s ⟨hm, _⟩ hf hram hw hh hfit hmeet
    exact ⟨_, execDrawData_of_meets hf hram hw hh hfit hmeet, Memory.sameOutside_freeRange hm _ _ _⟩
  case saveData =>
    rintro x y w h addr s _ ⟨hm, _⟩ rfl _ _ hpos hfit hmeet
    refine ⟨_, execSaveData_of_meets hpos hfit hmeet, fun a htarget hdest => ?_⟩
    have hfree := Memory.wf_freeRange hm s.draws addr.toNat (savedWidth w * savedHeight s.cfg h)
    exact (Memory.sameOutside_freeRange hfree _ _ _ a htarget).trans (Memory.sameOutside_freeRange hm _ _ _ a hdest)
  case txtBytes =>
    intro addr count s ⟨hm, _⟩ hcount hfit hscan hmeet
    obtain ⟨hrow, hcol⟩ := s.inGrid_freeText
    exact ⟨_, _, _, execTxtBytes_of_meets hcount hfit hscan hmeet, hrow, hcol, Memory.sameOutside_freeRange hm _ _ _⟩

end Sys2Proof.Machine
end

/-! # The reset state (spec 10_state.md R37, R39)

The model's reset state is power-on with R10's default parameters and an initial RAM with nothing listed; what it needs
holds of power-on with every valid configuration and every canonical initial RAM. -/

section
namespace Sys2Proof.Machine

/-- R10's defaults meet R10's constraint: each segment starts where the one before it ends. -/
theorem Params.valid_default : Params.default.Valid := by decide

/-- Power-on is sound whenever its parameters meet R10's constraint and the initial RAM is canonical. -/
theorem State.sound_powerOn {c : Params} {init : Memory} (hc : c.Valid) (hinit : init.wf = true) :
    (State.powerOn c init).Sound :=
  ⟨wf_initSegments c hinit, hc⟩

/-- Settles O20: the reset state is power-on with valid parameters and the empty RAM, and power-on always has R39's
invariants (O18). -/
theorem invariantsHoldAtReset : Obligations.InvariantsHoldAtReset := by
  obtain ⟨hpowerOn, -⟩ := registerInvariantsArePreserved
  exact ⟨hpowerOn Params.default Memory.empty, State.sound_powerOn Params.valid_default Memory.wf_empty⟩

end Sys2Proof.Machine
end
